-- ==== Sys2Proof/Word.lean ====
section
/-! DEFINITION. The three bit-vector types of the machine: XLEN = 32 (R3), one byte (R50) and a register number (R21, R92). -/

namespace Sys2Proof

/-- A 32-bit value: the content of a register, an address, the pc or an instruction word (R3, R6). -/
abbrev Word := BitVec 32

/-- One byte of the address space (R50). -/
abbrev Byte := BitVec 8

/-- The 5-bit number that selects a register (R21, R92). -/
abbrev RegNum := BitVec 5

end Sys2Proof
end

