-- ==== Sys2Proof/Syntax.lean ====
section
/-! DEFINITION. The instructions of RV32I as syntax: one constructor for each of the 42 rows of 30_encoding.md rule R112. -/

namespace Sys2Proof

/-- One constructor per row of R112, with the operands of R266. `imm` of the I and S formats is the 12-bit field; `imm20` is
the 20-bit operand of LUI and AUIPC; a branch or jump `offset` is the whole signed byte offset, bit 0 included, which
`Instr.wf` requires to be 0. -/
inductive Instr where
  | lui (rd : RegNum) (imm20 : BitVec 20)
  | auipc (rd : RegNum) (imm20 : BitVec 20)
  | jal (rd : RegNum) (offset : BitVec 21)
  | jalr (rd rs1 : RegNum) (imm : BitVec 12)
  | beq (rs1 rs2 : RegNum) (offset : BitVec 13)
  | bne (rs1 rs2 : RegNum) (offset : BitVec 13)
  | blt (rs1 rs2 : RegNum) (offset : BitVec 13)
  | bge (rs1 rs2 : RegNum) (offset : BitVec 13)
  | bltu (rs1 rs2 : RegNum) (offset : BitVec 13)
  | bgeu (rs1 rs2 : RegNum) (offset : BitVec 13)
  | lb (rd rs1 : RegNum) (imm : BitVec 12)
  | lh (rd rs1 : RegNum) (imm : BitVec 12)
  | lw (rd rs1 : RegNum) (imm : BitVec 12)
  | lbu (rd rs1 : RegNum) (imm : BitVec 12)
  | lhu (rd rs1 : RegNum) (imm : BitVec 12)
  | sb (rs1 rs2 : RegNum) (imm : BitVec 12)
  | sh (rs1 rs2 : RegNum) (imm : BitVec 12)
  | sw (rs1 rs2 : RegNum) (imm : BitVec 12)
  | addi (rd rs1 : RegNum) (imm : BitVec 12)
  | slti (rd rs1 : RegNum) (imm : BitVec 12)
  | sltiu (rd rs1 : RegNum) (imm : BitVec 12)
  | xori (rd rs1 : RegNum) (imm : BitVec 12)
  | ori (rd rs1 : RegNum) (imm : BitVec 12)
  | andi (rd rs1 : RegNum) (imm : BitVec 12)
  | slli (rd rs1 : RegNum) (shamt : BitVec 5)
  | srli (rd rs1 : RegNum) (shamt : BitVec 5)
  | srai (rd rs1 : RegNum) (shamt : BitVec 5)
  | add (rd rs1 rs2 : RegNum)
  | sub (rd rs1 rs2 : RegNum)
  | sll (rd rs1 rs2 : RegNum)
  | slt (rd rs1 rs2 : RegNum)
  | sltu (rd rs1 rs2 : RegNum)
  | xor (rd rs1 rs2 : RegNum)
  | srl (rd rs1 rs2 : RegNum)
  | sra (rd rs1 rs2 : RegNum)
  | or (rd rs1 rs2 : RegNum)
  | and (rd rs1 rs2 : RegNum)
  | fence (fm pred succ : BitVec 4) (rs1 rd : RegNum)
  | fenceTso
  | pause
  | ecall
  | ebreak
  deriving DecidableEq, Repr, Inhabited

/-- The fields `fm`, `pred`, `succ`, `rs1`, `rd` that turn a FENCE word into the word named FENCE.TSO (R243). -/
def Instr.isFenceTsoWord (fm pred succ : BitVec 4) (rs1 rd : RegNum) : Bool :=
  fm == 0b1000 && pred == 0b0011 && succ == 0b0011 && rs1 == 0 && rd == 0

/-- The fields that turn a FENCE word into the word named PAUSE (R244). -/
def Instr.isPauseWord (fm pred succ : BitVec 4) (rs1 rd : RegNum) : Bool :=
  fm == 0 && pred == 0b0001 && succ == 0 && rs1 == 0 && rd == 0

end Sys2Proof
end

