-- ==== Sys2Proof/WellFormed.lean ====
section
/-! DEFINITION. Which terms of `Instr` an instruction word stands for (R108, R116). -/

namespace Sys2Proof

/-- A branch offset has an encoding exactly when it is even (R102, R108). -/
def evenOffset13 (offset : BitVec 13) : Bool := offset.extractLsb' 0 1 == 0#1

/-- A jump offset has an encoding exactly when it is even (R104, R108). -/
def evenOffset21 (offset : BitVec 21) : Bool := offset.extractLsb' 0 1 == 0#1

/-- An instruction is well formed when some word decodes to it: branch and jump offsets are even (R108), and a FENCE is not
one of the two words that have names of their own (R115, R116). -/
def Instr.wf (i : Instr) : Bool :=
  match i with
  | .jal _ offset => evenOffset21 offset
  | .beq _ _ offset => evenOffset13 offset
  | .bne _ _ offset => evenOffset13 offset
  | .blt _ _ offset => evenOffset13 offset
  | .bge _ _ offset => evenOffset13 offset
  | .bltu _ _ offset => evenOffset13 offset
  | .bgeu _ _ offset => evenOffset13 offset
  | .fence fm pred succ rs1 rd =>
      !Instr.isFenceTsoWord fm pred succ rs1 rd && !Instr.isPauseWord fm pred succ rs1 rd
  | .lui _ _ | .auipc _ _ => true
  | .jalr _ _ _ => true
  | .lb _ _ _ | .lh _ _ _ | .lw _ _ _ | .lbu _ _ _ | .lhu _ _ _ => true
  | .sb _ _ _ | .sh _ _ _ | .sw _ _ _ => true
  | .addi _ _ _ | .slti _ _ _ | .sltiu _ _ _ | .xori _ _ _ | .ori _ _ _ | .andi _ _ _ => true
  | .slli _ _ _ | .srli _ _ _ | .srai _ _ _ => true
  | .add _ _ _ | .sub _ _ _ | .sll _ _ _ | .slt _ _ _ | .sltu _ _ _ => true
  | .xor _ _ _ | .srl _ _ _ | .sra _ _ _ | .or _ _ _ | .and _ _ _ => true
  | .fenceTso | .pause | .ecall | .ebreak => true

end Sys2Proof
end

