-- ==== Sys2Proof/Decode.lean ====
section
/-! DEFINITION. The total decoder (R115), the encoder written from the same encoding rules (R93 to R108), the opcode table of
R112 as mask and match rows, and the byte order of an instruction in memory (R67). -/

namespace Sys2Proof

/-! ### Fields of an instruction word (R92) -/

/-- `inst[6:0]` (R92, R110). -/
def opcodeOf (w : Word) : BitVec 7 := w.extractLsb' 0 7

/-- `inst[11:7]` (R92). -/
def rdOf (w : Word) : RegNum := w.extractLsb' 7 5

/-- `inst[14:12]` (R92). -/
def funct3Of (w : Word) : BitVec 3 := w.extractLsb' 12 3

/-- `inst[19:15]` (R92). -/
def rs1Of (w : Word) : RegNum := w.extractLsb' 15 5

/-- `inst[24:20]` (R92); it is also the shift amount of the shift-immediates (R105). -/
def rs2Of (w : Word) : RegNum := w.extractLsb' 20 5

/-- `inst[31:25]` (R92). -/
def funct7Of (w : Word) : BitVec 7 := w.extractLsb' 25 7

/-- The 12 bits of the I-immediate, `inst[31:20]` (R94, R100). -/
def immIOf (w : Word) : BitVec 12 := w.extractLsb' 20 12

/-- The 12 bits of the S-immediate, `inst[31:25]` above `inst[11:7]` (R95, R101). -/
def immSOf (w : Word) : BitVec 12 := w.extractLsb' 25 7 ++ w.extractLsb' 7 5

/-- The 13 bits of the B-immediate; bit 0 is 0 (R96, R102). -/
def immBOf (w : Word) : BitVec 13 :=
  w.extractLsb' 31 1 ++ w.extractLsb' 7 1 ++ w.extractLsb' 25 6 ++ w.extractLsb' 8 4 ++ 0#1

/-- The 20 bits of the U-immediate, `inst[31:12]` (R97, R103). -/
def immUOf (w : Word) : BitVec 20 := w.extractLsb' 12 20

/-- The 21 bits of the J-immediate; bit 0 is 0 (R98, R104). -/
def immJOf (w : Word) : BitVec 21 :=
  w.extractLsb' 31 1 ++ w.extractLsb' 12 8 ++ w.extractLsb' 20 1 ++ w.extractLsb' 21 10 ++ 0#1

/-- FENCE's `fm`, `inst[31:28]` (R106). -/
def fmOf (w : Word) : BitVec 4 := w.extractLsb' 28 4

/-- FENCE's `pred`, `inst[27:24]` (R106). -/
def predOf (w : Word) : BitVec 4 := w.extractLsb' 24 4

/-- FENCE's `succ`, `inst[23:20]` (R106). -/
def succOf (w : Word) : BitVec 4 := w.extractLsb' 20 4

/-! ### The decoder -/

/-- Why a word is no RV32I instruction. The machine raises the same `IllegalInstruction` for all of them (R117). -/
inductive Illegal where
  /-- `inst[1:0]` is not 11: the space of 16-bit instructions (R122) -/
  | compressedLength
  /-- `inst[4:2]` is 111: the space of instructions longer than 32 bits (R122) -/
  | longLength
  /-- a major opcode marked custom (R121) -/
  | customOpcode
  /-- a major opcode marked reserved (R121) -/
  | reservedOpcode
  /-- a major opcode of another standard module (R123) -/
  | foreignOpcode
  /-- an RV32I major opcode with minor opcode bits that no row of the table has (R118) -/
  | unassignedMinor
  /-- fewer than four bytes to decode -/
  | truncated
  deriving DecidableEq, Repr, Inhabited

/-- Minor opcodes of LOAD (R113). -/
def decodeLoad (w : Word) : Except Illegal Instr :=
  match funct3Of w with
  | 0b000#3 => .ok (.lb (rdOf w) (rs1Of w) (immIOf w))
  | 0b001#3 => .ok (.lh (rdOf w) (rs1Of w) (immIOf w))
  | 0b010#3 => .ok (.lw (rdOf w) (rs1Of w) (immIOf w))
  | 0b100#3 => .ok (.lbu (rdOf w) (rs1Of w) (immIOf w))
  | 0b101#3 => .ok (.lhu (rdOf w) (rs1Of w) (immIOf w))
  | _ => .error .unassignedMinor

/-- Minor opcodes of STORE (R113). -/
def decodeStore (w : Word) : Except Illegal Instr :=
  match funct3Of w with
  | 0b000#3 => .ok (.sb (rs1Of w) (rs2Of w) (immSOf w))
  | 0b001#3 => .ok (.sh (rs1Of w) (rs2Of w) (immSOf w))
  | 0b010#3 => .ok (.sw (rs1Of w) (rs2Of w) (immSOf w))
  | _ => .error .unassignedMinor

/-- Minor opcodes of BRANCH (R113). -/
def decodeBranch (w : Word) : Except Illegal Instr :=
  match funct3Of w with
  | 0b000#3 => .ok (.beq (rs1Of w) (rs2Of w) (immBOf w))
  | 0b001#3 => .ok (.bne (rs1Of w) (rs2Of w) (immBOf w))
  | 0b100#3 => .ok (.blt (rs1Of w) (rs2Of w) (immBOf w))
  | 0b101#3 => .ok (.bge (rs1Of w) (rs2Of w) (immBOf w))
  | 0b110#3 => .ok (.bltu (rs1Of w) (rs2Of w) (immBOf w))
  | 0b111#3 => .ok (.bgeu (rs1Of w) (rs2Of w) (immBOf w))
  | _ => .error .unassignedMinor

/-- Minor opcodes of OP-IMM (R113); the shifts also need `inst[31:25]` (R105). -/
def decodeOpImm (w : Word) : Except Illegal Instr :=
  match funct3Of w with
  | 0b000#3 => .ok (.addi (rdOf w) (rs1Of w) (immIOf w))
  | 0b010#3 => .ok (.slti (rdOf w) (rs1Of w) (immIOf w))
  | 0b011#3 => .ok (.sltiu (rdOf w) (rs1Of w) (immIOf w))
  | 0b100#3 => .ok (.xori (rdOf w) (rs1Of w) (immIOf w))
  | 0b110#3 => .ok (.ori (rdOf w) (rs1Of w) (immIOf w))
  | 0b111#3 => .ok (.andi (rdOf w) (rs1Of w) (immIOf w))
  | 0b001#3 =>
    match funct7Of w with
    | 0b0000000#7 => .ok (.slli (rdOf w) (rs1Of w) (rs2Of w))
    | _ => .error .unassignedMinor
  | 0b101#3 =>
    match funct7Of w with
    | 0b0000000#7 => .ok (.srli (rdOf w) (rs1Of w) (rs2Of w))
    | 0b0100000#7 => .ok (.srai (rdOf w) (rs1Of w) (rs2Of w))
    | _ => .error .unassignedMinor
  | _ => .error .unassignedMinor

/-- Minor opcodes of OP (R113). -/
def decodeOp (w : Word) : Except Illegal Instr :=
  match funct7Of w with
  | 0b0000000#7 =>
    match funct3Of w with
    | 0b000#3 => .ok (.add (rdOf w) (rs1Of w) (rs2Of w))
    | 0b001#3 => .ok (.sll (rdOf w) (rs1Of w) (rs2Of w))
    | 0b010#3 => .ok (.slt (rdOf w) (rs1Of w) (rs2Of w))
    | 0b011#3 => .ok (.sltu (rdOf w) (rs1Of w) (rs2Of w))
    | 0b100#3 => .ok (.xor (rdOf w) (rs1Of w) (rs2Of w))
    | 0b101#3 => .ok (.srl (rdOf w) (rs1Of w) (rs2Of w))
    | 0b110#3 => .ok (.or (rdOf w) (rs1Of w) (rs2Of w))
    | 0b111#3 => .ok (.and (rdOf w) (rs1Of w) (rs2Of w))
    | _ => .error .unassignedMinor
  | 0b0100000#7 =>
    match funct3Of w with
    | 0b000#3 => .ok (.sub (rdOf w) (rs1Of w) (rs2Of w))
    | 0b101#3 => .ok (.sra (rdOf w) (rs1Of w) (rs2Of w))
    | _ => .error .unassignedMinor
  | _ => .error .unassignedMinor

/-- MISC-MEM: the two exact words first, then FENCE with any other field values (R113, R116, R124). -/
def decodeMiscMem (w : Word) : Except Illegal Instr :=
  match funct3Of w with
  | 0b000#3 =>
    if w = 0x8330000F#32 then .ok .fenceTso
    else if w = 0x0100000F#32 then .ok .pause
    else .ok (.fence (fmOf w) (predOf w) (succOf w) (rs1Of w) (rdOf w))
  | _ => .error .unassignedMinor

/-- SYSTEM holds two whole words (R107, R113, R255). -/
def decodeSystem (w : Word) : Except Illegal Instr :=
  if w = 0x00000073#32 then .ok .ecall
  else if w = 0x00100073#32 then .ok .ebreak
  else .error .unassignedMinor

/-- Which of the other cells of the major opcode map a word lies in (R110, R121 to R123). -/
def illegalOpcode (opcode : BitVec 7) : Illegal :=
  if opcode.extractLsb' 0 2 ≠ 0b11#2 then .compressedLength
  else if opcode.extractLsb' 2 3 = 0b111#3 then .longLength
  else match opcode with
  | 0b0001011#7 => .customOpcode
  | 0b0101011#7 => .customOpcode
  | 0b1011011#7 => .customOpcode
  | 0b1111011#7 => .customOpcode
  | 0b1010111#7 => .reservedOpcode
  | 0b1101011#7 => .reservedOpcode
  | 0b1110111#7 => .reservedOpcode
  | _ => .foreignOpcode

/-- `decode(w)`: the instruction a word stands for, or why it stands for none (R115, by the tables of R111 and R113). -/
def decode (w : Word) : Except Illegal Instr :=
  match opcodeOf w with
  | 0b0110111#7 => .ok (.lui (rdOf w) (immUOf w))
  | 0b0010111#7 => .ok (.auipc (rdOf w) (immUOf w))
  | 0b1101111#7 => .ok (.jal (rdOf w) (immJOf w))
  | 0b1100111#7 =>
    match funct3Of w with
    | 0b000#3 => .ok (.jalr (rdOf w) (rs1Of w) (immIOf w))
    | _ => .error .unassignedMinor
  | 0b1100011#7 => decodeBranch w
  | 0b0000011#7 => decodeLoad w
  | 0b0100011#7 => decodeStore w
  | 0b0010011#7 => decodeOpImm w
  | 0b0110011#7 => decodeOp w
  | 0b0001111#7 => decodeMiscMem w
  | 0b1110011#7 => decodeSystem w
  | other => .error (illegalOpcode other)

/-! ### Byte order (R51, R67) -/

/-- The little-endian value of a list of bytes, the byte at the lowest address first (R51). -/
def leValue (bytes : List Byte) : Word :=
  match bytes with
  | [] => 0
  | b :: rest => (leValue rest <<< 8) ||| b.setWidth 32

/-- The `n` low bytes of a value, the byte for the lowest address first (R51). -/
def leBytes (v : Word) (n : Nat) : List Byte :=
  match n with
  | 0 => []
  | k + 1 => v.setWidth 8 :: leBytes (v >>> 8) k

/-- Decode the first four bytes of a list, little-endian (R67, R90). -/
def decodeBytes (bytes : List Byte) : Except Illegal Instr :=
  match bytes with
  | b0 :: b1 :: b2 :: b3 :: _ => decode (leValue [b0, b1, b2, b3])
  | _ => .error .truncated

/-- The instruction the decoder reads from the instruction whose bits are `w`: its four bytes as memory holds them, decoded. -/
def decodeTableWord (nbits w : Nat) : Option Instr :=
  match decodeBytes (leBytes (BitVec.ofNat 32 (w % 2 ^ nbits)) 4) with
  | .ok i => some i
  | .error _ => none

/-! ### The encoder (R93 to R98, R105 to R108) -/

/-- R-type layout (R93). -/
def encR (funct7 : BitVec 7) (rs2 rs1 : RegNum) (funct3 : BitVec 3) (rd : RegNum) (opcode : BitVec 7) : Word :=
  funct7 ++ rs2 ++ rs1 ++ funct3 ++ rd ++ opcode

/-- I-type layout (R94). -/
def encI (imm : BitVec 12) (rs1 : RegNum) (funct3 : BitVec 3) (rd : RegNum) (opcode : BitVec 7) : Word :=
  imm ++ rs1 ++ funct3 ++ rd ++ opcode

/-- S-type layout (R95). -/
def encS (imm : BitVec 12) (rs2 rs1 : RegNum) (funct3 : BitVec 3) (opcode : BitVec 7) : Word :=
  imm.extractLsb' 5 7 ++ rs2 ++ rs1 ++ funct3 ++ imm.extractLsb' 0 5 ++ opcode

/-- B-type layout (R96); bit 0 of the offset has no place in the word. -/
def encB (offset : BitVec 13) (rs2 rs1 : RegNum) (funct3 : BitVec 3) (opcode : BitVec 7) : Word :=
  offset.extractLsb' 12 1 ++ offset.extractLsb' 5 6 ++ rs2 ++ rs1 ++ funct3 ++ offset.extractLsb' 1 4
    ++ offset.extractLsb' 11 1 ++ opcode

/-- U-type layout (R97). -/
def encU (imm20 : BitVec 20) (rd : RegNum) (opcode : BitVec 7) : Word :=
  imm20 ++ rd ++ opcode

/-- J-type layout (R98); bit 0 of the offset has no place in the word. -/
def encJ (offset : BitVec 21) (rd : RegNum) (opcode : BitVec 7) : Word :=
  offset.extractLsb' 20 1 ++ offset.extractLsb' 1 10 ++ offset.extractLsb' 11 1 ++ offset.extractLsb' 12 8 ++ rd ++ opcode

/-- FENCE's layout (R106). -/
def encFence (fm pred succ : BitVec 4) (rs1 rd : RegNum) : Word :=
  fm ++ pred ++ succ ++ rs1 ++ 0b000#3 ++ rd ++ 0b0001111#7

/-- The word of an instruction (R108, R112). -/
def encode (i : Instr) : Word :=
  match i with
  | .lui rd imm20 => encU imm20 rd 0b0110111
  | .auipc rd imm20 => encU imm20 rd 0b0010111
  | .jal rd offset => encJ offset rd 0b1101111
  | .jalr rd rs1 imm => encI imm rs1 0b000 rd 0b1100111
  | .beq rs1 rs2 offset => encB offset rs2 rs1 0b000 0b1100011
  | .bne rs1 rs2 offset => encB offset rs2 rs1 0b001 0b1100011
  | .blt rs1 rs2 offset => encB offset rs2 rs1 0b100 0b1100011
  | .bge rs1 rs2 offset => encB offset rs2 rs1 0b101 0b1100011
  | .bltu rs1 rs2 offset => encB offset rs2 rs1 0b110 0b1100011
  | .bgeu rs1 rs2 offset => encB offset rs2 rs1 0b111 0b1100011
  | .lb rd rs1 imm => encI imm rs1 0b000 rd 0b0000011
  | .lh rd rs1 imm => encI imm rs1 0b001 rd 0b0000011
  | .lw rd rs1 imm => encI imm rs1 0b010 rd 0b0000011
  | .lbu rd rs1 imm => encI imm rs1 0b100 rd 0b0000011
  | .lhu rd rs1 imm => encI imm rs1 0b101 rd 0b0000011
  | .sb rs1 rs2 imm => encS imm rs2 rs1 0b000 0b0100011
  | .sh rs1 rs2 imm => encS imm rs2 rs1 0b001 0b0100011
  | .sw rs1 rs2 imm => encS imm rs2 rs1 0b010 0b0100011
  | .addi rd rs1 imm => encI imm rs1 0b000 rd 0b0010011
  | .slti rd rs1 imm => encI imm rs1 0b010 rd 0b0010011
  | .sltiu rd rs1 imm => encI imm rs1 0b011 rd 0b0010011
  | .xori rd rs1 imm => encI imm rs1 0b100 rd 0b0010011
  | .ori rd rs1 imm => encI imm rs1 0b110 rd 0b0010011
  | .andi rd rs1 imm => encI imm rs1 0b111 rd 0b0010011
  | .slli rd rs1 shamt => encR 0b0000000 shamt rs1 0b001 rd 0b0010011
  | .srli rd rs1 shamt => encR 0b0000000 shamt rs1 0b101 rd 0b0010011
  | .srai rd rs1 shamt => encR 0b0100000 shamt rs1 0b101 rd 0b0010011
  | .add rd rs1 rs2 => encR 0b0000000 rs2 rs1 0b000 rd 0b0110011
  | .sub rd rs1 rs2 => encR 0b0100000 rs2 rs1 0b000 rd 0b0110011
  | .sll rd rs1 rs2 => encR 0b0000000 rs2 rs1 0b001 rd 0b0110011
  | .slt rd rs1 rs2 => encR 0b0000000 rs2 rs1 0b010 rd 0b0110011
  | .sltu rd rs1 rs2 => encR 0b0000000 rs2 rs1 0b011 rd 0b0110011
  | .xor rd rs1 rs2 => encR 0b0000000 rs2 rs1 0b100 rd 0b0110011
  | .srl rd rs1 rs2 => encR 0b0000000 rs2 rs1 0b101 rd 0b0110011
  | .sra rd rs1 rs2 => encR 0b0100000 rs2 rs1 0b101 rd 0b0110011
  | .or rd rs1 rs2 => encR 0b0000000 rs2 rs1 0b110 rd 0b0110011
  | .and rd rs1 rs2 => encR 0b0000000 rs2 rs1 0b111 rd 0b0110011
  | .fence fm pred succ rs1 rd => encFence fm pred succ rs1 rd
  | .fenceTso => 0x8330000F
  | .pause => 0x0100000F
  | .ecall => 0x00000073
  | .ebreak => 0x00100073

/-! ### The opcode table as mask and match rows (R112) -/

/-- One row of R112: a word is the instruction when `w &&& mask = pattern`. -/
structure OpcodeRow where
  mnemonic : String
  pattern : Word
  mask : Word
  deriving DecidableEq, Repr, Inhabited

/-- A word matches a row (R112). -/
def OpcodeRow.matchesWord (r : OpcodeRow) (w : Word) : Bool := w &&& r.mask == r.pattern

/-- Rows of the U, J, I, S and B formats outside the shifts (R112). -/
def opcodeRowsMajor : List OpcodeRow :=
  [⟨"LUI", 0x00000037, 0x0000007F⟩, ⟨"AUIPC", 0x00000017, 0x0000007F⟩, ⟨"JAL", 0x0000006F, 0x0000007F⟩,
   ⟨"JALR", 0x00000067, 0x0000707F⟩, ⟨"BEQ", 0x00000063, 0x0000707F⟩, ⟨"BNE", 0x00001063, 0x0000707F⟩,
   ⟨"BLT", 0x00004063, 0x0000707F⟩, ⟨"BGE", 0x00005063, 0x0000707F⟩, ⟨"BLTU", 0x00006063, 0x0000707F⟩,
   ⟨"BGEU", 0x00007063, 0x0000707F⟩, ⟨"LB", 0x00000003, 0x0000707F⟩, ⟨"LH", 0x00001003, 0x0000707F⟩,
   ⟨"LW", 0x00002003, 0x0000707F⟩, ⟨"LBU", 0x00004003, 0x0000707F⟩, ⟨"LHU", 0x00005003, 0x0000707F⟩,
   ⟨"SB", 0x00000023, 0x0000707F⟩, ⟨"SH", 0x00001023, 0x0000707F⟩, ⟨"SW", 0x00002023, 0x0000707F⟩,
   ⟨"ADDI", 0x00000013, 0x0000707F⟩, ⟨"SLTI", 0x00002013, 0x0000707F⟩, ⟨"SLTIU", 0x00003013, 0x0000707F⟩,
   ⟨"XORI", 0x00004013, 0x0000707F⟩, ⟨"ORI", 0x00006013, 0x0000707F⟩, ⟨"ANDI", 0x00007013, 0x0000707F⟩]

/-- Rows of the shifts, of OP, of MISC-MEM and of SYSTEM (R112). -/
def opcodeRowsMinor : List OpcodeRow :=
  [⟨"SLLI", 0x00001013, 0xFE00707F⟩, ⟨"SRLI", 0x00005013, 0xFE00707F⟩, ⟨"SRAI", 0x40005013, 0xFE00707F⟩,
   ⟨"ADD", 0x00000033, 0xFE00707F⟩, ⟨"SUB", 0x40000033, 0xFE00707F⟩, ⟨"SLL", 0x00001033, 0xFE00707F⟩,
   ⟨"SLT", 0x00002033, 0xFE00707F⟩, ⟨"SLTU", 0x00003033, 0xFE00707F⟩, ⟨"XOR", 0x00004033, 0xFE00707F⟩,
   ⟨"SRL", 0x00005033, 0xFE00707F⟩, ⟨"SRA", 0x40005033, 0xFE00707F⟩, ⟨"OR", 0x00006033, 0xFE00707F⟩,
   ⟨"AND", 0x00007033, 0xFE00707F⟩, ⟨"FENCE", 0x0000000F, 0x0000707F⟩, ⟨"FENCE.TSO", 0x8330000F, 0xFFFFFFFF⟩,
   ⟨"PAUSE", 0x0100000F, 0xFFFFFFFF⟩, ⟨"ECALL", 0x00000073, 0xFFFFFFFF⟩, ⟨"EBREAK", 0x00100073, 0xFFFFFFFF⟩]

/-- The 42 rows of R112. -/
def opcodeRows : List OpcodeRow := opcodeRowsMajor ++ opcodeRowsMinor

/-- An instruction's mnemonic as the table spells it (R112). -/
def Instr.mnemonic (i : Instr) : String :=
  match i with
  | .lui _ _ => "LUI"
  | .auipc _ _ => "AUIPC"
  | .jal _ _ => "JAL"
  | .jalr _ _ _ => "JALR"
  | .beq _ _ _ => "BEQ"
  | .bne _ _ _ => "BNE"
  | .blt _ _ _ => "BLT"
  | .bge _ _ _ => "BGE"
  | .bltu _ _ _ => "BLTU"
  | .bgeu _ _ _ => "BGEU"
  | .lb _ _ _ => "LB"
  | .lh _ _ _ => "LH"
  | .lw _ _ _ => "LW"
  | .lbu _ _ _ => "LBU"
  | .lhu _ _ _ => "LHU"
  | .sb _ _ _ => "SB"
  | .sh _ _ _ => "SH"
  | .sw _ _ _ => "SW"
  | .addi _ _ _ => "ADDI"
  | .slti _ _ _ => "SLTI"
  | .sltiu _ _ _ => "SLTIU"
  | .xori _ _ _ => "XORI"
  | .ori _ _ _ => "ORI"
  | .andi _ _ _ => "ANDI"
  | .slli _ _ _ => "SLLI"
  | .srli _ _ _ => "SRLI"
  | .srai _ _ _ => "SRAI"
  | .add _ _ _ => "ADD"
  | .sub _ _ _ => "SUB"
  | .sll _ _ _ => "SLL"
  | .slt _ _ _ => "SLT"
  | .sltu _ _ _ => "SLTU"
  | .xor _ _ _ => "XOR"
  | .srl _ _ _ => "SRL"
  | .sra _ _ _ => "SRA"
  | .or _ _ _ => "OR"
  | .and _ _ _ => "AND"
  | .fence _ _ _ _ _ => "FENCE"
  | .fenceTso => "FENCE.TSO"
  | .pause => "PAUSE"
  | .ecall => "ECALL"
  | .ebreak => "EBREAK"

end Sys2Proof
end

