-- ==== Sys2Proof/Config.lean ====
section
/-! DEFINITION. What the execution environment (the EEI) and an implementation decide: the parameters of 00_scope.md rule R5
as plain data a claim can quantify over, the exceptions and the trap record the environment is handed, and the free values
(opaque constants: nothing can be proved of their values). -/

namespace Sys2Proof

/-- XLEN, the width of an x register in bits (R3, R5). -/
def Config.xlen : Nat := 32

/-- ILEN, the length of an instruction in bits (R5, R90). -/
def Config.ilen : Nat := 32

/-- IALIGN, the alignment of an instruction address in bits (R5, R66). -/
def Config.ialign : Nat := 32

/-- NUM_HARTS, the number of agents that execute instructions (R4, R5). -/
def Config.numHarts : Nat := 1

/-! ### Accesses and the parameter `MEM_MAP` (R59) -/

/-- The kind of an access (R59). -/
inductive AccessKind where
  | fetch
  | load
  | store
  deriving DecidableEq, Repr, Inhabited

/-- The width of an access: 1, 2 or 4 bytes (R54). -/
inductive Width where
  | byte
  | half
  | word
  deriving DecidableEq, Repr, Inhabited

/-- The addresses `first` to `last`, both included. -/
structure AddrRange where
  first : Word
  last : Word
  deriving DecidableEq, Repr, Inhabited

/-- One line of `MEM_MAP`: what the environment answers for these addresses, kinds and widths (R59). -/
structure MapRule where
  range : AddrRange
  kinds : List AccessKind
  widths : List Width
  allow : Bool
  deriving DecidableEq, Repr, Inhabited

/-- `MEM_MAP(address, kind, width)` as plain data (R5, R59): the first line that speaks of the address, kind and width
decides, an access no line speaks of is denied, and `devices` are the addresses that are device, not ordinary memory. Since
the address space is finite, every map of the spec is such a list. -/
structure MemMap where
  rules : List MapRule
  devices : List AddrRange
  deriving DecidableEq, Repr, Inhabited

/-- `MISALIGNED_POLICY` (R58). -/
inductive MisalignedPolicy where
  /-- every load or store that is not naturally aligned raises its address-misaligned exception -/
  | trap
  /-- such an access is carried out byte by byte -/
  | support
  deriving DecidableEq, Repr, Inhabited

/-- `ON_TRAP` (R5, R313, R314): fatal, or a handler function. State is plain data and holds only which of the two it is; the
function itself is the argument of `stepUnder` (Machine/Environment.lean), and `step` is `stepUnder` of the free handler
`State.resume`. -/
inductive OnTrap where
  /-- the run ends with the trap record; the spec's choice -/
  | fatal
  /-- the environment attaches a handler, which gives the state the run goes on in -/
  | handler
  deriving DecidableEq, Repr, Inhabited

/-- `CAUSE_CODE` (R5, R303): a number for each of the nine exception names, so a function from names to numbers as plain
data (`CauseCodes.codeOf`). -/
structure CauseCodes where
  instructionAddressMisaligned : Nat
  instructionAccessFault : Nat
  illegalInstruction : Nat
  breakpoint : Nat
  loadAddressMisaligned : Nat
  loadAccessFault : Nat
  storeAddressMisaligned : Nat
  storeAccessFault : Nat
  environmentCall : Nat
  deriving DecidableEq, Repr, Inhabited

/-- The parameters of the step that the execution environment fixes for a whole run (R5, R20). `causeCodes` is `none` in an
environment that wants no numbers: the model identifies an exception by its name (R303). -/
structure Eei where
  memMap : MemMap
  misaligned : MisalignedPolicy
  onTrap : OnTrap
  causeCodes : Option CauseCodes
  deriving DecidableEq, Repr, Inhabited

/-- The map of the spec's own vectors: every access of every kind and width allowed at every address, all of it ordinary
memory (R62; 95_test_vectors.md, conventions). -/
def MemMap.everything : MemMap :=
  { rules := [{ range := { first := 0, last := 0xFFFFFFFF }, kinds := [.fetch, .load, .store],
                widths := [.byte, .half, .word], allow := true }],
    devices := [] }

/-- The spec's defaults (R5): the map above, policy `trap`, every trap fatal; `CAUSE_CODE` is open, and here no number is given
(log entry 9). -/
def Eei.default : Eei :=
  { memMap := MemMap.everything, misaligned := .trap, onTrap := .fatal, causeCodes := none }

/-! ### Exceptions and the trap record (R300, R311) -/

/-- The nine exceptions by name (R300). -/
inductive ExceptionName where
  | instructionAddressMisaligned
  | instructionAccessFault
  | illegalInstruction
  | breakpoint
  | loadAddressMisaligned
  | loadAccessFault
  | storeAddressMisaligned
  | storeAccessFault
  | environmentCall
  deriving DecidableEq, Repr, Inhabited

/-- An exception with what it carries (R300). -/
inductive Exception where
  /-- a jump or taken branch to `target`, which is no multiple of 4 (R181) -/
  | instructionAddressMisaligned (target : Word)
  /-- a fetch from `addr`, which `MEM_MAP` denies (R68) -/
  | instructionAccessFault (addr : Word)
  /-- the fetched word is no RV32I instruction (R302) -/
  | illegalInstruction (inst : Word)
  /-- EBREAK at `addr` (R257) -/
  | breakpoint (addr : Word)
  /-- a load from `addr`, not naturally aligned, under policy `trap` (R56) -/
  | loadAddressMisaligned (addr : Word)
  /-- a load from `addr`, of which `MEM_MAP` denies a byte (R56) -/
  | loadAccessFault (addr : Word)
  /-- a store to `addr`, not naturally aligned, under policy `trap` (R57) -/
  | storeAddressMisaligned (addr : Word)
  /-- a store to `addr`, of which `MEM_MAP` denies a byte (R57) -/
  | storeAccessFault (addr : Word)
  /-- ECALL (R256) -/
  | environmentCall
  deriving DecidableEq, Repr, Inhabited

/-- The trap record `(E, pc, info)` that a trap hands to the execution environment (R311). -/
structure TrapRecord where
  name : ExceptionName
  pc : Word
  info : Word
  deriving DecidableEq, Repr, Inhabited

/-- What an environment's handler answers when `ON_TRAP` is a handler: the registers x1 to x31, the pc as a word index (so that
it is a multiple of 4, R29) and the memory bytes the handler changed. -/
structure Resume where
  regs : Vector Word 31
  pcIndex : BitVec 30
  writes : List (Word × Byte)
  deriving DecidableEq, Repr, Inhabited

/-! ### The parameters that fix the initial state (R350) -/

/-- `RESET_PC`, `INIT_REGS`, `INIT_MEM` and the environment's parameters (R5, R40 to R42, R350). `initMem` lists bytes in the
memory's canonical form. -/
structure ResetParams where
  resetPc : Word
  initRegs : Vector Word 31
  initMem : List Host.Cell
  eei : Eei
  deriving DecidableEq, Repr, Inhabited

/-- The byte that an address the memory does not list holds. DESIGN CHOICE (log entry 3), unsafe. -/
def Config.unlistedByte : Byte := 0

/-- The parameters behind `State.reset`. `resetPc` is the address of the spec's own programs; registers and memory are zero.
DESIGN CHOICE (log entries 1, 2 and 3), unsafe: the spec leaves all three open. -/
def ResetParams.default : ResetParams :=
  { resetPc := 0x00001000, initRegs := Vector.replicate 31 0, initMem := [], eei := Eei.default }

/-! ### Free values: opaque constants, each applied to the machine's draw counter (log entries 6, 7 and 8) -/

/-- The byte a device answers at the n-th draw (R77: "a free input (a draw)"). -/
opaque Config.deviceByte : Nat → Byte

/-- The order in which the bytes of a misaligned access reach a device, as the number of a permutation (R61: "in any order"). -/
opaque Config.byteOrder : Nat → Nat

/-- The free handler that `step` attaches where `ON_TRAP` is a handler (R314): from the draw counter, the registers, the pc, the
memory and the trap record to the state it resumes in. -/
opaque Config.onTrap : Nat → Vector Word 31 → Word → List Host.Cell → TrapRecord → Resume

end Sys2Proof
end

