-- ==== Sys2Proof/Machine/State.lean ====
section
/-! DEFINITION. The machine's state as plain data, its faults and refusals, and the state after reset (R20, R312, R350). -/

namespace Sys2Proof.Machine

/-- The bytes of the address space that do not hold `Config.unlistedByte`, addresses strictly rising (R33, R50; `Memory.wf`). -/
abbrev Memory := List Host.Cell

/-- One access of the hart to a device, as the environment sees it (D30 of 92_eei_decisions.md: "each access as an externally
visible event"). -/
structure DeviceEvent where
  kind : AccessKind
  addr : Word
  width : Width
  /-- the value drawn for a load or fetch, the value written by a store -/
  value : Word
  deriving DecidableEq, Repr, Inhabited

/-- The state of the machine.

`regs`, `pc` and `mem` are the architectural state of R20. `written` is the set of R74 and R350. `eei` holds the parameters of
the step (R5, R20), which no step changes. `draws` and `events` are the model's own: the counter every free value is applied
to, and the accesses to devices that the environment has seen, oldest first (R77, D30). -/
structure State where
  /-- x1 to x31, x1 first; x0 is a constant and has no place (R20, R22) -/
  regs : Vector Word 31
  /-- the program counter (R26) -/
  pc : Word
  /-- the memory (R33) -/
  mem : Memory
  /-- the addresses stored to in this run, strictly rising (R74, R350) -/
  written : List Nat
  /-- the environment's parameters (R5) -/
  eei : Eei
  /-- how many free values have been drawn -/
  draws : Nat
  /-- the accesses to devices so far -/
  events : List DeviceEvent
  deriving DecidableEq, Repr, Inhabited

/-- Why the machine stops with a fault. -/
inductive Fault where
  /-- The outcome `Trap(E, pc, info)` of R312: raised by any instruction, by its fetch or by its decoding, as R304 lists, when
  `ON_TRAP` is fatal. It is what the spec gives the step; the state is the one before the step (R306, R310). Safe. -/
  | trap (record : TrapRecord)
  deriving DecidableEq, Repr, Inhabited

/-- Why the model gives a step no meaning. -/
inductive Refusal where
  /-- An arm of `exec` whose instruction has no meaning yet. No arm answers it. Safe. -/
  | notModelled (mnemonic : String)
  /-- The outcome `Refuse` of R312: the fetch at `pc` touches a byte that a store of this run has written (R65, R74, R362).
  Raised by the fetch alone. Safe. -/
  | fetchOfStoredBytes (pc : Word)
  deriving DecidableEq, Repr, Inhabited

/-- The outcome of a step of the machine (R312). -/
abbrev StepOutcome := Host.Outcome State Fault Refusal

/-- What `Fetch(pc)` answers (R65). -/
inductive FetchOutcome where
  /-- the instruction word, and the state after the fetch (which differs only where the word comes from a device) -/
  | word (inst : Word) (s : State)
  /-- the fetch raises -/
  | raised (e : Exception)
  /-- a byte of the word was written by a store of this run -/
  | refused
  deriving DecidableEq, Repr, Inhabited

/-- The reset procedure for given parameters (R350): nothing stored to yet, nothing drawn yet. -/
def State.boot (p : ResetParams) : State :=
  { regs := p.initRegs, pc := p.resetPc, mem := p.initMem, written := [], eei := p.eei, draws := 0, events := [] }

/-- The machine right after reset, at the parameters the log names (log entries 1 to 5). -/
def State.reset : State := State.boot ResetParams.default

end Sys2Proof.Machine
end

