-- ==== Sys2Proof/Machine/Ops.lean ====
section
/-! DEFINITION. The named operations over memory, registers, the environment's map and devices; taking an exception; the fetch.
RV32I has no instruction that returns from an exception (R315): under `ON_TRAP = handler` the return is `State.resume`, the
environment's handler giving the state the run goes on in (R314). -/

namespace Sys2Proof

/-! ### Widths and `MEM_MAP` (R54, R59) -/

/-- The number of bytes of an access (R54). -/
def Width.bytes (n : Width) : Nat :=
  match n with
  | .byte => 1
  | .half => 2
  | .word => 4

/-- An address lies in a range. -/
def AddrRange.has (r : AddrRange) (a : Nat) : Bool := decide (r.first.toNat ≤ a) && decide (a ≤ r.last.toNat)

/-- A line of the map speaks of an address, kind and width. -/
def MapRule.speaksOf (r : MapRule) (a : Nat) (kind : AccessKind) (n : Width) : Bool :=
  r.range.has a && decide (kind ∈ r.kinds) && decide (n ∈ r.widths)

/-- What the first line that speaks of the access answers; deny where none does (R59). -/
def rulesAllow (rules : List MapRule) (a : Nat) (kind : AccessKind) (n : Width) : Bool :=
  match rules with
  | [] => false
  | r :: rest => if r.speaksOf a kind n then r.allow else rulesAllow rest a kind n

/-- `MEM_MAP(address, kind, width)` (R59). -/
def MemMap.allows (m : MemMap) (a : Nat) (kind : AccessKind) (n : Width) : Bool := rulesAllow m.rules a kind n

/-- The address is marked as device (R5, R62). -/
def MemMap.isDevice (m : MemMap) (a : Nat) : Bool := m.devices.any (fun r => r.has a)

/-! ### Exceptions and trap records (R300, R311) -/

/-- The name of an exception (R300). -/
def Exception.name (e : Exception) : ExceptionName :=
  match e with
  | .instructionAddressMisaligned _ => .instructionAddressMisaligned
  | .instructionAccessFault _ => .instructionAccessFault
  | .illegalInstruction _ => .illegalInstruction
  | .breakpoint _ => .breakpoint
  | .loadAddressMisaligned _ => .loadAddressMisaligned
  | .loadAccessFault _ => .loadAccessFault
  | .storeAddressMisaligned _ => .storeAddressMisaligned
  | .storeAccessFault _ => .storeAccessFault
  | .environmentCall => .environmentCall

/-- The value an exception carries; 0 for `EnvironmentCall` (R300, R311). -/
def Exception.info (e : Exception) : Word :=
  match e with
  | .instructionAddressMisaligned t => t
  | .instructionAccessFault a => a
  | .illegalInstruction w => w
  | .breakpoint a => a
  | .loadAddressMisaligned a => a
  | .loadAccessFault a => a
  | .storeAddressMisaligned a => a
  | .storeAccessFault a => a
  | .environmentCall => 0

/-- The trap record of an exception raised by the instruction at `pc` (R311). -/
def trapRecord (e : Exception) (pc : Word) : TrapRecord := { name := e.name, pc := pc, info := e.info }

/-- `CAUSE_CODE` of an exception name (R5, R303). -/
def CauseCodes.codeOf (c : CauseCodes) (e : ExceptionName) : Nat :=
  match e with
  | .instructionAddressMisaligned => c.instructionAddressMisaligned
  | .instructionAccessFault => c.instructionAccessFault
  | .illegalInstruction => c.illegalInstruction
  | .breakpoint => c.breakpoint
  | .loadAddressMisaligned => c.loadAddressMisaligned
  | .loadAccessFault => c.loadAccessFault
  | .storeAddressMisaligned => c.storeAddressMisaligned
  | .storeAccessFault => c.storeAccessFault
  | .environmentCall => c.environmentCall

/-- The cause codes that a function from exception names to numbers gives; every such function has them. -/
def CauseCodes.ofFunction (f : ExceptionName → Nat) : CauseCodes :=
  { instructionAddressMisaligned := f .instructionAddressMisaligned, instructionAccessFault := f .instructionAccessFault,
    illegalInstruction := f .illegalInstruction, breakpoint := f .breakpoint,
    loadAddressMisaligned := f .loadAddressMisaligned, loadAccessFault := f .loadAccessFault,
    storeAddressMisaligned := f .storeAddressMisaligned, storeAccessFault := f .storeAccessFault,
    environmentCall := f .environmentCall }

/-- The cause numbers that R303 records from general knowledge; `EnvironmentCall` has none there that the sources decide. -/
def usualCauseCode (e : ExceptionName) : Option Nat :=
  match e with
  | .instructionAddressMisaligned => some 0
  | .instructionAccessFault => some 1
  | .illegalInstruction => some 2
  | .breakpoint => some 3
  | .loadAddressMisaligned => some 4
  | .loadAccessFault => some 5
  | .storeAddressMisaligned => some 6
  | .storeAccessFault => some 7
  | .environmentCall => none

end Sys2Proof

namespace Sys2Proof.Machine

/-! ### Memory as a canonical list of bytes (R33, R50) -/

/-- The byte at an address (R50); an address the list does not hold reads as `Config.unlistedByte`. -/
def Memory.read (m : Memory) (a : Nat) : Byte :=
  match m with
  | [] => Config.unlistedByte
  | (k, v) :: rest => if k = a then v else Memory.read rest a

/-- Set the byte at an address, keeping the list canonical: no entry holds what an unlisted address reads as. -/
def Memory.write (m : Memory) (a : Nat) (v : Byte) : Memory :=
  match m with
  | [] => if v = Config.unlistedByte then [] else [(a, v)]
  | (k, u) :: rest =>
    if a < k then (if v = Config.unlistedByte then (k, u) :: rest else (a, v) :: (k, u) :: rest)
    else if a = k then (if v = Config.unlistedByte then rest else (a, v) :: rest)
    else (k, u) :: Memory.write rest a v

/-- The canonical form: addresses strictly rising and inside the address space, no entry equal to the unlisted byte. -/
abbrev Memory.wf (m : Memory) : Prop :=
  m.Pairwise (fun c d => c.1 < d.1) ∧ ∀ c ∈ m, c.1 < 2 ^ 32 ∧ c.2 ≠ Config.unlistedByte

/-- The address of byte `i` of an access at `a`: addresses wrap modulo 2^32 (R28, R64). -/
def byteAddr (a : Word) (i : Nat) : Nat := (a + BitVec.ofNat 32 i).toNat

/-- The addresses of the `n` bytes of an access at `a`, ascending from `a` (R56, R57). -/
def byteAddrs (a : Word) (n : Nat) : List Nat := (List.range n).map (byteAddr a)

/-- Write bytes at `a`, `a + 1`, … (R57). -/
def Memory.writeBytes (m : Memory) (a : Word) (bytes : List Byte) : Memory :=
  match bytes with
  | [] => m
  | b :: rest => Memory.writeBytes (Memory.write m a.toNat b) (a + 1#32) rest

/-- Write single bytes at the addresses given with them. -/
def Memory.writeEach (m : Memory) (cells : List (Word × Byte)) : Memory :=
  match cells with
  | [] => m
  | (a, b) :: rest => Memory.writeEach (Memory.write m a.toNat b) rest

/-! ### The set of addresses stored to (R74) -/

/-- Put an address into a strictly rising list of addresses. -/
def insertAddr (l : List Nat) (a : Nat) : List Nat :=
  match l with
  | [] => [a]
  | k :: rest => if a < k then a :: k :: rest else if a = k then k :: rest else k :: insertAddr rest a

/-- Put every address of the second list into the first. -/
def insertAddrs (l : List Nat) (new : List Nat) : List Nat :=
  match new with
  | [] => l
  | a :: rest => insertAddrs (insertAddr l a) rest

/-! ### Registers and the pc -/

/-- The place of x1 to x31 in `State.regs`; x0 shares x1's, and is never read or written there. -/
def regIndex (r : RegNum) : Fin 31 := ⟨r.toNat - 1, by omega⟩

/-- `x[i]`: 0 for register 0, else the register's content (R11, R22, R23). -/
def State.readReg (s : State) (r : RegNum) : Word :=
  if r = 0#5 then 0#32 else s.regs[regIndex r]

/-- `x[i] <- v`: nothing for register 0, else register `i` becomes `v` (R11, R22, R23). -/
def State.writeReg (s : State) (r : RegNum) (v : Word) : State :=
  { s with regs := if r = 0#5 then s.regs else s.regs.set (regIndex r) v }

/-- `pc <- t` (R11, R27). -/
def State.setPc (s : State) (t : Word) : State := { s with pc := t }

/-- `pc <- pc + 4`, modulo 2^32 (R27, R28). -/
def State.advance (s : State) : State := s.setPc (s.pc + 4#32)

/-- Write `rd` and go on at `pc + 4` (R141). -/
def State.result (s : State) (rd : RegNum) (v : Word) : State := (s.writeReg rd v).advance

/-! ### Permission and alignment (R55, R59, R66) -/

/-- `MEM_MAP` allows every byte of an access (R56, R57, R65). -/
def State.permitted (s : State) (kind : AccessKind) (a : Word) (n : Width) : Bool :=
  (byteAddrs a n.bytes).all (fun b => s.eei.memMap.allows b kind n)

/-- Natural alignment (R55). -/
def naturallyAligned (a : Word) (n : Width) : Bool := a.toNat % n.bytes == 0

/-- `t[1:0] = 0b00` (R66, R181). -/
def fourByteAligned (t : Word) : Bool := t.extractLsb' 0 2 == 0#2

/-! ### Devices (R61, R62, R77; D30) -/

/-- Some byte of the access is a device's. -/
def State.touchesDevice (s : State) (a : Word) (n : Width) : Bool :=
  (byteAddrs a n.bytes).any (fun b => s.eei.memMap.isDevice b)

/-- What a load or fetch sees in byte `i` of an access at `a`: the byte in memory, or a free value where it is a device's
(R56, R77). -/
def State.byteSeen (s : State) (a : Word) (i : Nat) : Byte :=
  if s.eei.memMap.isDevice (byteAddr a i) then Config.deviceByte (s.draws + i) else Memory.read s.mem (byteAddr a i)

/-- The bytes a load or fetch sees, the one at the lowest address first (R51, R56). -/
def State.bytesSeen (s : State) (a : Word) (n : Width) : List Byte := (List.range n.bytes).map (s.byteSeen a)

/-- Insert an element at a place of a list, at its end where the place is past it. -/
def insertAt {α : Type} (place : Nat) (x : α) (l : List α) : List α := l.take place ++ x :: l.drop place

/-- The permutation of a list that a number names; every permutation has a number. -/
def permuteBy {α : Type} (number : Nat) (l : List α) : List α :=
  match l with
  | [] => []
  | x :: rest => insertAt (number % (rest.length + 1)) x (permuteBy (number / (rest.length + 1)) rest)

/-- The byte accesses a misaligned access makes to device bytes, in ascending address order. -/
def State.byteEvents (s : State) (kind : AccessKind) (a : Word) (bytes : List Byte) : List DeviceEvent :=
  (bytes.zipIdx.filter (fun p => s.eei.memMap.isDevice (byteAddr a p.2))).map (fun p =>
    { kind := kind, addr := a + BitVec.ofNat 32 p.2, width := .byte, value := p.1.setWidth 32 })

/-- What an environment sees of an access to a device: a naturally aligned access is one event of its width; a misaligned one
is seen as byte accesses in any order (R61, R77). -/
def State.accessEvents (s : State) (kind : AccessKind) (a : Word) (n : Width) (bytes : List Byte) : List DeviceEvent :=
  if naturallyAligned a n then [{ kind := kind, addr := a, width := n, value := leValue bytes }]
  else permuteBy (Config.byteOrder s.draws) (s.byteEvents kind a bytes)

/-- Record an access: nothing where no byte of it is a device's (R62), else its events, and the free values it used up. -/
def State.observe (s : State) (kind : AccessKind) (a : Word) (n : Width) (bytes : List Byte) : State :=
  if s.touchesDevice a n then
    { s with draws := s.draws + n.bytes, events := s.events ++ s.accessEvents kind a n bytes }
  else s

/-! ### Taking an exception (R13, R306, R310 to R314) -/

/-- The number that an environment which wants numbers is handed with a trap record (R5, R303). No step reads it. -/
def State.causeCode (s : State) (r : TrapRecord) : Option Nat := s.eei.causeCodes.map (fun c => c.codeOf r.name)

/-- A handler function (R5, R314): from the state and the trap record to the state the run goes on in. -/
abbrev Handler := State → TrapRecord → State

/-- The same machine under another `ON_TRAP`. -/
def State.withOnTrap (s : State) (o : OnTrap) : State := { s with eei := { s.eei with onTrap := o } }

/-- A trap record goes to the environment: the run ends (`ON_TRAP = fatal`, R313), or the handler function gives the state it
goes on in (R314). -/
def State.handOver (s : State) (h : Handler) (r : TrapRecord) : StepOutcome :=
  match s.eei.onTrap with
  | .fatal => .fault (.trap r)
  | .handler => .next (h s r)

/-- The free handler (log entry 8), the one that `step` attaches (R314): registers, pc and memory as the handler function answers.
The set of stored-to addresses holds stores of the run only, so it stays. -/
def State.resume (s : State) (r : TrapRecord) : State :=
  let answer := Config.onTrap s.draws s.regs s.pc s.mem r
  { s with regs := answer.regs, pc := answer.pcIndex ++ 0#2, mem := Memory.writeEach s.mem answer.writes,
           draws := s.draws + 1 }

/-- `raise E(info)`: the instruction changes nothing and the trap record goes to the environment (R13, R310, R311). -/
def State.raise (s : State) (e : Exception) : StepOutcome := s.handOver State.resume (trapRecord e s.pc)

/-! ### `MemRead`, `MemWrite`, `Fetch` (R56, R57, R65) -/

/-- The address-misaligned exception of a kind of access (R300). -/
def misalignedException (kind : AccessKind) (a : Word) : Exception :=
  match kind with
  | .fetch => .instructionAddressMisaligned a
  | .load => .loadAddressMisaligned a
  | .store => .storeAddressMisaligned a

/-- The access fault of a kind of access (R59, R300). -/
def accessFaultException (kind : AccessKind) (a : Word) : Exception :=
  match kind with
  | .fetch => .instructionAccessFault a
  | .load => .loadAccessFault a
  | .store => .storeAccessFault a

/-- The checks of a data access in their order: alignment under policy `trap`, then the map's permission for every byte
(R56, R57, R60). -/
def State.checkAccess (s : State) (kind : AccessKind) (a : Word) (n : Width) : Option Exception :=
  if naturallyAligned a n = false ∧ s.eei.misaligned = .trap then some (misalignedException kind a)
  else if s.permitted kind a n then none
  else some (accessFaultException kind a)

/-- `MemRead(a, n)`: the value read, in the low bits, and the state after the read, or the exception it raises (R56). -/
def State.memRead (s : State) (a : Word) (n : Width) : Except Exception (Word × State) :=
  match s.checkAccess .load a n with
  | some e => .error e
  | none => .ok (leValue (s.bytesSeen a n), s.observe .load a n (s.bytesSeen a n))

/-- The state after a store's bytes are written at `a`: the memory (R57) and the set of addresses stored to (R74). -/
def State.putBytes (s : State) (a : Word) (bytes : List Byte) : State :=
  { s with mem := Memory.writeBytes s.mem a bytes, written := insertAddrs s.written (byteAddrs a bytes.length) }

/-- `MemWrite(a, n, v)`: all checks come before any byte is written (R57). -/
def State.memWrite (s : State) (a : Word) (n : Width) (v : Word) : Except Exception State :=
  match s.checkAccess .store a n with
  | some e => .error e
  | none => .ok ((s.putBytes a (leBytes v n.bytes)).observe .store a n (leBytes v n.bytes))

/-- Some byte at `a` to `a + 3` was written by a store of this run (R65, R74). -/
def State.storedTo (s : State) (a : Word) : Bool := (byteAddrs a 4).any (fun b => decide (b ∈ s.written))

/-- `Fetch(pc)` (R65). -/
def State.fetch (s : State) : FetchOutcome :=
  if fourByteAligned s.pc = false then .raised (.instructionAddressMisaligned s.pc)
  else if s.permitted .fetch s.pc .word = false then .raised (.instructionAccessFault s.pc)
  else if s.storedTo s.pc then .refused
  else .word (leValue (s.bytesSeen s.pc .word)) (s.observe .fetch s.pc .word (s.bytesSeen s.pc .word))

/-! ### Placing an instruction where the next fetch finds it -/

/-- The state whose next fetch finds `w`: its bytes at the pc (rounded down to a multiple of 4), those addresses not among the
stored-to ones, and the environment's default map where the state's own would deny that fetch or give it to a device. -/
def State.placeWord (s : State) (w : Word) : State :=
  let a := s.pc &&& 0xFFFFFFFC#32
  let placed : State := { s with pc := a, mem := Memory.writeBytes s.mem a (leBytes w 4),
                                 written := s.written.filter (fun b => decide (b ∉ byteAddrs a 4)) }
  if placed.permitted .fetch a .word && !placed.touchesDevice a .word then placed
  else { placed with eei := { placed.eei with memMap := MemMap.everything } }

end Sys2Proof.Machine
end

