-- ==== Sys2Proof/Machine/Operands.lean ====
section
/-! DEFINITION. Operand forms: the five immediates and the shift amount as 32-bit values (R100 to R105), the one addressing
mode (R211), jump and branch targets (R183, R184, R190), and which registers an instruction reads and writes (R35). -/

namespace Sys2Proof.Machine

/-- `imm_i` and `imm_s`: a 12-bit field sign-extended (R100, R101). -/
def imm12 (imm : BitVec 12) : Word := imm.signExtend 32

/-- `imm_b`: a 13-bit offset sign-extended (R102). -/
def immB (offset : BitVec 13) : Word := offset.signExtend 32

/-- `imm_u`: 20 bits above 12 zeros (R103). -/
def immU (imm20 : BitVec 20) : Word := imm20 ++ 0#12

/-- `imm_j`: a 21-bit offset sign-extended (R104). -/
def immJ (offset : BitVec 21) : Word := offset.signExtend 32

/-- The shift amount in the low 5 bits of a register (R160). -/
def shiftAmount (v : Word) : BitVec 5 := v.extractLsb' 0 5

/-- `sext_8` of the low byte of a value (R8, R218). -/
def sext8 (v : Word) : Word := (v.setWidth 8).signExtend 32

/-- `zext_8` of the low byte of a value (R8, R219). -/
def zext8 (v : Word) : Word := (v.setWidth 8).setWidth 32

/-- `sext_16` of the low halfword of a value (R8, R216). -/
def sext16 (v : Word) : Word := (v.setWidth 16).signExtend 32

/-- `zext_16` of the low halfword of a value (R8, R217). -/
def zext16 (v : Word) : Word := (v.setWidth 16).setWidth 32

/-- The effective address of a load or store: base register plus sign-extended offset, modulo 2^32 (R211). -/
def State.effAddr (s : State) (rs1 : RegNum) (imm : BitVec 12) : Word := s.readReg rs1 + imm12 imm

/-- JAL's target (R183). -/
def State.jalTarget (s : State) (offset : BitVec 21) : Word := s.pc + immJ offset

/-- JALR's target: bit 0 of the sum is set to zero (R184). -/
def State.jalrTarget (s : State) (rs1 : RegNum) (imm : BitVec 12) : Word :=
  (s.readReg rs1 + imm12 imm) &&& 0xFFFFFFFE#32

/-- A branch's target (R190). -/
def State.branchTarget (s : State) (offset : BitVec 13) : Word := s.pc + immB offset

/-- The registers an instruction reads (R35). -/
def sourceRegs (i : Instr) : List RegNum :=
  match i with
  | .lui _ _ | .auipc _ _ | .jal _ _ => []
  | .jalr _ rs1 _ => [rs1]
  | .beq rs1 rs2 _ | .bne rs1 rs2 _ | .blt rs1 rs2 _ | .bge rs1 rs2 _ | .bltu rs1 rs2 _ | .bgeu rs1 rs2 _ => [rs1, rs2]
  | .lb _ rs1 _ | .lh _ rs1 _ | .lw _ rs1 _ | .lbu _ rs1 _ | .lhu _ rs1 _ => [rs1]
  | .sb rs1 rs2 _ | .sh rs1 rs2 _ | .sw rs1 rs2 _ => [rs1, rs2]
  | .addi _ rs1 _ | .slti _ rs1 _ | .sltiu _ rs1 _ | .xori _ rs1 _ | .ori _ rs1 _ | .andi _ rs1 _ => [rs1]
  | .slli _ rs1 _ | .srli _ rs1 _ | .srai _ rs1 _ => [rs1]
  | .add _ rs1 rs2 | .sub _ rs1 rs2 | .sll _ rs1 rs2 | .slt _ rs1 rs2 | .sltu _ rs1 rs2 => [rs1, rs2]
  | .xor _ rs1 rs2 | .srl _ rs1 rs2 | .sra _ rs1 rs2 | .or _ rs1 rs2 | .and _ rs1 rs2 => [rs1, rs2]
  | .fence _ _ _ _ _ | .fenceTso | .pause | .ecall | .ebreak => []

/-- The register an instruction writes, where it has one (R35). -/
def destReg (i : Instr) : Option RegNum :=
  match i with
  | .lui rd _ | .auipc rd _ | .jal rd _ | .jalr rd _ _ => some rd
  | .beq _ _ _ | .bne _ _ _ | .blt _ _ _ | .bge _ _ _ | .bltu _ _ _ | .bgeu _ _ _ => none
  | .lb rd _ _ | .lh rd _ _ | .lw rd _ _ | .lbu rd _ _ | .lhu rd _ _ => some rd
  | .sb _ _ _ | .sh _ _ _ | .sw _ _ _ => none
  | .addi rd _ _ | .slti rd _ _ | .sltiu rd _ _ | .xori rd _ _ | .ori rd _ _ | .andi rd _ _ => some rd
  | .slli rd _ _ | .srli rd _ _ | .srai rd _ _ => some rd
  | .add rd _ _ | .sub rd _ _ | .sll rd _ _ | .slt rd _ _ | .sltu rd _ _ => some rd
  | .xor rd _ _ | .srl rd _ _ | .sra rd _ _ | .or rd _ _ | .and rd _ _ => some rd
  | .fence _ _ _ _ _ | .fenceTso | .pause | .ecall | .ebreak => none

end Sys2Proof.Machine
end

