-- ==== Sys2Proof/Machine/Flags.lean ====
section
/-! DEFINITION. RV32I has no flags and no condition codes (R30): a comparison is written to a register as 0 or 1 (R143, R144,
R155, R156) or is part of a branch (R190). This file holds those comparisons; there is no flag computation besides. -/

namespace Sys2Proof.Machine

/-- `a <s b`: two's-complement comparison (R9). -/
def lessSigned (a b : Word) : Bool := a.slt b

/-- `a <u b`: unsigned comparison (R9). -/
def lessUnsigned (a b : Word) : Bool := a.ult b

/-- The 32-bit number 1 or 0 that a set-if-less-than writes (R143). -/
def boolWord (c : Bool) : Word := if c then 1#32 else 0#32

end Sys2Proof.Machine
end

