-- ==== Sys2Proof/Machine/Control.lean ====
section
/-! DEFINITION. The two jumps and the six branches (41_control_transfer.md). -/

namespace Sys2Proof.Machine

/-- Jump to `t` with `pc + 4` linked in `rd`; a target that is no multiple of 4 raises first, and then `rd` is not written
(R181 to R184). -/
def State.jump (s : State) (rd : RegNum) (t : Word) : StepOutcome :=
  if fourByteAligned t then .next ((s.writeReg rd (s.pc + 4#32)).setPc t)
  else s.raise (.instructionAddressMisaligned t)

/-- Branch to `t` when the condition holds, else go on at `pc + 4`; only a taken branch can raise (R181, R190). -/
def State.branch (s : State) (cond : Bool) (t : Word) : StepOutcome :=
  if cond then (if fourByteAligned t then .next (s.setPc t) else s.raise (.instructionAddressMisaligned t))
  else .next s.advance

/-- JAL (R183). -/
def execJal (rd : RegNum) (offset : BitVec 21) (s : State) : StepOutcome := s.jump rd (s.jalTarget offset)

/-- JALR (R184). -/
def execJalr (rd rs1 : RegNum) (imm : BitVec 12) (s : State) : StepOutcome := s.jump rd (s.jalrTarget rs1 imm)

/-- BEQ (R191). -/
def execBeq (rs1 rs2 : RegNum) (offset : BitVec 13) (s : State) : StepOutcome :=
  s.branch (s.readReg rs1 == s.readReg rs2) (s.branchTarget offset)

/-- BNE (R192). -/
def execBne (rs1 rs2 : RegNum) (offset : BitVec 13) (s : State) : StepOutcome :=
  s.branch (s.readReg rs1 != s.readReg rs2) (s.branchTarget offset)

/-- BLT (R193). -/
def execBlt (rs1 rs2 : RegNum) (offset : BitVec 13) (s : State) : StepOutcome :=
  s.branch (lessSigned (s.readReg rs1) (s.readReg rs2)) (s.branchTarget offset)

/-- BGE (R195). -/
def execBge (rs1 rs2 : RegNum) (offset : BitVec 13) (s : State) : StepOutcome :=
  s.branch (!lessSigned (s.readReg rs1) (s.readReg rs2)) (s.branchTarget offset)

/-- BLTU (R194). -/
def execBltu (rs1 rs2 : RegNum) (offset : BitVec 13) (s : State) : StepOutcome :=
  s.branch (lessUnsigned (s.readReg rs1) (s.readReg rs2)) (s.branchTarget offset)

/-- BGEU (R196). -/
def execBgeu (rs1 rs2 : RegNum) (offset : BitVec 13) (s : State) : StepOutcome :=
  s.branch (!lessUnsigned (s.readReg rs1) (s.readReg rs2)) (s.branchTarget offset)

end Sys2Proof.Machine
end

