-- ==== Sys2Proof/Machine/Fence.lean ====
section
/-! DEFINITION. FENCE, FENCE.TSO and PAUSE (43_memory_ordering_fence.md): with one hart that performs its accesses in program
order there is nothing to order, and each changes only the pc (R72, R242 to R244). -/

namespace Sys2Proof.Machine

/-- What the three have in common: `pc <- pc + 4` and nothing else (R242). -/
def State.orderNothing (s : State) : StepOutcome := .next s.advance

/-- FENCE, whatever its fields hold; the fields labelled rs1 and rd name no register (R241, R242). -/
def execFence (_fm _pred _succ : BitVec 4) (_rs1 _rd : RegNum) (s : State) : StepOutcome := s.orderNothing

/-- FENCE.TSO (R243). -/
def execFenceTso (s : State) : StepOutcome := s.orderNothing

/-- PAUSE (R244). -/
def execPause (s : State) : StepOutcome := s.orderNothing

end Sys2Proof.Machine
end

