-- ==== Sys2Proof/Machine/Integer.lean ====
section
/-! DEFINITION. The 21 integer computational instructions (40_integer_computational.md): each writes one result to `rd` and
goes on at `pc + 4`; none raises (R141). -/

namespace Sys2Proof.Machine

/-- What the family has in common: the result goes to `rd`, the pc to `pc + 4` (R141). -/
def State.compute (s : State) (rd : RegNum) (v : Word) : StepOutcome := .next (s.result rd v)

/-- LUI (R151). -/
def execLui (rd : RegNum) (imm20 : BitVec 20) (s : State) : StepOutcome := s.compute rd (immU imm20)

/-- AUIPC (R152). -/
def execAuipc (rd : RegNum) (imm20 : BitVec 20) (s : State) : StepOutcome := s.compute rd (s.pc + immU imm20)

/-- ADDI (R142). -/
def execAddi (rd rs1 : RegNum) (imm : BitVec 12) (s : State) : StepOutcome := s.compute rd (s.readReg rs1 + imm12 imm)

/-- SLTI (R143). -/
def execSlti (rd rs1 : RegNum) (imm : BitVec 12) (s : State) : StepOutcome :=
  s.compute rd (boolWord (lessSigned (s.readReg rs1) (imm12 imm)))

/-- SLTIU: the immediate is sign-extended, then both are compared unsigned (R144). -/
def execSltiu (rd rs1 : RegNum) (imm : BitVec 12) (s : State) : StepOutcome :=
  s.compute rd (boolWord (lessUnsigned (s.readReg rs1) (imm12 imm)))

/-- XORI (R147). -/
def execXori (rd rs1 : RegNum) (imm : BitVec 12) (s : State) : StepOutcome := s.compute rd (s.readReg rs1 ^^^ imm12 imm)

/-- ORI (R146). -/
def execOri (rd rs1 : RegNum) (imm : BitVec 12) (s : State) : StepOutcome := s.compute rd (s.readReg rs1 ||| imm12 imm)

/-- ANDI (R145). -/
def execAndi (rd rs1 : RegNum) (imm : BitVec 12) (s : State) : StepOutcome := s.compute rd (s.readReg rs1 &&& imm12 imm)

/-- SLLI (R148). -/
def execSlli (rd rs1 : RegNum) (shamt : BitVec 5) (s : State) : StepOutcome := s.compute rd (s.readReg rs1 <<< shamt)

/-- SRLI (R149). -/
def execSrli (rd rs1 : RegNum) (shamt : BitVec 5) (s : State) : StepOutcome := s.compute rd (s.readReg rs1 >>> shamt)

/-- SRAI (R150). -/
def execSrai (rd rs1 : RegNum) (shamt : BitVec 5) (s : State) : StepOutcome :=
  s.compute rd ((s.readReg rs1).sshiftRight' shamt)

/-- ADD (R153). -/
def execAdd (rd rs1 rs2 : RegNum) (s : State) : StepOutcome := s.compute rd (s.readReg rs1 + s.readReg rs2)

/-- SUB (R154). -/
def execSub (rd rs1 rs2 : RegNum) (s : State) : StepOutcome := s.compute rd (s.readReg rs1 - s.readReg rs2)

/-- SLL (R160). -/
def execSll (rd rs1 rs2 : RegNum) (s : State) : StepOutcome :=
  s.compute rd (s.readReg rs1 <<< shiftAmount (s.readReg rs2))

/-- SLT (R155). -/
def execSlt (rd rs1 rs2 : RegNum) (s : State) : StepOutcome :=
  s.compute rd (boolWord (lessSigned (s.readReg rs1) (s.readReg rs2)))

/-- SLTU (R156). -/
def execSltu (rd rs1 rs2 : RegNum) (s : State) : StepOutcome :=
  s.compute rd (boolWord (lessUnsigned (s.readReg rs1) (s.readReg rs2)))

/-- XOR (R159). -/
def execXor (rd rs1 rs2 : RegNum) (s : State) : StepOutcome := s.compute rd (s.readReg rs1 ^^^ s.readReg rs2)

/-- SRL (R161). -/
def execSrl (rd rs1 rs2 : RegNum) (s : State) : StepOutcome :=
  s.compute rd (s.readReg rs1 >>> shiftAmount (s.readReg rs2))

/-- SRA (R162). -/
def execSra (rd rs1 rs2 : RegNum) (s : State) : StepOutcome :=
  s.compute rd ((s.readReg rs1).sshiftRight' (shiftAmount (s.readReg rs2)))

/-- OR (R158). -/
def execOr (rd rs1 rs2 : RegNum) (s : State) : StepOutcome := s.compute rd (s.readReg rs1 ||| s.readReg rs2)

/-- AND (R157). -/
def execAnd (rd rs1 rs2 : RegNum) (s : State) : StepOutcome := s.compute rd (s.readReg rs1 &&& s.readReg rs2)

end Sys2Proof.Machine
end

