-- ==== Sys2Proof/Machine/LoadStore.lean ====
section
/-! DEFINITION. The five loads and the three stores (42_load_store.md). -/

namespace Sys2Proof.Machine

/-- A load: address, `MemRead`, extension, `rd`, `pc + 4`; when `MemRead` raises, `rd` and the pc stay (R213). -/
def State.load (s : State) (n : Width) (extend : Word → Word) (rd : RegNum) (a : Word) : StepOutcome :=
  match s.memRead a n with
  | .error e => s.raise e
  | .ok (v, s') => .next (s'.result rd (extend v))

/-- A store: address, `MemWrite` of the low bytes of `v`, `pc + 4`; when `MemWrite` raises, nothing is written (R213). -/
def State.store (s : State) (n : Width) (a v : Word) : StepOutcome :=
  match s.memWrite a n v with
  | .error e => s.raise e
  | .ok s' => .next s'.advance

/-- LB (R218). -/
def execLb (rd rs1 : RegNum) (imm : BitVec 12) (s : State) : StepOutcome := s.load .byte sext8 rd (s.effAddr rs1 imm)

/-- LH (R216). -/
def execLh (rd rs1 : RegNum) (imm : BitVec 12) (s : State) : StepOutcome := s.load .half sext16 rd (s.effAddr rs1 imm)

/-- LW (R215). -/
def execLw (rd rs1 : RegNum) (imm : BitVec 12) (s : State) : StepOutcome := s.load .word id rd (s.effAddr rs1 imm)

/-- LBU (R219). -/
def execLbu (rd rs1 : RegNum) (imm : BitVec 12) (s : State) : StepOutcome := s.load .byte zext8 rd (s.effAddr rs1 imm)

/-- LHU (R217). -/
def execLhu (rd rs1 : RegNum) (imm : BitVec 12) (s : State) : StepOutcome := s.load .half zext16 rd (s.effAddr rs1 imm)

/-- SB (R222). -/
def execSb (rs1 rs2 : RegNum) (imm : BitVec 12) (s : State) : StepOutcome :=
  s.store .byte (s.effAddr rs1 imm) (s.readReg rs2)

/-- SH (R221). -/
def execSh (rs1 rs2 : RegNum) (imm : BitVec 12) (s : State) : StepOutcome :=
  s.store .half (s.effAddr rs1 imm) (s.readReg rs2)

/-- SW (R220). -/
def execSw (rs1 rs2 : RegNum) (imm : BitVec 12) (s : State) : StepOutcome :=
  s.store .word (s.effAddr rs1 imm) (s.readReg rs2)

end Sys2Proof.Machine
end

