-- ==== Sys2Proof/Machine/System.lean ====
section
/-! DEFINITION. ECALL and EBREAK (44_environment_call_breakpoint.md): each raises its own exception. -/

namespace Sys2Proof.Machine

/-- ECALL raises `EnvironmentCall`, with info 0 (R256). -/
def execEcall (s : State) : StepOutcome := s.raise .environmentCall

/-- EBREAK raises `Breakpoint`, with its own address as info (R257). -/
def execEbreak (s : State) : StepOutcome := s.raise (.breakpoint s.pc)

end Sys2Proof.Machine
end

