-- ==== Sys2Proof/Machine/Step.lean ====
section
/-! DEFINITION. One step of the hart (R14, R312), and an instruction placed where the next fetch finds it. -/

namespace Sys2Proof.Machine

/-- One step: fetch, decode, execute (R14). An exception of the fetch or of the decoding is taken before anything changes
(R301); a fetch of bytes stored to in this run is refused (R74). -/
def step (s : State) : Host.Outcome State Fault Refusal :=
  match s.fetch with
  | .raised e => s.raise e
  | .refused => .refused (.fetchOfStoredBytes s.pc)
  | .word w s' =>
    match decode w with
    | .error _ => s'.raise (.illegalInstruction w)
    | .ok i => exec i s'

/-- `s` with the instruction whose bits are `w` where `step` fetches next (`State.placeWord`). -/
def State.withFetchWord (s : State) (nbits w : Nat) : State := s.placeWord (BitVec.ofNat 32 (w % 2 ^ nbits))

end Sys2Proof.Machine
end

