-- ==== Sys2Proof/Machine/Assembly.lean ====
section
/-! DEFINITION. Assembly as 45_assembly_pseudoinstructions.md gives it: register names (R24), operand order (R266), the split of a
32-bit value (R267) and the pseudoinstructions that expand to RV32I (R268 to R274). Nothing here adds behaviour to the
machine. Text (number syntax, labels, directives) is in no source (R265, R276), so operands are data, not strings. -/

namespace Sys2Proof.Machine

/-- The ABI names of a register (R24). -/
def abiNames (r : RegNum) : List String :=
  match r with
  | 0#5 => ["zero"]
  | 1#5 => ["ra"]
  | 2#5 => ["sp"]
  | 3#5 => ["gp"]
  | 4#5 => ["tp"]
  | 5#5 => ["t0"]
  | 6#5 => ["t1"]
  | 7#5 => ["t2"]
  | 8#5 => ["s0", "fp"]
  | 9#5 => ["s1"]
  | 10#5 => ["a0"]
  | 11#5 => ["a1"]
  | 12#5 => ["a2"]
  | 13#5 => ["a3"]
  | 14#5 => ["a4"]
  | 15#5 => ["a5"]
  | 16#5 => ["a6"]
  | 17#5 => ["a7"]
  | 18#5 => ["s2"]
  | 19#5 => ["s3"]
  | 20#5 => ["s4"]
  | 21#5 => ["s5"]
  | 22#5 => ["s6"]
  | 23#5 => ["s7"]
  | 24#5 => ["s8"]
  | 25#5 => ["s9"]
  | 26#5 => ["s10"]
  | 27#5 => ["s11"]
  | 28#5 => ["t3"]
  | 29#5 => ["t4"]
  | 30#5 => ["t5"]
  | _ => ["t6"]

/-- One operand of an assembly line (R265, R266). -/
inductive AsmOperand where
  /-- a register -/
  | reg (r : RegNum)
  /-- a signed immediate -/
  | imm (v : Int)
  /-- a shift amount or the 20-bit operand of LUI and AUIPC, unsigned -/
  | uimm (v : Nat)
  /-- `imm(base)` -/
  | mem (disp : Int) (base : RegNum)
  /-- a pc-relative target, as the signed byte offset -/
  | target (offset : Int)
  /-- a subset of the letters i, o, r, w -/
  | orderSet (i o r w : Bool)
  deriving DecidableEq, Repr

/-- The letters of a 4-bit `pred` or `succ` field: i is bit 3, o bit 2, r bit 1, w bit 0 (R106, R242). -/
def orderSetOf (field : BitVec 4) : AsmOperand :=
  .orderSet (field.getLsbD 3) (field.getLsbD 2) (field.getLsbD 1) (field.getLsbD 0)

/-- The lower-case mnemonic and the operands, in order, of the assembly line of an instruction (R266); none for a FENCE word
that no assembly line gives (R242). -/
def asmLine (i : Instr) : Option (String × List AsmOperand) :=
  match i with
  | .lui rd imm20 => some ("lui", [.reg rd, .uimm imm20.toNat])
  | .auipc rd imm20 => some ("auipc", [.reg rd, .uimm imm20.toNat])
  | .jal rd offset => some ("jal", [.reg rd, .target offset.toInt])
  | .jalr rd rs1 imm => some ("jalr", [.reg rd, .mem imm.toInt rs1])
  | .beq rs1 rs2 offset => some ("beq", [.reg rs1, .reg rs2, .target offset.toInt])
  | .bne rs1 rs2 offset => some ("bne", [.reg rs1, .reg rs2, .target offset.toInt])
  | .blt rs1 rs2 offset => some ("blt", [.reg rs1, .reg rs2, .target offset.toInt])
  | .bge rs1 rs2 offset => some ("bge", [.reg rs1, .reg rs2, .target offset.toInt])
  | .bltu rs1 rs2 offset => some ("bltu", [.reg rs1, .reg rs2, .target offset.toInt])
  | .bgeu rs1 rs2 offset => some ("bgeu", [.reg rs1, .reg rs2, .target offset.toInt])
  | .lb rd rs1 imm => some ("lb", [.reg rd, .mem imm.toInt rs1])
  | .lh rd rs1 imm => some ("lh", [.reg rd, .mem imm.toInt rs1])
  | .lw rd rs1 imm => some ("lw", [.reg rd, .mem imm.toInt rs1])
  | .lbu rd rs1 imm => some ("lbu", [.reg rd, .mem imm.toInt rs1])
  | .lhu rd rs1 imm => some ("lhu", [.reg rd, .mem imm.toInt rs1])
  | .sb rs1 rs2 imm => some ("sb", [.reg rs2, .mem imm.toInt rs1])
  | .sh rs1 rs2 imm => some ("sh", [.reg rs2, .mem imm.toInt rs1])
  | .sw rs1 rs2 imm => some ("sw", [.reg rs2, .mem imm.toInt rs1])
  | .addi rd rs1 imm => some ("addi", [.reg rd, .reg rs1, .imm imm.toInt])
  | .slti rd rs1 imm => some ("slti", [.reg rd, .reg rs1, .imm imm.toInt])
  | .sltiu rd rs1 imm => some ("sltiu", [.reg rd, .reg rs1, .imm imm.toInt])
  | .xori rd rs1 imm => some ("xori", [.reg rd, .reg rs1, .imm imm.toInt])
  | .ori rd rs1 imm => some ("ori", [.reg rd, .reg rs1, .imm imm.toInt])
  | .andi rd rs1 imm => some ("andi", [.reg rd, .reg rs1, .imm imm.toInt])
  | .slli rd rs1 shamt => some ("slli", [.reg rd, .reg rs1, .uimm shamt.toNat])
  | .srli rd rs1 shamt => some ("srli", [.reg rd, .reg rs1, .uimm shamt.toNat])
  | .srai rd rs1 shamt => some ("srai", [.reg rd, .reg rs1, .uimm shamt.toNat])
  | .add rd rs1 rs2 => some ("add", [.reg rd, .reg rs1, .reg rs2])
  | .sub rd rs1 rs2 => some ("sub", [.reg rd, .reg rs1, .reg rs2])
  | .sll rd rs1 rs2 => some ("sll", [.reg rd, .reg rs1, .reg rs2])
  | .slt rd rs1 rs2 => some ("slt", [.reg rd, .reg rs1, .reg rs2])
  | .sltu rd rs1 rs2 => some ("sltu", [.reg rd, .reg rs1, .reg rs2])
  | .xor rd rs1 rs2 => some ("xor", [.reg rd, .reg rs1, .reg rs2])
  | .srl rd rs1 rs2 => some ("srl", [.reg rd, .reg rs1, .reg rs2])
  | .sra rd rs1 rs2 => some ("sra", [.reg rd, .reg rs1, .reg rs2])
  | .or rd rs1 rs2 => some ("or", [.reg rd, .reg rs1, .reg rs2])
  | .and rd rs1 rs2 => some ("and", [.reg rd, .reg rs1, .reg rs2])
  | .fence fm pred succ rs1 rd =>
      if fm = 0 ∧ pred ≠ 0 ∧ succ ≠ 0 ∧ rs1 = 0 ∧ rd = 0 then some ("fence", [orderSetOf pred, orderSetOf succ]) else none
  | .fenceTso => some ("fence.tso", [])
  | .pause => some ("pause", [])
  | .ecall => some ("ecall", [])
  | .ebreak => some ("ebreak", [])

/-- The upper 20-bit operand for a 32-bit value: `X[31:12] + X[11]` modulo 2^20 (R267). -/
def hi20 (x : Word) : BitVec 20 := x.extractLsb' 12 20 + (x.extractLsb' 11 1).setWidth 20

/-- The lower 12 bits, used as a signed immediate (R267). -/
def lo12 (x : Word) : BitVec 12 := x.setWidth 12

/-- The pseudoinstructions that RV32I can express (R268 to R274). `delta` is the symbol's (or, for `laPic`, the GOT entry's)
address minus the address of the AUIPC (R268). -/
inductive Pseudo where
  | la (rd : RegNum) (delta : Word)
  | laPic (rd : RegNum) (delta : Word)
  | lla (rd : RegNum) (delta : Word)
  | lbGlobal (rd : RegNum) (delta : Word)
  | lhGlobal (rd : RegNum) (delta : Word)
  | lwGlobal (rd : RegNum) (delta : Word)
  | sbGlobal (data : RegNum) (delta : Word) (rt : RegNum)
  | shGlobal (data : RegNum) (delta : Word) (rt : RegNum)
  | swGlobal (data : RegNum) (delta : Word) (rt : RegNum)
  | nop
  | li (rd : RegNum) (c : Word)
  | mv (rd rs : RegNum)
  | not (rd rs : RegNum)
  | neg (rd rs : RegNum)
  | seqz (rd rs : RegNum)
  | snez (rd rs : RegNum)
  | sltz (rd rs : RegNum)
  | sgtz (rd rs : RegNum)
  | beqz (rs : RegNum) (offset : BitVec 13)
  | bnez (rs : RegNum) (offset : BitVec 13)
  | blez (rs : RegNum) (offset : BitVec 13)
  | bgez (rs : RegNum) (offset : BitVec 13)
  | bltz (rs : RegNum) (offset : BitVec 13)
  | bgtz (rs : RegNum) (offset : BitVec 13)
  | bgt (rs rt : RegNum) (offset : BitVec 13)
  | ble (rs rt : RegNum) (offset : BitVec 13)
  | bgtu (rs rt : RegNum) (offset : BitVec 13)
  | bleu (rs rt : RegNum) (offset : BitVec 13)
  | j (offset : BitVec 21)
  | jal (offset : BitVec 21)
  | jr (rs : RegNum)
  | jalr (rs : RegNum)
  | ret
  | call (offset : Word)
  | tail (offset : Word)
  | fence
  deriving DecidableEq, Repr

/-- `li`: one ADDI for a constant in the range of its immediate, else LUI and, where the low part is not 0, ADDI (R270). -/
def expandLi (rd : RegNum) (c : Word) : List Instr :=
  if (lo12 c).signExtend 32 = c then [.addi rd 0 (lo12 c)]
  else if lo12 c = 0 then [.lui rd (hi20 c)]
  else [.lui rd (hi20 c), .addi rd rd (lo12 c)]

/-- The base instructions a pseudoinstruction stands for (R268 to R274). -/
def expand (p : Pseudo) : List Instr :=
  match p with
  | .la rd delta => [.auipc rd (hi20 delta), .addi rd rd (lo12 delta)]
  | .laPic rd delta => [.auipc rd (hi20 delta), .lw rd rd (lo12 delta)]
  | .lla rd delta => [.auipc rd (hi20 delta), .addi rd rd (lo12 delta)]
  | .lbGlobal rd delta => [.auipc rd (hi20 delta), .lb rd rd (lo12 delta)]
  | .lhGlobal rd delta => [.auipc rd (hi20 delta), .lh rd rd (lo12 delta)]
  | .lwGlobal rd delta => [.auipc rd (hi20 delta), .lw rd rd (lo12 delta)]
  | .sbGlobal data delta rt => [.auipc rt (hi20 delta), .sb rt data (lo12 delta)]
  | .shGlobal data delta rt => [.auipc rt (hi20 delta), .sh rt data (lo12 delta)]
  | .swGlobal data delta rt => [.auipc rt (hi20 delta), .sw rt data (lo12 delta)]
  | .nop => [.addi 0 0 0]
  | .li rd c => expandLi rd c
  | .mv rd rs => [.addi rd rs 0]
  | .not rd rs => [.xori rd rs (-1)]
  | .neg rd rs => [.sub rd 0 rs]
  | .seqz rd rs => [.sltiu rd rs 1]
  | .snez rd rs => [.sltu rd 0 rs]
  | .sltz rd rs => [.slt rd rs 0]
  | .sgtz rd rs => [.slt rd 0 rs]
  | .beqz rs offset => [.beq rs 0 offset]
  | .bnez rs offset => [.bne rs 0 offset]
  | .blez rs offset => [.bge 0 rs offset]
  | .bgez rs offset => [.bge rs 0 offset]
  | .bltz rs offset => [.blt rs 0 offset]
  | .bgtz rs offset => [.blt 0 rs offset]
  | .bgt rs rt offset => [.blt rt rs offset]
  | .ble rs rt offset => [.bge rt rs offset]
  | .bgtu rs rt offset => [.bltu rt rs offset]
  | .bleu rs rt offset => [.bgeu rt rs offset]
  | .j offset => [.jal 0 offset]
  | .jal offset => [.jal 1 offset]
  | .jr rs => [.jalr 0 rs 0]
  | .jalr rs => [.jalr 1 rs 0]
  | .ret => [.jalr 0 1 0]
  | .call offset => [.auipc 1 (hi20 offset), .jalr 1 1 (lo12 offset)]
  | .tail offset => [.auipc 6 (hi20 offset), .jalr 0 6 (lo12 offset)]
  | .fence => [.fence 0 0b1111 0b1111 0 0]

end Sys2Proof.Machine
end

