-- ==== Sys2Proof/Machine/Environment.lean ====
section
/-! DEFINITION. The step with `ON_TRAP`'s handler function as an argument (R5, R314): the function is no plain data, so State
cannot hold it, and a claim fixes it or speaks of all through these definitions. Since a trap is precise (R306), an
instruction runs as under a fatal `ON_TRAP`, and its record then goes to the handler. -/

namespace Sys2Proof.Machine

/-- The execution of an instruction where the environment's handler function is `h`. -/
def execUnder (h : Handler) (i : Instr) (s : State) : StepOutcome :=
  match exec i (s.withOnTrap .fatal) with
  | .next t => .next (t.withOnTrap s.eei.onTrap)
  | .fault (.trap r) => s.handOver h r
  | .refused r => .refused r

/-- One step where the environment's handler function is `h` (R14, R312, R314). -/
def stepUnder (h : Handler) (s : State) : StepOutcome :=
  match s.fetch with
  | .raised e => s.handOver h (trapRecord e s.pc)
  | .refused => .refused (.fetchOfStoredBytes s.pc)
  | .word w s' =>
    match decode w with
    | .error _ => s'.handOver h (trapRecord (.illegalInstruction w) s'.pc)
    | .ok i => execUnder h i s'

/-- The state in which a step's instruction executes: `s` itself but where the fetch touches a device (R77). -/
def State.afterFetch (s : State) : State :=
  match s.fetch with
  | .word _ s' => s'
  | .raised _ => s
  | .refused => s

end Sys2Proof.Machine
end

