-- ==== Sys2Proof/Safety.lean ====
section
/-! DEFINITION. The terms the claims use: well-formed states, reachable states, and what one step may change. -/

namespace Sys2Proof.Machine

/-- The invariant of the machine: the memory is canonical, the pc is a multiple of 4 (R29), and the set of stored-to addresses
is in canonical form. -/
abbrev State.wf (s : State) : Prop :=
  Memory.wf s.mem ∧ s.pc.toNat % 4 = 0 ∧ s.written.Pairwise (· < ·) ∧ ∀ a ∈ s.written, a < 2 ^ 32

/-- Parameters a reset may be given: `RESET_PC` a multiple of 4 (R40), `INIT_MEM` in canonical form. -/
abbrev paramsOk (p : ResetParams) : Prop := Memory.wf p.initMem ∧ p.resetPc.toNat % 4 = 0

/-- The states a run from the reset state of given parameters passes through (R316). -/
inductive Reachable (p : ResetParams) : State → Prop where
  | boot : Reachable p (State.boot p)
  | step {s t : State} : Reachable p s → Sys2Proof.Machine.step s = .next t → Reachable p t

/-- The same runs in an environment whose `ON_TRAP` is the handler function `h` (where the parameters say handler, R5). -/
inductive ReachableUnder (h : Handler) (p : ResetParams) : State → Prop where
  | boot : ReachableUnder h p (State.boot p)
  | step {s t : State} : ReachableUnder h p s → stepUnder h s = .next t → ReachableUnder h p t

/-- A handler function that answers well-formed states for well-formed states (`State.wf`; R29, log entry 8). -/
def Handler.KeepsWf (h : Handler) : Prop := ∀ s r, s.wf → (h s r).wf

/-- Run instructions one after another, as straight-line code does while each goes on to the next. -/
def execAll (is : List Instr) (s : State) : StepOutcome :=
  match is with
  | [] => .next s
  | i :: rest =>
    match exec i s with
    | .next t => execAll rest t
    | .fault f => .fault f
    | .refused r => .refused r

/-- No byte of the memory differs. -/
def SameMemory (s t : State) : Prop := ∀ a, Memory.read t.mem a = Memory.read s.mem a

/-- No register other than `rd` differs. -/
def SameRegsBut (rd : RegNum) (s t : State) : Prop := ∀ r, r ≠ rd → t.readReg r = s.readReg r

/-- No register differs. -/
def SameRegs (s t : State) : Prop := ∀ r, t.readReg r = s.readReg r

/-- The set of stored-to addresses, the environment's parameters, the draw counter and the device accesses are the same. -/
def SameRest (s t : State) : Prop :=
  t.written = s.written ∧ t.eei = s.eei ∧ t.draws = s.draws ∧ t.events = s.events

/-- `t` is `s` with `v` in register `rd` (nothing there where `rd` is x0, R22); the pc is not spoken of. -/
def WritesOnly (rd : RegNum) (v : Word) (s t : State) : Prop :=
  t.readReg rd = (if rd = 0#5 then 0#32 else v) ∧ SameRegsBut rd s t ∧ SameMemory s t ∧ SameRest s t

/-- `t` is `s` but for the pc. -/
def ChangesOnlyPc (s t : State) : Prop := SameRegs s t ∧ SameMemory s t ∧ SameRest s t

/-- The byte of memory at byte `k` of an access at `a`. -/
def State.byteAt (s : State) (a : Word) (k : Nat) : Byte := Memory.read s.mem (byteAddr a k)

/-- `t` is `s` with the `n` bytes at `a` replaced by the low bytes of `v`, little-endian (R51, R57), and their addresses added to
the set of stored-to addresses (R74). -/
def StoresOnly (a : Word) (n : Nat) (v : Word) (s t : State) : Prop :=
  SameRegs s t ∧ (∀ k, k < n → t.byteAt a k = v.extractLsb' (8 * k) 8) ∧
    (∀ b, b ∉ byteAddrs a n → Memory.read t.mem b = Memory.read s.mem b) ∧
    (∀ b, b ∈ t.written ↔ b ∈ s.written ∨ b ∈ byteAddrs a n) ∧ t.eei = s.eei

/-- A data access that goes through: aligned or supported misaligned (R58), and allowed in every byte (R59). -/
abbrev State.accessOk (s : State) (kind : AccessKind) (a : Word) (n : Width) : Prop :=
  (a.toNat % n.bytes = 0 ∨ s.eei.misaligned = .support) ∧
    ∀ k, k < n.bytes → s.eei.memMap.allows (byteAddr a k) kind n = true

/-- No byte of the access is a device's. -/
abbrev State.ordinary (s : State) (a : Word) (n : Width) : Prop :=
  ∀ k, k < n.bytes → s.eei.memMap.isDevice (byteAddr a k) = false

/-- What a load or store accesses: its kind, its effective address (R211) and its width (R54). -/
def accessOf (i : Instr) (s : State) : Option (AccessKind × Word × Width) :=
  match i with
  | .lb _ rs1 imm | .lbu _ rs1 imm => some (.load, s.readReg rs1 + imm.signExtend 32, .byte)
  | .lh _ rs1 imm | .lhu _ rs1 imm => some (.load, s.readReg rs1 + imm.signExtend 32, .half)
  | .lw _ rs1 imm => some (.load, s.readReg rs1 + imm.signExtend 32, .word)
  | .sb rs1 _ imm => some (.store, s.readReg rs1 + imm.signExtend 32, .byte)
  | .sh rs1 _ imm => some (.store, s.readReg rs1 + imm.signExtend 32, .half)
  | .sw rs1 _ imm => some (.store, s.readReg rs1 + imm.signExtend 32, .word)
  | .lui _ _ | .auipc _ _ | .jal _ _ | .jalr _ _ _ => none
  | .beq _ _ _ | .bne _ _ _ | .blt _ _ _ | .bge _ _ _ | .bltu _ _ _ | .bgeu _ _ _ => none
  | .addi _ _ _ | .slti _ _ _ | .sltiu _ _ _ | .xori _ _ _ | .ori _ _ _ | .andi _ _ _ => none
  | .slli _ _ _ | .srli _ _ _ | .srai _ _ _ => none
  | .add _ _ _ | .sub _ _ _ | .sll _ _ _ | .slt _ _ _ | .sltu _ _ _ => none
  | .xor _ _ _ | .srl _ _ _ | .sra _ _ _ | .or _ _ _ | .and _ _ _ => none
  | .fence _ _ _ _ _ | .fenceTso | .pause | .ecall | .ebreak => none

/-- The name of the address-misaligned exception of a data access (R300). -/
def misalignedName (kind : AccessKind) : ExceptionName :=
  match kind with
  | .fetch => .instructionAddressMisaligned
  | .load => .loadAddressMisaligned
  | .store => .storeAddressMisaligned

/-- The name of the access fault of an access (R300). -/
def accessFaultName (kind : AccessKind) : ExceptionName :=
  match kind with
  | .fetch => .instructionAccessFault
  | .load => .loadAccessFault
  | .store => .storeAccessFault

/-- The condition of a branch, by the two's-complement or unsigned reading of its registers (R191 to R196, R9); false for every
other instruction. -/
def branchTaken (i : Instr) (s : State) : Bool :=
  match i with
  | .beq rs1 rs2 _ => decide (s.readReg rs1 = s.readReg rs2)
  | .bne rs1 rs2 _ => decide (s.readReg rs1 ≠ s.readReg rs2)
  | .blt rs1 rs2 _ => decide ((s.readReg rs1).toInt < (s.readReg rs2).toInt)
  | .bge rs1 rs2 _ => decide ((s.readReg rs1).toInt ≥ (s.readReg rs2).toInt)
  | .bltu rs1 rs2 _ => decide ((s.readReg rs1).toNat < (s.readReg rs2).toNat)
  | .bgeu rs1 rs2 _ => decide ((s.readReg rs1).toNat ≥ (s.readReg rs2).toNat)
  | .lui _ _ | .auipc _ _ | .jal _ _ | .jalr _ _ _ => false
  | .lb _ _ _ | .lh _ _ _ | .lw _ _ _ | .lbu _ _ _ | .lhu _ _ _ | .sb _ _ _ | .sh _ _ _ | .sw _ _ _ => false
  | .addi _ _ _ | .slti _ _ _ | .sltiu _ _ _ | .xori _ _ _ | .ori _ _ _ | .andi _ _ _ => false
  | .slli _ _ _ | .srli _ _ _ | .srai _ _ _ => false
  | .add _ _ _ | .sub _ _ _ | .sll _ _ _ | .slt _ _ _ | .sltu _ _ _ => false
  | .xor _ _ _ | .srl _ _ _ | .sra _ _ _ | .or _ _ _ | .and _ _ _ => false
  | .fence _ _ _ _ _ | .fenceTso | .pause | .ecall | .ebreak => false

/-- The target of a jump or branch (R27); none for the instructions that have none. -/
def targetOf (i : Instr) (s : State) : Option Word :=
  match i with
  | .jal _ offset => some (s.pc + offset.signExtend 32)
  | .jalr _ rs1 imm => some ((s.readReg rs1 + imm.signExtend 32) &&& 0xFFFFFFFE#32)
  | .beq _ _ offset | .bne _ _ offset | .blt _ _ offset | .bge _ _ offset | .bltu _ _ offset | .bgeu _ _ offset =>
      some (s.pc + offset.signExtend 32)
  | .lui _ _ | .auipc _ _ => none
  | .lb _ _ _ | .lh _ _ _ | .lw _ _ _ | .lbu _ _ _ | .lhu _ _ _ | .sb _ _ _ | .sh _ _ _ | .sw _ _ _ => none
  | .addi _ _ _ | .slti _ _ _ | .sltiu _ _ _ | .xori _ _ _ | .ori _ _ _ | .andi _ _ _ => none
  | .slli _ _ _ | .srli _ _ _ | .srai _ _ _ => none
  | .add _ _ _ | .sub _ _ _ | .sll _ _ _ | .slt _ _ _ | .sltu _ _ _ => none
  | .xor _ _ _ | .srl _ _ _ | .sra _ _ _ | .or _ _ _ | .and _ _ _ => none
  | .fence _ _ _ _ _ | .fenceTso | .pause | .ecall | .ebreak => none

/-- The instruction is a jump (JAL, JALR), which transfers control whatever its registers hold (R180). -/
def isJump (i : Instr) : Bool :=
  match i with
  | .jal _ _ | .jalr _ _ _ => true
  | .lui _ _ | .auipc _ _ => false
  | .beq _ _ _ | .bne _ _ _ | .blt _ _ _ | .bge _ _ _ | .bltu _ _ _ | .bgeu _ _ _ => false
  | .lb _ _ _ | .lh _ _ _ | .lw _ _ _ | .lbu _ _ _ | .lhu _ _ _ | .sb _ _ _ | .sh _ _ _ | .sw _ _ _ => false
  | .addi _ _ _ | .slti _ _ _ | .sltiu _ _ _ | .xori _ _ _ | .ori _ _ _ | .andi _ _ _ => false
  | .slli _ _ _ | .srli _ _ _ | .srai _ _ _ => false
  | .add _ _ _ | .sub _ _ _ | .sll _ _ _ | .slt _ _ _ | .sltu _ _ _ => false
  | .xor _ _ _ | .srl _ _ _ | .sra _ _ _ | .or _ _ _ | .and _ _ _ => false
  | .fence _ _ _ _ _ | .fenceTso | .pause | .ecall | .ebreak => false

/-- Where control goes when an instruction completes (R27): a jump and a taken branch to their target, all else to `pc + 4`. -/
def nextPc (i : Instr) (s : State) : Word :=
  match targetOf i s with
  | some t => if isJump i || branchTaken i s then t else s.pc + 4#32
  | none => s.pc + 4#32

/-- What an instruction may raise, with the value it carries (R304): the record and the condition, by instruction. -/
def MayRaise (i : Instr) (s : State) (r : TrapRecord) : Prop :=
  (∃ t, targetOf i s = some t ∧ (isJump i || branchTaken i s) = true ∧ t.toNat % 4 ≠ 0 ∧
      r = ⟨.instructionAddressMisaligned, s.pc, t⟩) ∨
  (∃ kind a n, accessOf i s = some (kind, a, n) ∧ a.toNat % n.bytes ≠ 0 ∧ s.eei.misaligned = .trap ∧
      r = ⟨misalignedName kind, s.pc, a⟩) ∨
  (∃ kind a n, accessOf i s = some (kind, a, n) ∧ (a.toNat % n.bytes = 0 ∨ s.eei.misaligned = .support) ∧
      (∃ k, k < n.bytes ∧ s.eei.memMap.allows (byteAddr a k) kind n = false) ∧ r = ⟨accessFaultName kind, s.pc, a⟩) ∨
  (i = .ecall ∧ r = ⟨.environmentCall, s.pc, 0#32⟩) ∨
  (i = .ebreak ∧ r = ⟨.breakpoint, s.pc, s.pc⟩)

/-- The byte a load or fetch sees: the memory's, or the free value of its draw where the byte is a device's (R77). -/
def State.seen (s : State) (a : Word) (k : Nat) : Byte :=
  if s.eei.memMap.isDevice (byteAddr a k) then Config.deviceByte (s.draws + k) else s.byteAt a k

/-- The four bytes at the pc as a word, the byte at the pc lowest (R67). -/
def State.wordAtPc (s : State) : Word := s.byteAt s.pc 3 ++ s.byteAt s.pc 2 ++ s.byteAt s.pc 1 ++ s.byteAt s.pc 0

/-- The fetch at the pc is allowed in all four bytes (R65). -/
abbrev State.fetchAllowed (s : State) : Prop := ∀ k, k < 4 → s.eei.memMap.allows (byteAddr s.pc k) .fetch .word = true

/-- No byte at the pc was stored to in this run (R74). -/
abbrev State.fetchClean (s : State) : Prop := ∀ k, k < 4 → byteAddr s.pc k ∉ s.written

end Sys2Proof.Machine
end

