-- ==== Sys2Proof/Certificates/Slice0/Obligations.lean ====
section
/-! DEFINITION. The statements for the provers. Each docstring names the rule of the spec it follows, and says where a statement
rests on a decision of the spec's own (92_eei_decisions.md) or on a choice of the model's (an entry of notes/assumptions). -/

open Sys2Proof Sys2Proof.Machine

/-! ### Encoding -/

/-- R115, R108: decoding the word of a well-formed instruction gives that instruction back, for all 42 constructors and every
value of every operand field. -/
def Obligations.EncodeThenDecode : Prop :=
  ∀ i : Instr, i.wf = true → decode (encode i) = .ok i

/-- R115, R108: a word that decodes is the word of the instruction it decodes to, so no bit of a legal word is dropped and no two
legal words decode alike; and what it decodes to is well formed. -/
def Obligations.DecodeThenEncode : Prop :=
  ∀ (w : Word) (i : Instr), decode w = .ok i → encode i = w ∧ i.wf = true

/-- R112, R115, R116: the rows of the table that a word matches are exactly the row of the instruction it decodes to (with the
FENCE row beside it for the two FENCE words that have names), and none where it is illegal. -/
def Obligations.DecodeAgreesWithTheTable : Prop :=
  ∀ w : Word, (opcodeRows.filter (fun r => r.matchesWord w)).map OpcodeRow.mnemonic =
    match decode w with
    | .error _ => []
    | .ok i =>
      if i = .fenceTso ∨ i = .pause then ["FENCE", i.mnemonic] else [i.mnemonic]

/-- R113, R118, R121, R122, R123: which words are RV32I instructions, by opcode, funct3, funct7 and (SYSTEM) the whole word;
every other word is illegal. -/
def Obligations.LegalWordsByFields : Prop :=
  ∀ w : Word, (∃ i, decode w = .ok i) ↔
    opcodeOf w ∈ [0b0110111#7, 0b0010111#7, 0b1101111#7] ∨
    (opcodeOf w = 0b1100111#7 ∧ funct3Of w = 0b000#3) ∨
    (opcodeOf w = 0b1100011#7 ∧ funct3Of w ∉ [0b010#3, 0b011#3]) ∨
    (opcodeOf w = 0b0000011#7 ∧ funct3Of w ∉ [0b011#3, 0b110#3, 0b111#3]) ∨
    (opcodeOf w = 0b0100011#7 ∧ funct3Of w ∈ [0b000#3, 0b001#3, 0b010#3]) ∨
    (opcodeOf w = 0b0010011#7 ∧ (funct3Of w = 0b001#3 → funct7Of w = 0b0000000#7) ∧
      (funct3Of w = 0b101#3 → funct7Of w ∈ [0b0000000#7, 0b0100000#7])) ∨
    (opcodeOf w = 0b0110011#7 ∧ (funct7Of w = 0b0000000#7 ∨
      (funct7Of w = 0b0100000#7 ∧ funct3Of w ∈ [0b000#3, 0b101#3]))) ∨
    (opcodeOf w = 0b0001111#7 ∧ funct3Of w = 0b000#3) ∨
    w = 0x00000073#32 ∨ w = 0x00100073#32

/-- R100 to R104: the five immediates, bit for bit as concatenations of instruction bits. -/
def Obligations.ImmediatesBitForBit : Prop :=
  ∀ w : Word,
    imm12 (immIOf w) = (w.extractLsb' 31 1).replicate 20 ++ w.extractLsb' 20 12 ∧
    imm12 (immSOf w) = (w.extractLsb' 31 1).replicate 20 ++ w.extractLsb' 25 7 ++ w.extractLsb' 7 5 ∧
    immB (immBOf w) = (w.extractLsb' 31 1).replicate 19 ++ w.extractLsb' 31 1 ++ w.extractLsb' 7 1 ++ w.extractLsb' 25 6
      ++ w.extractLsb' 8 4 ++ 0#1 ∧
    immU (immUOf w) = w.extractLsb' 12 20 ++ 0#12 ∧
    immJ (immJOf w) = (w.extractLsb' 31 1).replicate 11 ++ w.extractLsb' 31 1 ++ w.extractLsb' 12 8 ++ w.extractLsb' 20 1
      ++ w.extractLsb' 21 10 ++ 0#1 ∧
    (-2048 ≤ (imm12 (immIOf w)).toInt ∧ (imm12 (immIOf w)).toInt ≤ 2047) ∧
    (-2048 ≤ (imm12 (immSOf w)).toInt ∧ (imm12 (immSOf w)).toInt ≤ 2047) ∧
    (-4096 ≤ (immB (immBOf w)).toInt ∧ (immB (immBOf w)).toInt ≤ 4094 ∧ (immB (immBOf w)).toInt % 2 = 0) ∧
    (-1048576 ≤ (immJ (immJOf w)).toInt ∧ (immJ (immJOf w)).toInt ≤ 1048574 ∧ (immJ (immJOf w)).toInt % 2 = 0)

/-- R112: one word of each format, written out bit by bit, decodes to the instruction it stands for. -/
def Obligations.SampleWordsDecode : Prop :=
  decode 0b11111111111100110000001010010011#32 = .ok (.addi 5 6 (-1)) ∧
  decode 0b01000000011100110000001010110011#32 = .ok (.sub 5 6 7) ∧
  decode 0b00010010001101000101001010110111#32 = .ok (.lui 5 0x12345) ∧
  decode 0b11111111110111111111000001101111#32 = .ok (.jal 0 (-4)) ∧
  decode 0b11111110011100110001100011100011#32 = .ok (.bne 6 7 (-16)) ∧
  decode 0b11111111110000110010001010000011#32 = .ok (.lw 5 6 (-4)) ∧
  decode 0b11111110011100110010111000100011#32 = .ok (.sw 6 7 (-4)) ∧
  decode 0b00001111111100000000000000001111#32 = .ok (.fence 0 15 15 0 0) ∧
  decode 0b00000000000100000000000001110011#32 = .ok .ebreak

/-! ### Integer computational instructions -/

/-- R142, R145, R146, R147: ADDI, ANDI, ORI and XORI, encoded as the rules say, write the sum modulo 2^32 or the bitwise
combination with the sign-extended immediate to `rd`, go on at `pc + 4` and change nothing else. -/
def Obligations.AddAndLogicalImmediateResults : Prop :=
  ∀ (rd rs1 : RegNum) (imm : BitVec 12) (s : State),
    (decode (imm ++ rs1 ++ 0b000#3 ++ rd ++ 0b0010011#7) = .ok (.addi rd rs1 imm) ∧
      ∃ t, exec (.addi rd rs1 imm) s = .next t ∧ t.pc = s.pc + 4#32 ∧
        WritesOnly rd (BitVec.ofInt 32 ((s.readReg rs1).toInt + imm.toInt)) s t) ∧
    (decode (imm ++ rs1 ++ 0b111#3 ++ rd ++ 0b0010011#7) = .ok (.andi rd rs1 imm) ∧
      ∃ t v, exec (.andi rd rs1 imm) s = .next t ∧ t.pc = s.pc + 4#32 ∧ WritesOnly rd v s t ∧
        ∀ k, k < 32 → v.getLsbD k = ((s.readReg rs1).getLsbD k && imm.getLsbD (min k 11))) ∧
    (decode (imm ++ rs1 ++ 0b110#3 ++ rd ++ 0b0010011#7) = .ok (.ori rd rs1 imm) ∧
      ∃ t v, exec (.ori rd rs1 imm) s = .next t ∧ t.pc = s.pc + 4#32 ∧ WritesOnly rd v s t ∧
        ∀ k, k < 32 → v.getLsbD k = ((s.readReg rs1).getLsbD k || imm.getLsbD (min k 11))) ∧
    (decode (imm ++ rs1 ++ 0b100#3 ++ rd ++ 0b0010011#7) = .ok (.xori rd rs1 imm) ∧
      ∃ t v, exec (.xori rd rs1 imm) s = .next t ∧ t.pc = s.pc + 4#32 ∧ WritesOnly rd v s t ∧
        ∀ k, k < 32 → v.getLsbD k = ((s.readReg rs1).getLsbD k ^^ imm.getLsbD (min k 11)))

/-- R143, R155, R156: SLTI, SLT and SLTU write 1 or 0 by an exact comparison of the two's-complement (SLTU: unsigned) readings.
That signed means two's complement is the spec's own reading (R9, G1 of 93_implementation_defined.md). -/
def Obligations.SetIfLessThanResults : Prop :=
  ∀ (rd rs1 rs2 : RegNum) (imm : BitVec 12) (s : State),
    (decode (imm ++ rs1 ++ 0b010#3 ++ rd ++ 0b0010011#7) = .ok (.slti rd rs1 imm) ∧
      ∃ t, exec (.slti rd rs1 imm) s = .next t ∧ t.pc = s.pc + 4#32 ∧
        WritesOnly rd (if (s.readReg rs1).toInt < imm.toInt then 1#32 else 0#32) s t) ∧
    (decode (0b0000000#7 ++ rs2 ++ rs1 ++ 0b010#3 ++ rd ++ 0b0110011#7) = .ok (.slt rd rs1 rs2) ∧
      ∃ t, exec (.slt rd rs1 rs2) s = .next t ∧ t.pc = s.pc + 4#32 ∧
        WritesOnly rd (if (s.readReg rs1).toInt < (s.readReg rs2).toInt then 1#32 else 0#32) s t) ∧
    (decode (0b0000000#7 ++ rs2 ++ rs1 ++ 0b011#3 ++ rd ++ 0b0110011#7) = .ok (.sltu rd rs1 rs2) ∧
      ∃ t, exec (.sltu rd rs1 rs2) s = .next t ∧ t.pc = s.pc + 4#32 ∧
        WritesOnly rd (if (s.readReg rs1).toNat < (s.readReg rs2).toNat then 1#32 else 0#32) s t)

/-- R144 with the spec's decision D23: SLTIU sign-extends its immediate, then compares unsigned. -/
def Obligations.SltiuComparesUnsignedAfterSignExtension : Prop :=
  ∀ (rd rs1 : RegNum) (imm : BitVec 12) (s : State),
    decode (imm ++ rs1 ++ 0b011#3 ++ rd ++ 0b0010011#7) = .ok (.sltiu rd rs1 imm) ∧
    ∃ t, exec (.sltiu rd rs1 imm) s = .next t ∧ t.pc = s.pc + 4#32 ∧
      WritesOnly rd (if ((s.readReg rs1).toNat : Int) < imm.toInt % 2 ^ 32 then 1#32 else 0#32) s t

/-- R148, R149: SLLI and SRLI multiply and divide by the power of two of the 5-bit amount; a word with SLLI's opcode and funct3
whose `inst[31:25]` is not 0 is illegal. -/
def Obligations.LogicalShiftImmediateResults : Prop :=
  ∀ (rd rs1 : RegNum) (shamt : BitVec 5) (s : State),
    (decode (0b0000000#7 ++ shamt ++ rs1 ++ 0b001#3 ++ rd ++ 0b0010011#7) = .ok (.slli rd rs1 shamt) ∧
      ∃ t, exec (.slli rd rs1 shamt) s = .next t ∧ t.pc = s.pc + 4#32 ∧
        WritesOnly rd (BitVec.ofNat 32 ((s.readReg rs1).toNat * 2 ^ shamt.toNat)) s t) ∧
    (decode (0b0000000#7 ++ shamt ++ rs1 ++ 0b101#3 ++ rd ++ 0b0010011#7) = .ok (.srli rd rs1 shamt) ∧
      ∃ t, exec (.srli rd rs1 shamt) s = .next t ∧ t.pc = s.pc + 4#32 ∧
        WritesOnly rd (BitVec.ofNat 32 ((s.readReg rs1).toNat / 2 ^ shamt.toNat)) s t) ∧
    ∀ f7 : BitVec 7, f7 ≠ 0b0000000#7 → ∃ e, decode (f7 ++ shamt ++ rs1 ++ 0b001#3 ++ rd ++ 0b0010011#7) = .error e

/-- R150, R162 with R10: SRAI and SRA fill with copies of the sign bit, which is division of the signed reading by the power of
two, rounded toward minus infinity; SRA takes the low 5 bits of the amount. What an arithmetic shift fills with is the spec's own
reading (R10, 93_implementation_defined.md part 2). -/
def Obligations.ArithmeticShiftResults : Prop :=
  ∀ (rd rs1 rs2 : RegNum) (shamt : BitVec 5) (s : State),
    (decode (0b0100000#7 ++ shamt ++ rs1 ++ 0b101#3 ++ rd ++ 0b0010011#7) = .ok (.srai rd rs1 shamt) ∧
      ∃ t, exec (.srai rd rs1 shamt) s = .next t ∧ t.pc = s.pc + 4#32 ∧
        WritesOnly rd (BitVec.ofInt 32 ((s.readReg rs1).toInt / 2 ^ shamt.toNat)) s t) ∧
    (decode (0b0100000#7 ++ rs2 ++ rs1 ++ 0b101#3 ++ rd ++ 0b0110011#7) = .ok (.sra rd rs1 rs2) ∧
      ∃ t, exec (.sra rd rs1 rs2) s = .next t ∧ t.pc = s.pc + 4#32 ∧
        WritesOnly rd (BitVec.ofInt 32 ((s.readReg rs1).toInt / 2 ^ ((s.readReg rs2).toNat % 32))) s t)

/-- R160, R161: SLL and SRL shift by the low 5 bits of the second register. -/
def Obligations.LogicalShiftResults : Prop :=
  ∀ (rd rs1 rs2 : RegNum) (s : State),
    (decode (0b0000000#7 ++ rs2 ++ rs1 ++ 0b001#3 ++ rd ++ 0b0110011#7) = .ok (.sll rd rs1 rs2) ∧
      ∃ t, exec (.sll rd rs1 rs2) s = .next t ∧ t.pc = s.pc + 4#32 ∧
        WritesOnly rd (BitVec.ofNat 32 ((s.readReg rs1).toNat * 2 ^ ((s.readReg rs2).toNat % 32))) s t) ∧
    (decode (0b0000000#7 ++ rs2 ++ rs1 ++ 0b101#3 ++ rd ++ 0b0110011#7) = .ok (.srl rd rs1 rs2) ∧
      ∃ t, exec (.srl rd rs1 rs2) s = .next t ∧ t.pc = s.pc + 4#32 ∧
        WritesOnly rd (BitVec.ofNat 32 ((s.readReg rs1).toNat / 2 ^ ((s.readReg rs2).toNat % 32))) s t)

/-- R151, R152: LUI writes the 20-bit operand times 4096; AUIPC adds that to the AUIPC's own address, modulo 2^32. -/
def Obligations.UpperImmediateResults : Prop :=
  ∀ (rd : RegNum) (imm20 : BitVec 20) (s : State),
    (decode (imm20 ++ rd ++ 0b0110111#7) = .ok (.lui rd imm20) ∧
      ∃ t, exec (.lui rd imm20) s = .next t ∧ t.pc = s.pc + 4#32 ∧
        WritesOnly rd (BitVec.ofNat 32 (imm20.toNat * 4096)) s t) ∧
    (decode (imm20 ++ rd ++ 0b0010111#7) = .ok (.auipc rd imm20) ∧
      ∃ t, exec (.auipc rd imm20) s = .next t ∧ t.pc = s.pc + 4#32 ∧
        WritesOnly rd (BitVec.ofNat 32 (s.pc.toNat + imm20.toNat * 4096)) s t)

/-- R153, R154: ADD and SUB write the low 32 bits of the exact sum and difference. -/
def Obligations.AddAndSubResults : Prop :=
  ∀ (rd rs1 rs2 : RegNum) (s : State),
    (decode (0b0000000#7 ++ rs2 ++ rs1 ++ 0b000#3 ++ rd ++ 0b0110011#7) = .ok (.add rd rs1 rs2) ∧
      ∃ t, exec (.add rd rs1 rs2) s = .next t ∧ t.pc = s.pc + 4#32 ∧
        WritesOnly rd (BitVec.ofInt 32 ((s.readReg rs1).toInt + (s.readReg rs2).toInt)) s t) ∧
    (decode (0b0100000#7 ++ rs2 ++ rs1 ++ 0b000#3 ++ rd ++ 0b0110011#7) = .ok (.sub rd rs1 rs2) ∧
      ∃ t, exec (.sub rd rs1 rs2) s = .next t ∧ t.pc = s.pc + 4#32 ∧
        WritesOnly rd (BitVec.ofInt 32 ((s.readReg rs1).toInt - (s.readReg rs2).toInt)) s t)

/-- R157, R158, R159: AND, OR and XOR, bit by bit. -/
def Obligations.LogicalRegisterResults : Prop :=
  ∀ (rd rs1 rs2 : RegNum) (s : State),
    (decode (0b0000000#7 ++ rs2 ++ rs1 ++ 0b111#3 ++ rd ++ 0b0110011#7) = .ok (.and rd rs1 rs2) ∧
      ∃ t v, exec (.and rd rs1 rs2) s = .next t ∧ t.pc = s.pc + 4#32 ∧ WritesOnly rd v s t ∧
        ∀ k, k < 32 → v.getLsbD k = ((s.readReg rs1).getLsbD k && (s.readReg rs2).getLsbD k)) ∧
    (decode (0b0000000#7 ++ rs2 ++ rs1 ++ 0b110#3 ++ rd ++ 0b0110011#7) = .ok (.or rd rs1 rs2) ∧
      ∃ t v, exec (.or rd rs1 rs2) s = .next t ∧ t.pc = s.pc + 4#32 ∧ WritesOnly rd v s t ∧
        ∀ k, k < 32 → v.getLsbD k = ((s.readReg rs1).getLsbD k || (s.readReg rs2).getLsbD k)) ∧
    (decode (0b0000000#7 ++ rs2 ++ rs1 ++ 0b100#3 ++ rd ++ 0b0110011#7) = .ok (.xor rd rs1 rs2) ∧
      ∃ t v, exec (.xor rd rs1 rs2) s = .next t ∧ t.pc = s.pc + 4#32 ∧ WritesOnly rd v s t ∧
        ∀ k, k < 32 → v.getLsbD k = ((s.readReg rs1).getLsbD k ^^ (s.readReg rs2).getLsbD k))

/-- R163: the word 0x00000013 is ADDI with x0 and 0; it, and every other computational instruction (one that neither accesses
memory nor has a target) whose destination is x0, changes nothing but the pc, to `pc + 4`. -/
def Obligations.NopChangesOnlyThePc : Prop :=
  decode 0x00000013#32 = .ok (.addi 0#5 0#5 0#12) ∧
  ∀ (i : Instr) (s : State), destReg i = some 0#5 → accessOf i s = none → targetOf i s = none →
    ∃ t, exec i s = .next t ∧ t.pc = s.pc + 4#32 ∧ ChangesOnlyPc s t

/-- R22: register 0 reads as zero whatever is written to it; a write to it changes nothing, a write to another register changes
that register alone. -/
def Obligations.ZeroRegisterIsHardWired : Prop :=
  ∀ (s : State) (v : Word),
    s.readReg 0#5 = 0#32 ∧ s.writeReg 0#5 v = s ∧
    ∀ r : RegNum, r ≠ 0#5 → (s.writeReg r v).readReg r = v ∧ ∀ q : RegNum, q ≠ r → (s.writeReg r v).readReg q = s.readReg q

/-! ### Control transfer -/

/-- R183, R184, R182: with a target that is a multiple of 4, JAL and JALR write `pc + 4` to `rd` (nothing for x0) and go to the
target; JALR reads its base before it writes `rd`, and clears bit 0 of the sum. Addresses wrap by the spec's decision D12. -/
def Obligations.JumpsLinkAndTransfer : Prop :=
  ∀ (rd rs1 : RegNum) (offset : BitVec 21) (imm : BitVec 12) (s : State),
    ((s.pc + offset.signExtend 32).toNat % 4 = 0 →
      ∃ t, exec (.jal rd offset) s = .next t ∧ t.pc = s.pc + offset.signExtend 32 ∧ WritesOnly rd (s.pc + 4#32) s t) ∧
    ((s.readReg rs1 + imm.signExtend 32).toNat % 4 < 2 →
      ∃ t, exec (.jalr rd rs1 imm) s = .next t ∧
        t.pc.toNat = (s.readReg rs1 + imm.signExtend 32).toNat / 2 * 2 ∧ WritesOnly rd (s.pc + 4#32) s t)

/-- R190 to R196: a branch goes to its target where its condition holds and to `pc + 4` where not, and changes nothing else.
That BLT and BGE compare by the two's-complement reading is the spec's own reading (R9). -/
def Obligations.BranchesFollowTheirConditions : Prop :=
  ∀ (rs1 rs2 : RegNum) (offset : BitVec 13) (s : State) (i : Instr),
    i ∈ [Instr.beq rs1 rs2 offset, .bne rs1 rs2 offset, .blt rs1 rs2 offset, .bge rs1 rs2 offset, .bltu rs1 rs2 offset,
      .bgeu rs1 rs2 offset] →
    (branchTaken i s = true → (s.pc + offset.signExtend 32).toNat % 4 = 0 →
      ∃ t, exec i s = .next t ∧ t.pc = s.pc + offset.signExtend 32 ∧ ChangesOnlyPc s t) ∧
    (branchTaken i s = false → ∃ t, exec i s = .next t ∧ t.pc = s.pc + 4#32 ∧ ChangesOnlyPc s t)

/-- R181 with the spec's decisions D7 and D11: a jump, or a branch whose condition holds, with a target that is no multiple of 4
traps with the target as info and the jump's own address as pc. -/
def Obligations.MisalignedTargetsTrap : Prop :=
  ∀ (i : Instr) (s : State) (t : Word), s.eei.onTrap = .fatal → targetOf i s = some t →
    (isJump i || branchTaken i s) = true → t.toNat % 4 ≠ 0 →
    exec i s = .fault (.trap ⟨.instructionAddressMisaligned, s.pc, t⟩)

/-- R27: where an instruction that completes leaves the pc: at `pc + 4`, but for JAL, JALR and a taken branch, at their targets. -/
def Obligations.CompletedInstructionsSetThePcOnce : Prop :=
  ∀ (i : Instr) (s t : State), s.eei.onTrap = .fatal → exec i s = .next t → t.pc = nextPc i s

/-! ### Loads and stores -/

/-- R215 to R219, R213, R51: a load that is aligned (or supported misaligned) and allowed, from ordinary memory, writes the
little-endian value, extended as its rule says, to `rd`. The byte-by-byte meaning of little-endian is the spec's own reading
(R51). -/
def Obligations.LoadsReadLittleEndian : Prop :=
  ∀ (rd rs1 : RegNum) (imm : BitVec 12) (s : State) (a : Word), a = s.readReg rs1 + imm.signExtend 32 →
    (s.accessOk .load a .word → s.ordinary a .word →
      ∃ t, exec (.lw rd rs1 imm) s = .next t ∧ t.pc = s.pc + 4#32 ∧
        WritesOnly rd (s.byteAt a 3 ++ s.byteAt a 2 ++ s.byteAt a 1 ++ s.byteAt a 0) s t) ∧
    (s.accessOk .load a .half → s.ordinary a .half →
      (∃ t, exec (.lh rd rs1 imm) s = .next t ∧ t.pc = s.pc + 4#32 ∧
        WritesOnly rd ((s.byteAt a 1 ++ s.byteAt a 0).signExtend 32) s t) ∧
      ∃ t, exec (.lhu rd rs1 imm) s = .next t ∧ t.pc = s.pc + 4#32 ∧
        WritesOnly rd (0#16 ++ (s.byteAt a 1 ++ s.byteAt a 0)) s t) ∧
    (s.accessOk .load a .byte → s.ordinary a .byte →
      (∃ t, exec (.lb rd rs1 imm) s = .next t ∧ t.pc = s.pc + 4#32 ∧
        WritesOnly rd ((s.byteAt a 0).signExtend 32) s t) ∧
      ∃ t, exec (.lbu rd rs1 imm) s = .next t ∧ t.pc = s.pc + 4#32 ∧
        WritesOnly rd (0#24 ++ s.byteAt a 0) s t)

/-- R77, R62, D30 with the model's choice of log entry 10: a load that touches a device completes too, sees a free value in each
byte that is a device's and memory in the others, and changes besides `rd` and the pc only the draw counter and the events. -/
def Obligations.DeviceLoadsSeeFreeValues : Prop :=
  ∀ (rd rs1 : RegNum) (imm : BitVec 12) (s : State) (a : Word) (i : Instr) (n : Width) (v : Word),
    a = s.readReg rs1 + imm.signExtend 32 →
    (i, n, v) ∈ [(Instr.lw rd rs1 imm, Width.word, s.seen a 3 ++ s.seen a 2 ++ s.seen a 1 ++ s.seen a 0),
      (.lh rd rs1 imm, .half, (s.seen a 1 ++ s.seen a 0).signExtend 32),
      (.lhu rd rs1 imm, .half, 0#16 ++ (s.seen a 1 ++ s.seen a 0)),
      (.lb rd rs1 imm, .byte, (s.seen a 0).signExtend 32), (.lbu rd rs1 imm, .byte, 0#24 ++ s.seen a 0)] →
    s.accessOk .load a n → ¬ s.ordinary a n →
      ∃ t, exec i s = .next t ∧ t.pc = s.pc + 4#32 ∧ t.written = s.written ∧ t.eei = s.eei ∧
        t.readReg rd = (if rd = 0#5 then 0#32 else v) ∧ SameRegsBut rd s t ∧ SameMemory s t ∧
        t.draws = s.draws + n.bytes ∧
        t.events = s.events ++ s.accessEvents .load a n ((List.range n.bytes).map (s.seen a))

/-- R61, R77 with the model's choice of log entry 10: an aligned access to a device is one event of its own width, whose value
has the bytes of the access, the one at the lowest address lowest; a misaligned one is an event of one byte for each byte `k`
of the access that is a device's, at `a + k` with that byte, in an order that is free: a permutation of the ascending order,
and every permutation has a number that names it. -/
def Obligations.DeviceEventsOfAnAccess : Prop :=
  ∀ (s : State) (kind : AccessKind) (a : Word) (n : Width) (bytes : List Byte) (ascending : List DeviceEvent),
    bytes.length = n.bytes →
    ascending = ((List.range n.bytes).filter (fun k => s.eei.memMap.isDevice (byteAddr a k))).map
      (fun k => ⟨kind, a + BitVec.ofNat 32 k, .byte, 0#24 ++ bytes.getD k 0#8⟩) →
    (a.toNat % n.bytes = 0 → ∃ v, s.accessEvents kind a n bytes = [⟨kind, a, n, v⟩] ∧
      ∀ k, k < 4 → v.extractLsb' (8 * k) 8 = bytes.getD k 0#8) ∧
    (a.toNat % n.bytes ≠ 0 → s.accessEvents kind a n bytes = permuteBy (Config.byteOrder s.draws) ascending) ∧
    (∀ number, (permuteBy number ascending).Perm ascending) ∧
    ∀ order : List DeviceEvent, order.Perm ascending → ∃ number, permuteBy number ascending = order

/-- R220 to R222, R213, R51, R57: a store that is aligned (or supported misaligned) and allowed, to ordinary memory, puts the low
bytes of the data register at `x[rs1] + imm_s`, little-endian (R51's own reading of the word); every other byte and every
register stay. The stored-to set is the spec's decision D17. The premise `s.wf` is kept by every step (`StepKeepsTheInvariant`). -/
def Obligations.StoresWriteLittleEndian : Prop :=
  ∀ (rs1 rs2 : RegNum) (imm : BitVec 12) (s : State) (a : Word), s.wf → a = s.readReg rs1 + imm.signExtend 32 →
    (s.accessOk .store a .word → s.ordinary a .word →
      ∃ t, exec (.sw rs1 rs2 imm) s = .next t ∧ t.pc = s.pc + 4#32 ∧ StoresOnly a 4 (s.readReg rs2) s t ∧
        t.draws = s.draws ∧ t.events = s.events) ∧
    (s.accessOk .store a .half → s.ordinary a .half →
      ∃ t, exec (.sh rs1 rs2 imm) s = .next t ∧ t.pc = s.pc + 4#32 ∧ StoresOnly a 2 (s.readReg rs2) s t ∧
        t.draws = s.draws ∧ t.events = s.events) ∧
    (s.accessOk .store a .byte → s.ordinary a .byte →
      ∃ t, exec (.sb rs1 rs2 imm) s = .next t ∧ t.pc = s.pc + 4#32 ∧ StoresOnly a 1 (s.readReg rs2) s t ∧
        t.draws = s.draws ∧ t.events = s.events)

/-- D30, R77 with the model's choices of log entries 10 and 11: a store that touches a device completes, with its bytes for the
environment to see. The premise `s.wf` is kept by every step (`StepKeepsTheInvariant`). -/
def Obligations.DeviceStoresAreSeen : Prop :=
  ∀ (rs1 rs2 : RegNum) (imm : BitVec 12) (s : State) (a : Word) (i : Instr) (n : Width), s.wf →
    a = s.readReg rs1 + imm.signExtend 32 →
    (i, n) ∈ [(Instr.sw rs1 rs2 imm, Width.word), (.sh rs1 rs2 imm, .half), (.sb rs1 rs2 imm, .byte)] →
    s.accessOk .store a n → ¬ s.ordinary a n →
      ∃ t, exec i s = .next t ∧ t.pc = s.pc + 4#32 ∧ StoresOnly a n.bytes (s.readReg rs2) s t ∧
        t.draws = s.draws + n.bytes ∧
        t.events = s.events ++ s.accessEvents .store a n
          ((List.range n.bytes).map (fun k => (s.readReg rs2).extractLsb' (8 * k) 8))

/-- R56, R57, R58, R60 with the spec's decisions D6, D7, D10: under policy `trap` a load or store that is not naturally aligned
traps with its own misaligned exception, whatever the map says of its bytes. -/
def Obligations.MisalignedAccessesTrap : Prop :=
  ∀ (i : Instr) (s : State) (kind : AccessKind) (a : Word) (n : Width), s.eei.onTrap = .fatal →
    accessOf i s = some (kind, a, n) → a.toNat % n.bytes ≠ 0 → s.eei.misaligned = .trap →
    exec i s = .fault (.trap ⟨misalignedName kind, s.pc, a⟩)

/-- R56, R57, R59 with the spec's decisions D5, D7, D10: an access that passes the alignment check and has a denied byte traps
with the access fault of its kind, the effective address as info. -/
def Obligations.DeniedAccessesTrap : Prop :=
  ∀ (i : Instr) (s : State) (kind : AccessKind) (a : Word) (n : Width) (k : Nat), s.eei.onTrap = .fatal →
    accessOf i s = some (kind, a, n) → (a.toNat % n.bytes = 0 ∨ s.eei.misaligned = .support) →
    k < n.bytes → s.eei.memMap.allows (byteAddr a k) kind n = false →
    exec i s = .fault (.trap ⟨accessFaultName kind, s.pc, a⟩)

/-- R55: what naturally aligned means at each width, and that a naturally aligned load or store never raises an
address-misaligned exception, whatever the environment. -/
def Obligations.NaturallyAlignedNeverMisaligned : Prop :=
  (∀ a : Word, naturallyAligned a .byte = true ∧ (naturallyAligned a .half = true ↔ a.getLsbD 0 = false) ∧
    (naturallyAligned a .word = true ↔ a.getLsbD 0 = false ∧ a.getLsbD 1 = false)) ∧
  (∀ (s : State) (a : Word) (n : Width) (e : Exception), naturallyAligned a n = true → s.memRead a n = .error e →
    e.name ≠ .loadAddressMisaligned ∧ e.name ≠ .storeAddressMisaligned) ∧
  (∀ (s : State) (a v : Word) (n : Width) (e : Exception), naturallyAligned a n = true → s.memWrite a n v = .error e →
    e.name ≠ .loadAddressMisaligned ∧ e.name ≠ .storeAddressMisaligned) ∧
  ∀ (i : Instr) (s : State) (kind : AccessKind) (a : Word) (n : Width) (r : TrapRecord),
    accessOf i s = some (kind, a, n) → naturallyAligned a n = true → exec i s = .fault (.trap r) →
    r.name ≠ .loadAddressMisaligned ∧ r.name ≠ .storeAddressMisaligned

/-- R63: a load to x0 does all that the same load to another register does (it raises the same exception, or ends with the same
pc, memory, draws and events), and leaves every register as it was. -/
def Obligations.LoadsToZeroRegisterArePerformed : Prop :=
  ∀ (load : RegNum → RegNum → BitVec 12 → Instr) (rd rs1 : RegNum) (imm : BitVec 12) (s : State),
    load ∈ [Instr.lb, Instr.lh, Instr.lw, Instr.lbu, Instr.lhu] →
    (∃ e : Exception, exec (load rd rs1 imm) s = s.raise e ∧ exec (load 0#5 rs1 imm) s = s.raise e) ∨
    ∃ t, exec (load rd rs1 imm) s = .next t ∧ exec (load 0#5 rs1 imm) s = .next { t with regs := s.regs }

/-- R52: after a store of a word, a load of the word gives it back, and a load of a byte or halfword inside it gives the part at
that place. -/
def Obligations.NarrowLoadsAfterWordStore : Prop :=
  ∀ (rs1 rs2 rd : RegNum) (imm : BitVec 12) (s t : State) (a : Word), s.wf → a = s.readReg rs1 + imm.signExtend 32 →
    a.toNat % 4 = 0 → (∀ n, s.accessOk .load a n) → s.ordinary a .word → rd ≠ 0#5 →
    exec (.sw rs1 rs2 imm) s = .next t → s.eei.onTrap = .fatal →
    (∃ u, exec (.lw rd rs1 imm) t = .next u ∧ u.readReg rd = s.readReg rs2) ∧
    (∃ u, exec (.lbu rd rs1 imm) t = .next u ∧ u.readReg rd = 0#24 ++ (s.readReg rs2).extractLsb' 0 8) ∧
    (∃ u, exec (.lhu rd rs1 imm) t = .next u ∧ u.readReg rd = 0#16 ++ (s.readReg rs2).extractLsb' 0 16) ∧
    (∀ off : BitVec 12, s.readReg rs1 + off.signExtend 32 = a + 2#32 → s.accessOk .load (a + 2#32) .half →
      ∃ u, exec (.lhu rd rs1 off) t = .next u ∧ u.readReg rd = 0#16 ++ (s.readReg rs2).extractLsb' 16 16) ∧
    ∀ (off : BitVec 12) (k : Nat), s.readReg rs1 + off.signExtend 32 = a + BitVec.ofNat 32 k → k < 4 →
      s.eei.memMap.allows (a + BitVec.ofNat 32 k).toNat .load .byte = true →
      ∃ u, exec (.lbu rd rs1 off) t = .next u ∧ u.readReg rd = 0#24 ++ (s.readReg rs2).extractLsb' (8 * k) 8

/-- R52: a store of one byte inside an aligned word changes that byte of the word a load then gives, and no other. -/
def Obligations.ByteStoreChangesOneByteOfAWord : Prop :=
  ∀ (rs1 rs2 rd : RegNum) (imm off : BitVec 12) (s t : State) (a : Word) (k j : Nat), s.wf →
    a = s.readReg rs1 + imm.signExtend 32 → a.toNat % 4 = 0 → s.accessOk .load a .word → s.ordinary a .word → rd ≠ 0#5 →
    s.readReg rs1 + off.signExtend 32 = a + BitVec.ofNat 32 k → k < 4 → j < 4 → s.eei.onTrap = .fatal →
    exec (.sb rs1 rs2 off) s = .next t →
    ∃ u, exec (.lw rd rs1 imm) t = .next u ∧ (u.readReg rd).extractLsb' (8 * j) 8 =
      if j = k then (s.readReg rs2).extractLsb' 0 8 else s.byteAt a j

/-! ### Fences, environment calls, traps -/

/-- R242 to R244 with the spec's decision D15: every FENCE, FENCE.TSO and PAUSE changes the pc alone, and is not to be told from
`addi x0, x0, 0`. -/
def Obligations.FencesChangeOnlyThePc : Prop :=
  ∀ (i : Instr) (fm pred succ : BitVec 4) (rs1 rd : RegNum) (s : State),
    i ∈ [Instr.fence fm pred succ rs1 rd, .fenceTso, .pause] →
    (∃ t, exec i s = .next t ∧ t.pc = s.pc + 4#32 ∧ ChangesOnlyPc s t) ∧ exec i s = exec (.addi 0#5 0#5 0#12) s

/-- R256, R257 with the spec's decisions D7 and D16: under the spec's `ON_TRAP` (fatal) ECALL and EBREAK end the run with their
records; the state is the one before. -/
def Obligations.EcallAndEbreakTrap : Prop :=
  ∀ s : State, s.eei.onTrap = .fatal →
    exec .ecall s = .fault (.trap ⟨.environmentCall, s.pc, 0#32⟩) ∧
    exec .ebreak s = .fault (.trap ⟨.breakpoint, s.pc, s.pc⟩)

/-- R256, R257, R314: where the environment attaches a handler, ECALL and EBREAK complete in the state the handler answers. What
the handler answers is free (log entry 8); the pc is a multiple of 4, and the set of stored-to bytes stays. -/
def Obligations.EcallAndEbreakResumeInTheHandler : Prop :=
  ∀ (i : Instr) (s : State) (r : TrapRecord), s.eei.onTrap = .handler →
    (i = .ecall ∧ r = ⟨.environmentCall, s.pc, 0#32⟩) ∨ (i = .ebreak ∧ r = ⟨.breakpoint, s.pc, s.pc⟩) →
    ∃ t, exec i s = .next t ∧ t.regs = (Config.onTrap s.draws s.regs s.pc s.mem r).regs ∧
      t.pc = (Config.onTrap s.draws s.regs s.pc s.mem r).pcIndex ++ 0#2 ∧ t.pc.toNat % 4 = 0 ∧
      t.mem = Memory.writeEach s.mem (Config.onTrap s.draws s.regs s.pc s.mem r).writes ∧
      t.written = s.written ∧ t.eei = s.eei ∧ t.draws = s.draws + 1 ∧ t.events = s.events

/-- R5, R314 with the model's choices of log entries 8 and 16: `ON_TRAP`'s handler function may be any function from the state and
the trap record to a state, and `step` and `exec` are the step and the execution under the free one. Whatever the function, it
changes only what happens at a trap, those of the fetch and of the decoding included: what completes or is refused under a fatal
`ON_TRAP` does so under the handler, and what traps goes on in the state the function gives for the state after the fetch (`s`
itself, but for the draws and events of a fetch that touches a device) and the same record. -/
def Obligations.HandlerTakesEveryTrap : Prop :=
  (∀ s : State, step s = stepUnder State.resume s) ∧
  (∀ (i : Instr) (s : State), exec i s = execUnder State.resume i s) ∧
  (∀ s : State, s.afterFetch = { s with draws := s.afterFetch.draws, events := s.afterFetch.events } ∧
    (s.ordinary s.pc .word ∨ ¬ s.fetchAllowed → s.afterFetch = s)) ∧
  ∀ (h : Handler) (s : State), s.eei.onTrap = .fatal →
    stepUnder h s = step s ∧
    (match step s with
      | .next t => stepUnder h (s.withOnTrap .handler) = .next (t.withOnTrap .handler)
      | .fault (.trap r) => stepUnder h (s.withOnTrap .handler) = .next (h (s.withOnTrap .handler).afterFetch r)
      | .refused r => stepUnder h (s.withOnTrap .handler) = .refused r) ∧
    ∀ i : Instr, match exec i s with
      | .next t => execUnder h i (s.withOnTrap .handler) = .next (t.withOnTrap .handler)
      | .fault (.trap r) => execUnder h i (s.withOnTrap .handler) = .next (h (s.withOnTrap .handler) r)
      | .refused _ => False

/-- R304, R306, R311 with the spec's decisions D6 to D11: an executing instruction traps exactly where the table says, with the
record it says: the instruction's own pc, and the target, the effective address, 0 or the pc as info. -/
def Obligations.TrapsExactlyAsTabulated : Prop :=
  ∀ (i : Instr) (s : State) (r : TrapRecord), s.eei.onTrap = .fatal →
    (exec i s = .fault (.trap r) ↔ MayRaise i s r)

/-! ### The step -/

/-- R14, R65, R67: where the four bytes at the pc are ordinary memory, may be fetched, were not stored to and decode to an
instruction, the step is that instruction's execution in the same state. The byte order of the fetch is the spec's decision D13. -/
def Obligations.StepRunsTheDecodedInstruction : Prop :=
  ∀ (s : State) (i : Instr), s.pc.toNat % 4 = 0 → s.fetchAllowed → s.fetchClean → s.ordinary s.pc .word →
    decode s.wordAtPc = .ok i → i.wf = true ∧ step s = exec i s

/-- R117, R302 with the spec's decision D8: where the four bytes that the fetch sees decode to nothing, the step traps with the
word as info; where a handler is attached it resumes from the state after the fetch, which is `s` itself, but for the draws and
the event of a fetch that touches a device (the model's choices of log entries 8, 10 and 16). -/
def Obligations.StepTrapsOnIllegalWords : Prop :=
  ∀ (s : State) (w : Word) (e : Illegal), s.pc.toNat % 4 = 0 → s.fetchAllowed → s.fetchClean →
    w = s.seen s.pc 3 ++ s.seen s.pc 2 ++ s.seen s.pc 1 ++ s.seen s.pc 0 → decode w = .error e →
    (s.eei.onTrap = .fatal → step s = .fault (.trap ⟨.illegalInstruction, s.pc, w⟩)) ∧
    (s.eei.onTrap = .handler → step s = .next (s.afterFetch.resume ⟨.illegalInstruction, s.pc, w⟩)) ∧
    (s.ordinary s.pc .word → w = s.wordAtPc ∧ s.afterFetch = s) ∧
    (¬ s.ordinary s.pc .word →
      s.afterFetch = { s with draws := s.draws + 4, events := s.events ++ [⟨.fetch, s.pc, .word, w⟩] })

/-- R68, R305 with the spec's decisions D10 and D24: a fetch with a denied byte traps before anything is decoded, even where a
byte was stored to; where a handler is attached it resumes from the same state (log entry 8). -/
def Obligations.DeniedFetchTraps : Prop :=
  ∀ s : State, s.pc.toNat % 4 = 0 → ¬ s.fetchAllowed →
    (s.eei.onTrap = .fatal → step s = .fault (.trap ⟨.instructionAccessFault, s.pc, s.pc⟩)) ∧
    (s.eei.onTrap = .handler → step s = .next (s.resume ⟨.instructionAccessFault, s.pc, s.pc⟩))

/-- R74, R312, R362 with the spec's decision D17: a step is refused exactly where it would fetch a byte stored to in this run, and
for no other reason. -/
def Obligations.RefusedExactlyAfterStoreToCode : Prop :=
  ∀ (s : State) (r : Refusal), step s = .refused r ↔
    s.pc.toNat % 4 = 0 ∧ s.fetchAllowed ∧ ¬ s.fetchClean ∧ r = .fetchOfStoredBytes s.pc

/-- R77, R65 with the model's choice of log entry 10: a fetch that touches a device takes its word from free values, is one event,
and the instruction then runs in the state after the fetch. -/
def Obligations.StepFetchesFromDevices : Prop :=
  ∀ (s : State) (i : Instr) (w : Word), s.pc.toNat % 4 = 0 → s.fetchAllowed → s.fetchClean → ¬ s.ordinary s.pc .word →
    w = s.seen s.pc 3 ++ s.seen s.pc 2 ++ s.seen s.pc 1 ++ s.seen s.pc 0 → decode w = .ok i →
    ∃ s' : State, step s = exec i s' ∧ s'.pc = s.pc ∧ s'.regs = s.regs ∧ s'.mem = s.mem ∧ s'.written = s.written ∧
      s'.eei = s.eei ∧ s'.draws = s.draws + 4 ∧ s'.events = s.events ++ [⟨.fetch, s.pc, .word, w⟩]

/-- The interface's own: the instruction that `withFetchWord` places is the one the next step runs, from a state that differs from
`s` only as log entry 12 says. -/
def Obligations.WithFetchWordRunsTheWord : Prop :=
  ∀ (s : State) (w : Nat) (i : Instr), s.wf → w < 2 ^ 32 → decode (BitVec.ofNat 32 w) = .ok i →
    step (s.withFetchWord 32 w) = exec i (s.withFetchWord 32 w) ∧
    (s.withFetchWord 32 w).regs = s.regs ∧ (s.withFetchWord 32 w).pc = s.pc ∧
    (∀ b, b ∉ byteAddrs s.pc 4 → Memory.read (s.withFetchWord 32 w).mem b = Memory.read s.mem b)

/-! ### Invariants and frames of the whole machine -/

/-- R29, R350, R74: the pc stays a multiple of 4, the memory and the set of stored-to addresses stay in canonical form, in every
step from every such state, handler or not. -/
def Obligations.StepKeepsTheInvariant : Prop :=
  ∀ s t : State, s.wf → step s = .next t → t.wf

/-- R40, R350: the invariant holds right after reset, at the model's parameters and at any that the spec allows. -/
def Obligations.ResetMeetsTheInvariant : Prop :=
  State.reset.wf ∧ ∀ p : ResetParams, paramsOk p → (State.boot p).wf

/-- R29, R316: so the pc is a multiple of 4 in every state of every run; and in every run under any handler function (R5, R314)
that answers well-formed states for well-formed states. -/
def Obligations.PcIsAlignedInEveryRun : Prop :=
  ∀ (p : ResetParams) (s : State), paramsOk p →
    (Reachable p s → s.pc.toNat % 4 = 0 ∧ s.wf) ∧
    ∀ h : Handler, h.KeepsWf → ReachableUnder h p s → s.pc.toNat % 4 = 0 ∧ s.wf

/-- R20, R58, R71, R74: no step changes the environment's parameters, forgets a stored-to address, or drops or reorders an access
to a device. -/
def Obligations.StepOnlyAddsToTheRecord : Prop :=
  ∀ s t : State, step s = .next t →
    t.eei = s.eei ∧ (∀ a, a ∈ s.written → a ∈ t.written) ∧ s.draws ≤ t.draws ∧ s.events <+: t.events

/-- R74, R362: under a fatal `ON_TRAP`, a byte that the set of stored-to addresses does not hold after a step is as it was before
it: the set misses no store. -/
def Obligations.MemoryChangesOnlyWhereStoredTo : Prop :=
  ∀ s t : State, s.wf → s.eei.onTrap = .fatal → step s = .next t →
    ∀ a, a ∉ t.written → Memory.read t.mem a = Memory.read s.mem a

/-- R35, R27, R210, R312, R74: what an executing instruction may change: the pc, as R27 says; the register that R35 gives as its
destination and no other; for a store, the bytes at its effective address and the stored-to set by their addresses, and then no
register; for an access that touches a device, the draws and the events (log entry 10). Nothing else. -/
def Obligations.OnlyTheDestinationChanges : Prop :=
  ∀ (i : Instr) (s t : State), s.wf → s.eei.onTrap = .fatal → exec i s = .next t →
    t.pc = nextPc i s ∧ t.eei = s.eei ∧ (∀ r, destReg i ≠ some r → t.readReg r = s.readReg r) ∧
    (match accessOf i s with
      | some (.store, a, n) => destReg i = none ∧
          (∀ b, b ∉ byteAddrs a n.bytes → Memory.read t.mem b = Memory.read s.mem b) ∧
          ∀ b, b ∈ t.written ↔ b ∈ s.written ∨ b ∈ byteAddrs a n.bytes
      | _ => t.mem = s.mem ∧ t.written = s.written) ∧
    ((∀ kind a n, accessOf i s = some (kind, a, n) → s.ordinary a n) → t.draws = s.draws ∧ t.events = s.events) ∧
    ∀ kind a n, accessOf i s = some (kind, a, n) → ¬ s.ordinary a n →
      t.draws = s.draws + n.bytes ∧ s.events <+: t.events

/-- R35, R20: what an instruction does depends, of all registers, only on those that R35 gives as its sources: two states that
agree on these (and on all but the registers) give the same trap or the same pc, destination, memory and record. -/
def Obligations.OnlyTheSourcesMatter : Prop :=
  ∀ (i : Instr) (s : State) (regs : Vector Word 31) (u : State), s.eei.onTrap = .fatal → u = { s with regs := regs } →
    (∀ r, r ∈ sourceRegs i → u.readReg r = s.readReg r) →
    match exec i s, exec i u with
    | .next t, .next v => t.pc = v.pc ∧ t.mem = v.mem ∧ t.written = v.written ∧ t.eei = v.eei ∧ t.draws = v.draws ∧
        t.events = v.events ∧ ∀ r, destReg i = some r → t.readReg r = v.readReg r
    | .fault f, .fault g => f = g
    | _, _ => False

/-- D6: what completes under policy `trap` completes alike under `support`. -/
def Obligations.SupportExtendsTrapPolicy : Prop :=
  ∀ (i : Instr) (s t : State), s.eei.onTrap = .fatal → s.eei.misaligned = .trap → exec i s = .next t →
    exec i { s with eei := { s.eei with misaligned := .support } } =
      .next { t with eei := { t.eei with misaligned := .support } }

/-- R33, R50: a canonical memory is nothing but what it reads as: two that read alike at every address are equal. -/
def Obligations.CanonicalMemoriesAreExtensional : Prop :=
  ∀ m m' : Memory, Memory.wf m → Memory.wf m' → (∀ a, Memory.read m a = Memory.read m' a) → m = m'

/-! ### Reset -/

/-- R5, R40, R41, R42, R22, R350: the state after reset, for every choice of the parameters; `CAUSE_CODE` is among them, and any
function from exception names to numbers is a choice of it (R303). -/
def Obligations.ResetLoadsTheParameters : Prop :=
  (∀ p : ResetParams, (State.boot p).pc = p.resetPc ∧ (State.boot p).readReg 0#5 = 0#32 ∧
    (∀ k, (h : k < 31) → (State.boot p).readReg (BitVec.ofNat 5 (k + 1)) = p.initRegs[k]) ∧
    (State.boot p).mem = p.initMem ∧ (State.boot p).written = [] ∧ (State.boot p).eei = p.eei ∧
    ∀ (c : CauseCodes) (r : TrapRecord), p.eei.causeCodes = some c → (State.boot p).causeCode r = some (c.codeOf r.name)) ∧
  ∀ f : ExceptionName → Nat, ∃ c : CauseCodes, ∀ e, c.codeOf e = f e

/-- The model's choice (log entries 1 to 5 and 9): the parameters behind `State.reset`. -/
def Obligations.ModelResetChoice : Prop :=
  State.reset.pc = 0x00001000#32 ∧ (∀ r, State.reset.readReg r = 0#32) ∧ (∀ a, Memory.read State.reset.mem a = 0#8) ∧
  State.reset.eei.misaligned = .trap ∧ State.reset.eei.onTrap = .fatal ∧ State.reset.eei.causeCodes = none ∧
  ∀ (a : Word) (kind : AccessKind) (n : Width), State.reset.eei.memMap.allows a.toNat kind n = true ∧
    State.reset.eei.memMap.isDevice a.toNat = false

/-! ### Sequences and pseudoinstructions -/

/-- 95_test_vectors.md part 4, property 6: ADD then SUB, and XOR twice, give the first operand back; SLT and SLTU are 1 exactly
where BGE and BGEU on the same registers are not taken. -/
def Obligations.InversesAndComplements : Prop :=
  ∀ (rd rs2 rs1 : RegNum) (offset : BitVec 13) (s : State), rd ≠ 0#5 → rs2 ≠ rd →
    (∃ t, execAll [.add rd rd rs2, .sub rd rd rs2] s = .next t ∧ t.readReg rd = s.readReg rd) ∧
    (∃ t, execAll [.xor rd rd rs2, .xor rd rd rs2] s = .next t ∧ t.readReg rd = s.readReg rd) ∧
    (∃ t, exec (.slt rd rs1 rs2) s = .next t ∧
      t.readReg rd = if branchTaken (.bge rs1 rs2 offset) s then 0#32 else 1#32) ∧
    (∃ t, exec (.sltu rd rs1 rs2) s = .next t ∧
      t.readReg rd = if branchTaken (.bgeu rs1 rs2 offset) s then 0#32 else 1#32)

/-- R267: the split of a 32-bit value into an upper operand and a signed lower immediate gives the value back, and the upper
operand is `(X + 0x800) >> 12` modulo 2^20. -/
def Obligations.HighLowSplitRebuilds : Prop :=
  ∀ x : Word, (hi20 x ++ 0#12) + (lo12 x).signExtend 32 = x ∧
    hi20 x = ((x + 0x800#32) >>> 12).setWidth 20

/-- R270: the `li` sequence leaves the constant in `rd` and changes nothing else but the pc. -/
def Obligations.LoadImmediateBuildsTheConstant : Prop :=
  ∀ (rd : RegNum) (c : Word) (s : State),
    ∃ t, execAll (expand (.li rd c)) s = .next t ∧ WritesOnly rd c s t ∧
      t.pc = s.pc + BitVec.ofNat 32 (4 * (expand (.li rd c)).length)

/-- R269: the single-instruction register pseudoinstructions do what their names say. -/
def Obligations.RegisterPseudoinstructions : Prop :=
  ∀ (rd rs : RegNum) (s : State),
    (∃ t, execAll (expand .nop) s = .next t ∧ t.pc = s.pc + 4#32 ∧ ChangesOnlyPc s t) ∧
    (∃ t, execAll (expand (.mv rd rs)) s = .next t ∧ t.pc = s.pc + 4#32 ∧ WritesOnly rd (s.readReg rs) s t) ∧
    (∃ t, execAll (expand (.not rd rs)) s = .next t ∧ t.pc = s.pc + 4#32 ∧ WritesOnly rd (~~~ s.readReg rs) s t) ∧
    (∃ t, execAll (expand (.neg rd rs)) s = .next t ∧ t.pc = s.pc + 4#32 ∧ WritesOnly rd (- s.readReg rs) s t) ∧
    (∃ t, execAll (expand (.seqz rd rs)) s = .next t ∧ t.pc = s.pc + 4#32 ∧
      WritesOnly rd (if s.readReg rs = 0#32 then 1#32 else 0#32) s t) ∧
    (∃ t, execAll (expand (.snez rd rs)) s = .next t ∧ t.pc = s.pc + 4#32 ∧
      WritesOnly rd (if s.readReg rs ≠ 0#32 then 1#32 else 0#32) s t) ∧
    (∃ t, execAll (expand (.sltz rd rs)) s = .next t ∧ t.pc = s.pc + 4#32 ∧
      WritesOnly rd (if (s.readReg rs).toInt < 0 then 1#32 else 0#32) s t) ∧
    (∃ t, execAll (expand (.sgtz rd rs)) s = .next t ∧ t.pc = s.pc + 4#32 ∧
      WritesOnly rd (if 0 < (s.readReg rs).toInt then 1#32 else 0#32) s t)

/-- R271, R272, R197: the branch pseudoinstructions go to their target exactly where the comparison of their names holds. -/
def Obligations.BranchPseudoinstructions : Prop :=
  ∀ (rs rt : RegNum) (offset : BitVec 13) (s : State) (p : Pseudo) (taken : Bool),
    (p, taken) ∈ [(Pseudo.beqz rs offset, decide ((s.readReg rs).toInt = 0)), (.bnez rs offset, decide ((s.readReg rs).toInt ≠ 0)),
      (.blez rs offset, decide ((s.readReg rs).toInt ≤ 0)), (.bgez rs offset, decide ((s.readReg rs).toInt ≥ 0)),
      (.bltz rs offset, decide ((s.readReg rs).toInt < 0)), (.bgtz rs offset, decide ((s.readReg rs).toInt > 0)),
      (.bgt rs rt offset, decide ((s.readReg rs).toInt > (s.readReg rt).toInt)),
      (.ble rs rt offset, decide ((s.readReg rs).toInt ≤ (s.readReg rt).toInt)),
      (.bgtu rs rt offset, decide ((s.readReg rs).toNat > (s.readReg rt).toNat)),
      (.bleu rs rt offset, decide ((s.readReg rs).toNat ≤ (s.readReg rt).toNat))] →
    (s.pc + offset.signExtend 32).toNat % 4 = 0 →
    ∃ t, execAll (expand p) s = .next t ∧ ChangesOnlyPc s t ∧
      t.pc = if taken then s.pc + offset.signExtend 32 else s.pc + 4#32

/-- R273, R268, R267: `call` goes to its target with the address after the pair in x1; `tail` goes there and uses x6 alone; `la`
leaves the symbol's address in `rd`. -/
def Obligations.FarTransfersAndAddresses : Prop :=
  ∀ (rd : RegNum) (offset : Word) (s : State),
    ((s.pc + offset).toNat % 4 = 0 →
      (∃ t, execAll (expand (.call offset)) s = .next t ∧ t.pc = s.pc + offset ∧ WritesOnly 1#5 (s.pc + 8#32) s t) ∧
      ∃ t, execAll (expand (.tail offset)) s = .next t ∧ t.pc = s.pc + offset ∧ SameRegsBut 6#5 s t ∧ SameMemory s t ∧
        SameRest s t) ∧
    ∃ t, execAll (expand (.la rd offset)) s = .next t ∧ t.pc = s.pc + 8#32 ∧ WritesOnly rd (s.pc + offset) s t
end

