-- ==== Sys2Proof/Laws/Encoding.lean ====
section
/-! SUPPORT. The fields of a word laid out by each format (R93 to R98, R106): what each field extraction gives back, and the
word put together again from its fields. -/

namespace Sys2Proof

/-- The low part of a concatenation. -/
theorem field_low {n m : Nat} (x : BitVec n) (y : BitVec m) : (x ++ y).extractLsb' 0 m = y :=
  BitVec.extractLsb'_append_eq_right

/-- A field above the low part of a concatenation. -/
theorem field_high {n m : Nat} (x : BitVec n) (y : BitVec m) (s k : Nat) :
    (x ++ y).extractLsb' (m + s) k = x.extractLsb' s k := by
  rw [BitVec.extractLsb'_append_eq_of_le (Nat.le_add_right m s), Nat.add_sub_cancel_left]

/-- Two adjacent fields make one. -/
theorem field_join {n : Nat} (x : BitVec n) (s k l : Nat) :
    x.extractLsb' (s + k) l ++ x.extractLsb' s k = x.extractLsb' s (l + k) :=
  BitVec.extractLsb'_append_extractLsb'_eq_extractLsb' rfl

/-! ### R-type -/

@[simp] theorem opcodeOf_encR (f7 : BitVec 7) (rs2 rs1 : RegNum) (f3 : BitVec 3) (rd : RegNum) (op : BitVec 7) :
    opcodeOf (encR f7 rs2 rs1 f3 rd op) = op :=
  field_low (f7 ++ rs2 ++ rs1 ++ f3 ++ rd) (op)

@[simp] theorem rdOf_encR (f7 : BitVec 7) (rs2 rs1 : RegNum) (f3 : BitVec 3) (rd : RegNum) (op : BitVec 7) :
    rdOf (encR f7 rs2 rs1 f3 rd op) = rd :=
  (field_high (f7 ++ rs2 ++ rs1 ++ f3 ++ rd) (op) 0 5).trans
    (field_low (f7 ++ rs2 ++ rs1 ++ f3) (rd))

@[simp] theorem funct3Of_encR (f7 : BitVec 7) (rs2 rs1 : RegNum) (f3 : BitVec 3) (rd : RegNum) (op : BitVec 7) :
    funct3Of (encR f7 rs2 rs1 f3 rd op) = f3 :=
  (field_high (f7 ++ rs2 ++ rs1 ++ f3 ++ rd) (op) 5 3).trans
    ((field_high (f7 ++ rs2 ++ rs1 ++ f3) (rd) 0 3).trans
    (field_low (f7 ++ rs2 ++ rs1) (f3)))

@[simp] theorem rs1Of_encR (f7 : BitVec 7) (rs2 rs1 : RegNum) (f3 : BitVec 3) (rd : RegNum) (op : BitVec 7) :
    rs1Of (encR f7 rs2 rs1 f3 rd op) = rs1 :=
  (field_high (f7 ++ rs2 ++ rs1 ++ f3 ++ rd) (op) 8 5).trans
    ((field_high (f7 ++ rs2 ++ rs1 ++ f3) (rd) 3 5).trans
    ((field_high (f7 ++ rs2 ++ rs1) (f3) 0 5).trans
    (field_low (f7 ++ rs2) (rs1))))

@[simp] theorem rs2Of_encR (f7 : BitVec 7) (rs2 rs1 : RegNum) (f3 : BitVec 3) (rd : RegNum) (op : BitVec 7) :
    rs2Of (encR f7 rs2 rs1 f3 rd op) = rs2 :=
  (field_high (f7 ++ rs2 ++ rs1 ++ f3 ++ rd) (op) 13 5).trans
    ((field_high (f7 ++ rs2 ++ rs1 ++ f3) (rd) 8 5).trans
    ((field_high (f7 ++ rs2 ++ rs1) (f3) 5 5).trans
    ((field_high (f7 ++ rs2) (rs1) 0 5).trans
    (field_low (f7) (rs2)))))

@[simp] theorem funct7Of_encR (f7 : BitVec 7) (rs2 rs1 : RegNum) (f3 : BitVec 3) (rd : RegNum) (op : BitVec 7) :
    funct7Of (encR f7 rs2 rs1 f3 rd op) = f7 :=
  (field_high (f7 ++ rs2 ++ rs1 ++ f3 ++ rd) (op) 18 7).trans
    ((field_high (f7 ++ rs2 ++ rs1 ++ f3) (rd) 13 7).trans
    ((field_high (f7 ++ rs2 ++ rs1) (f3) 10 7).trans
    ((field_high (f7 ++ rs2) (rs1) 5 7).trans
    ((field_high (f7) (rs2) 0 7).trans
    (BitVec.extractLsb'_eq_self)))))

/-! ### I-type -/

@[simp] theorem opcodeOf_encI (imm : BitVec 12) (rs1 : RegNum) (f3 : BitVec 3) (rd : RegNum) (op : BitVec 7) :
    opcodeOf (encI imm rs1 f3 rd op) = op :=
  field_low (imm ++ rs1 ++ f3 ++ rd) (op)

@[simp] theorem rdOf_encI (imm : BitVec 12) (rs1 : RegNum) (f3 : BitVec 3) (rd : RegNum) (op : BitVec 7) :
    rdOf (encI imm rs1 f3 rd op) = rd :=
  (field_high (imm ++ rs1 ++ f3 ++ rd) (op) 0 5).trans
    (field_low (imm ++ rs1 ++ f3) (rd))

@[simp] theorem funct3Of_encI (imm : BitVec 12) (rs1 : RegNum) (f3 : BitVec 3) (rd : RegNum) (op : BitVec 7) :
    funct3Of (encI imm rs1 f3 rd op) = f3 :=
  (field_high (imm ++ rs1 ++ f3 ++ rd) (op) 5 3).trans
    ((field_high (imm ++ rs1 ++ f3) (rd) 0 3).trans
    (field_low (imm ++ rs1) (f3)))

@[simp] theorem rs1Of_encI (imm : BitVec 12) (rs1 : RegNum) (f3 : BitVec 3) (rd : RegNum) (op : BitVec 7) :
    rs1Of (encI imm rs1 f3 rd op) = rs1 :=
  (field_high (imm ++ rs1 ++ f3 ++ rd) (op) 8 5).trans
    ((field_high (imm ++ rs1 ++ f3) (rd) 3 5).trans
    ((field_high (imm ++ rs1) (f3) 0 5).trans
    (field_low (imm) (rs1))))

@[simp] theorem immIOf_encI (imm : BitVec 12) (rs1 : RegNum) (f3 : BitVec 3) (rd : RegNum) (op : BitVec 7) :
    immIOf (encI imm rs1 f3 rd op) = imm :=
  (field_high (imm ++ rs1 ++ f3 ++ rd) (op) 13 12).trans
    ((field_high (imm ++ rs1 ++ f3) (rd) 8 12).trans
    ((field_high (imm ++ rs1) (f3) 5 12).trans
    ((field_high (imm) (rs1) 0 12).trans
    (BitVec.extractLsb'_eq_self))))

/-! ### S-type -/

@[simp] theorem opcodeOf_encS (imm : BitVec 12) (rs2 rs1 : RegNum) (f3 : BitVec 3) (op : BitVec 7) :
    opcodeOf (encS imm rs2 rs1 f3 op) = op :=
  field_low (imm.extractLsb' 5 7 ++ rs2 ++ rs1 ++ f3 ++ imm.extractLsb' 0 5) (op)

@[simp] theorem funct3Of_encS (imm : BitVec 12) (rs2 rs1 : RegNum) (f3 : BitVec 3) (op : BitVec 7) :
    funct3Of (encS imm rs2 rs1 f3 op) = f3 :=
  (field_high (imm.extractLsb' 5 7 ++ rs2 ++ rs1 ++ f3 ++ imm.extractLsb' 0 5) (op) 5 3).trans
    ((field_high (imm.extractLsb' 5 7 ++ rs2 ++ rs1 ++ f3) (imm.extractLsb' 0 5) 0 3).trans
    (field_low (imm.extractLsb' 5 7 ++ rs2 ++ rs1) (f3)))

@[simp] theorem rs1Of_encS (imm : BitVec 12) (rs2 rs1 : RegNum) (f3 : BitVec 3) (op : BitVec 7) :
    rs1Of (encS imm rs2 rs1 f3 op) = rs1 :=
  (field_high (imm.extractLsb' 5 7 ++ rs2 ++ rs1 ++ f3 ++ imm.extractLsb' 0 5) (op) 8 5).trans
    ((field_high (imm.extractLsb' 5 7 ++ rs2 ++ rs1 ++ f3) (imm.extractLsb' 0 5) 3 5).trans
    ((field_high (imm.extractLsb' 5 7 ++ rs2 ++ rs1) (f3) 0 5).trans
    (field_low (imm.extractLsb' 5 7 ++ rs2) (rs1))))

@[simp] theorem rs2Of_encS (imm : BitVec 12) (rs2 rs1 : RegNum) (f3 : BitVec 3) (op : BitVec 7) :
    rs2Of (encS imm rs2 rs1 f3 op) = rs2 :=
  (field_high (imm.extractLsb' 5 7 ++ rs2 ++ rs1 ++ f3 ++ imm.extractLsb' 0 5) (op) 13 5).trans
    ((field_high (imm.extractLsb' 5 7 ++ rs2 ++ rs1 ++ f3) (imm.extractLsb' 0 5) 8 5).trans
    ((field_high (imm.extractLsb' 5 7 ++ rs2 ++ rs1) (f3) 5 5).trans
    ((field_high (imm.extractLsb' 5 7 ++ rs2) (rs1) 0 5).trans
    (field_low (imm.extractLsb' 5 7) (rs2)))))

theorem piece7_encS (imm : BitVec 12) (rs2 rs1 : RegNum) (f3 : BitVec 3) (op : BitVec 7) :
    (encS imm rs2 rs1 f3 op).extractLsb' 7 5 = imm.extractLsb' 0 5 :=
  (field_high (imm.extractLsb' 5 7 ++ rs2 ++ rs1 ++ f3 ++ imm.extractLsb' 0 5) (op) 0 5).trans
    (field_low (imm.extractLsb' 5 7 ++ rs2 ++ rs1 ++ f3) (imm.extractLsb' 0 5))

theorem piece25_encS (imm : BitVec 12) (rs2 rs1 : RegNum) (f3 : BitVec 3) (op : BitVec 7) :
    (encS imm rs2 rs1 f3 op).extractLsb' 25 7 = imm.extractLsb' 5 7 :=
  (field_high (imm.extractLsb' 5 7 ++ rs2 ++ rs1 ++ f3 ++ imm.extractLsb' 0 5) (op) 18 7).trans
    ((field_high (imm.extractLsb' 5 7 ++ rs2 ++ rs1 ++ f3) (imm.extractLsb' 0 5) 13 7).trans
    ((field_high (imm.extractLsb' 5 7 ++ rs2 ++ rs1) (f3) 10 7).trans
    ((field_high (imm.extractLsb' 5 7 ++ rs2) (rs1) 5 7).trans
    ((field_high (imm.extractLsb' 5 7) (rs2) 0 7).trans
    (BitVec.extractLsb'_eq_self)))))

/-! ### B-type -/

@[simp] theorem opcodeOf_encB (offset : BitVec 13) (rs2 rs1 : RegNum) (f3 : BitVec 3) (op : BitVec 7) :
    opcodeOf (encB offset rs2 rs1 f3 op) = op :=
  field_low (offset.extractLsb' 12 1 ++ offset.extractLsb' 5 6 ++ rs2 ++ rs1 ++ f3 ++ offset.extractLsb' 1 4 ++ offset.extractLsb' 11 1) (op)

@[simp] theorem funct3Of_encB (offset : BitVec 13) (rs2 rs1 : RegNum) (f3 : BitVec 3) (op : BitVec 7) :
    funct3Of (encB offset rs2 rs1 f3 op) = f3 :=
  (field_high (offset.extractLsb' 12 1 ++ offset.extractLsb' 5 6 ++ rs2 ++ rs1 ++ f3 ++ offset.extractLsb' 1 4 ++ offset.extractLsb' 11 1) (op) 5 3).trans
    ((field_high (offset.extractLsb' 12 1 ++ offset.extractLsb' 5 6 ++ rs2 ++ rs1 ++ f3 ++ offset.extractLsb' 1 4) (offset.extractLsb' 11 1) 4 3).trans
    ((field_high (offset.extractLsb' 12 1 ++ offset.extractLsb' 5 6 ++ rs2 ++ rs1 ++ f3) (offset.extractLsb' 1 4) 0 3).trans
    (field_low (offset.extractLsb' 12 1 ++ offset.extractLsb' 5 6 ++ rs2 ++ rs1) (f3))))

@[simp] theorem rs1Of_encB (offset : BitVec 13) (rs2 rs1 : RegNum) (f3 : BitVec 3) (op : BitVec 7) :
    rs1Of (encB offset rs2 rs1 f3 op) = rs1 :=
  (field_high (offset.extractLsb' 12 1 ++ offset.extractLsb' 5 6 ++ rs2 ++ rs1 ++ f3 ++ offset.extractLsb' 1 4 ++ offset.extractLsb' 11 1) (op) 8 5).trans
    ((field_high (offset.extractLsb' 12 1 ++ offset.extractLsb' 5 6 ++ rs2 ++ rs1 ++ f3 ++ offset.extractLsb' 1 4) (offset.extractLsb' 11 1) 7 5).trans
    ((field_high (offset.extractLsb' 12 1 ++ offset.extractLsb' 5 6 ++ rs2 ++ rs1 ++ f3) (offset.extractLsb' 1 4) 3 5).trans
    ((field_high (offset.extractLsb' 12 1 ++ offset.extractLsb' 5 6 ++ rs2 ++ rs1) (f3) 0 5).trans
    (field_low (offset.extractLsb' 12 1 ++ offset.extractLsb' 5 6 ++ rs2) (rs1)))))

@[simp] theorem rs2Of_encB (offset : BitVec 13) (rs2 rs1 : RegNum) (f3 : BitVec 3) (op : BitVec 7) :
    rs2Of (encB offset rs2 rs1 f3 op) = rs2 :=
  (field_high (offset.extractLsb' 12 1 ++ offset.extractLsb' 5 6 ++ rs2 ++ rs1 ++ f3 ++ offset.extractLsb' 1 4 ++ offset.extractLsb' 11 1) (op) 13 5).trans
    ((field_high (offset.extractLsb' 12 1 ++ offset.extractLsb' 5 6 ++ rs2 ++ rs1 ++ f3 ++ offset.extractLsb' 1 4) (offset.extractLsb' 11 1) 12 5).trans
    ((field_high (offset.extractLsb' 12 1 ++ offset.extractLsb' 5 6 ++ rs2 ++ rs1 ++ f3) (offset.extractLsb' 1 4) 8 5).trans
    ((field_high (offset.extractLsb' 12 1 ++ offset.extractLsb' 5 6 ++ rs2 ++ rs1) (f3) 5 5).trans
    ((field_high (offset.extractLsb' 12 1 ++ offset.extractLsb' 5 6 ++ rs2) (rs1) 0 5).trans
    (field_low (offset.extractLsb' 12 1 ++ offset.extractLsb' 5 6) (rs2))))))

theorem piece7_encB (offset : BitVec 13) (rs2 rs1 : RegNum) (f3 : BitVec 3) (op : BitVec 7) :
    (encB offset rs2 rs1 f3 op).extractLsb' 7 1 = offset.extractLsb' 11 1 :=
  (field_high (offset.extractLsb' 12 1 ++ offset.extractLsb' 5 6 ++ rs2 ++ rs1 ++ f3 ++ offset.extractLsb' 1 4 ++ offset.extractLsb' 11 1) (op) 0 1).trans
    (field_low (offset.extractLsb' 12 1 ++ offset.extractLsb' 5 6 ++ rs2 ++ rs1 ++ f3 ++ offset.extractLsb' 1 4) (offset.extractLsb' 11 1))

theorem piece8_encB (offset : BitVec 13) (rs2 rs1 : RegNum) (f3 : BitVec 3) (op : BitVec 7) :
    (encB offset rs2 rs1 f3 op).extractLsb' 8 4 = offset.extractLsb' 1 4 :=
  (field_high (offset.extractLsb' 12 1 ++ offset.extractLsb' 5 6 ++ rs2 ++ rs1 ++ f3 ++ offset.extractLsb' 1 4 ++ offset.extractLsb' 11 1) (op) 1 4).trans
    ((field_high (offset.extractLsb' 12 1 ++ offset.extractLsb' 5 6 ++ rs2 ++ rs1 ++ f3 ++ offset.extractLsb' 1 4) (offset.extractLsb' 11 1) 0 4).trans
    (field_low (offset.extractLsb' 12 1 ++ offset.extractLsb' 5 6 ++ rs2 ++ rs1 ++ f3) (offset.extractLsb' 1 4)))

theorem piece25_encB (offset : BitVec 13) (rs2 rs1 : RegNum) (f3 : BitVec 3) (op : BitVec 7) :
    (encB offset rs2 rs1 f3 op).extractLsb' 25 6 = offset.extractLsb' 5 6 :=
  (field_high (offset.extractLsb' 12 1 ++ offset.extractLsb' 5 6 ++ rs2 ++ rs1 ++ f3 ++ offset.extractLsb' 1 4 ++ offset.extractLsb' 11 1) (op) 18 6).trans
    ((field_high (offset.extractLsb' 12 1 ++ offset.extractLsb' 5 6 ++ rs2 ++ rs1 ++ f3 ++ offset.extractLsb' 1 4) (offset.extractLsb' 11 1) 17 6).trans
    ((field_high (offset.extractLsb' 12 1 ++ offset.extractLsb' 5 6 ++ rs2 ++ rs1 ++ f3) (offset.extractLsb' 1 4) 13 6).trans
    ((field_high (offset.extractLsb' 12 1 ++ offset.extractLsb' 5 6 ++ rs2 ++ rs1) (f3) 10 6).trans
    ((field_high (offset.extractLsb' 12 1 ++ offset.extractLsb' 5 6 ++ rs2) (rs1) 5 6).trans
    ((field_high (offset.extractLsb' 12 1 ++ offset.extractLsb' 5 6) (rs2) 0 6).trans
    (field_low (offset.extractLsb' 12 1) (offset.extractLsb' 5 6)))))))

theorem piece31_encB (offset : BitVec 13) (rs2 rs1 : RegNum) (f3 : BitVec 3) (op : BitVec 7) :
    (encB offset rs2 rs1 f3 op).extractLsb' 31 1 = offset.extractLsb' 12 1 :=
  (field_high (offset.extractLsb' 12 1 ++ offset.extractLsb' 5 6 ++ rs2 ++ rs1 ++ f3 ++ offset.extractLsb' 1 4 ++ offset.extractLsb' 11 1) (op) 24 1).trans
    ((field_high (offset.extractLsb' 12 1 ++ offset.extractLsb' 5 6 ++ rs2 ++ rs1 ++ f3 ++ offset.extractLsb' 1 4) (offset.extractLsb' 11 1) 23 1).trans
    ((field_high (offset.extractLsb' 12 1 ++ offset.extractLsb' 5 6 ++ rs2 ++ rs1 ++ f3) (offset.extractLsb' 1 4) 19 1).trans
    ((field_high (offset.extractLsb' 12 1 ++ offset.extractLsb' 5 6 ++ rs2 ++ rs1) (f3) 16 1).trans
    ((field_high (offset.extractLsb' 12 1 ++ offset.extractLsb' 5 6 ++ rs2) (rs1) 11 1).trans
    ((field_high (offset.extractLsb' 12 1 ++ offset.extractLsb' 5 6) (rs2) 6 1).trans
    ((field_high (offset.extractLsb' 12 1) (offset.extractLsb' 5 6) 0 1).trans
    (BitVec.extractLsb'_eq_self)))))))

/-! ### U-type -/

@[simp] theorem opcodeOf_encU (imm20 : BitVec 20) (rd : RegNum) (op : BitVec 7) :
    opcodeOf (encU imm20 rd op) = op :=
  field_low (imm20 ++ rd) (op)

@[simp] theorem rdOf_encU (imm20 : BitVec 20) (rd : RegNum) (op : BitVec 7) :
    rdOf (encU imm20 rd op) = rd :=
  (field_high (imm20 ++ rd) (op) 0 5).trans
    (field_low (imm20) (rd))

@[simp] theorem immUOf_encU (imm20 : BitVec 20) (rd : RegNum) (op : BitVec 7) :
    immUOf (encU imm20 rd op) = imm20 :=
  (field_high (imm20 ++ rd) (op) 5 20).trans
    ((field_high (imm20) (rd) 0 20).trans
    (BitVec.extractLsb'_eq_self))

/-! ### J-type -/

@[simp] theorem opcodeOf_encJ (offset : BitVec 21) (rd : RegNum) (op : BitVec 7) :
    opcodeOf (encJ offset rd op) = op :=
  field_low (offset.extractLsb' 20 1 ++ offset.extractLsb' 1 10 ++ offset.extractLsb' 11 1 ++ offset.extractLsb' 12 8 ++ rd) (op)

@[simp] theorem rdOf_encJ (offset : BitVec 21) (rd : RegNum) (op : BitVec 7) :
    rdOf (encJ offset rd op) = rd :=
  (field_high (offset.extractLsb' 20 1 ++ offset.extractLsb' 1 10 ++ offset.extractLsb' 11 1 ++ offset.extractLsb' 12 8 ++ rd) (op) 0 5).trans
    (field_low (offset.extractLsb' 20 1 ++ offset.extractLsb' 1 10 ++ offset.extractLsb' 11 1 ++ offset.extractLsb' 12 8) (rd))

theorem piece12_encJ (offset : BitVec 21) (rd : RegNum) (op : BitVec 7) :
    (encJ offset rd op).extractLsb' 12 8 = offset.extractLsb' 12 8 :=
  (field_high (offset.extractLsb' 20 1 ++ offset.extractLsb' 1 10 ++ offset.extractLsb' 11 1 ++ offset.extractLsb' 12 8 ++ rd) (op) 5 8).trans
    ((field_high (offset.extractLsb' 20 1 ++ offset.extractLsb' 1 10 ++ offset.extractLsb' 11 1 ++ offset.extractLsb' 12 8) (rd) 0 8).trans
    (field_low (offset.extractLsb' 20 1 ++ offset.extractLsb' 1 10 ++ offset.extractLsb' 11 1) (offset.extractLsb' 12 8)))

theorem piece20_encJ (offset : BitVec 21) (rd : RegNum) (op : BitVec 7) :
    (encJ offset rd op).extractLsb' 20 1 = offset.extractLsb' 11 1 :=
  (field_high (offset.extractLsb' 20 1 ++ offset.extractLsb' 1 10 ++ offset.extractLsb' 11 1 ++ offset.extractLsb' 12 8 ++ rd) (op) 13 1).trans
    ((field_high (offset.extractLsb' 20 1 ++ offset.extractLsb' 1 10 ++ offset.extractLsb' 11 1 ++ offset.extractLsb' 12 8) (rd) 8 1).trans
    ((field_high (offset.extractLsb' 20 1 ++ offset.extractLsb' 1 10 ++ offset.extractLsb' 11 1) (offset.extractLsb' 12 8) 0 1).trans
    (field_low (offset.extractLsb' 20 1 ++ offset.extractLsb' 1 10) (offset.extractLsb' 11 1))))

theorem piece21_encJ (offset : BitVec 21) (rd : RegNum) (op : BitVec 7) :
    (encJ offset rd op).extractLsb' 21 10 = offset.extractLsb' 1 10 :=
  (field_high (offset.extractLsb' 20 1 ++ offset.extractLsb' 1 10 ++ offset.extractLsb' 11 1 ++ offset.extractLsb' 12 8 ++ rd) (op) 14 10).trans
    ((field_high (offset.extractLsb' 20 1 ++ offset.extractLsb' 1 10 ++ offset.extractLsb' 11 1 ++ offset.extractLsb' 12 8) (rd) 9 10).trans
    ((field_high (offset.extractLsb' 20 1 ++ offset.extractLsb' 1 10 ++ offset.extractLsb' 11 1) (offset.extractLsb' 12 8) 1 10).trans
    ((field_high (offset.extractLsb' 20 1 ++ offset.extractLsb' 1 10) (offset.extractLsb' 11 1) 0 10).trans
    (field_low (offset.extractLsb' 20 1) (offset.extractLsb' 1 10)))))

theorem piece31_encJ (offset : BitVec 21) (rd : RegNum) (op : BitVec 7) :
    (encJ offset rd op).extractLsb' 31 1 = offset.extractLsb' 20 1 :=
  (field_high (offset.extractLsb' 20 1 ++ offset.extractLsb' 1 10 ++ offset.extractLsb' 11 1 ++ offset.extractLsb' 12 8 ++ rd) (op) 24 1).trans
    ((field_high (offset.extractLsb' 20 1 ++ offset.extractLsb' 1 10 ++ offset.extractLsb' 11 1 ++ offset.extractLsb' 12 8) (rd) 19 1).trans
    ((field_high (offset.extractLsb' 20 1 ++ offset.extractLsb' 1 10 ++ offset.extractLsb' 11 1) (offset.extractLsb' 12 8) 11 1).trans
    ((field_high (offset.extractLsb' 20 1 ++ offset.extractLsb' 1 10) (offset.extractLsb' 11 1) 10 1).trans
    ((field_high (offset.extractLsb' 20 1) (offset.extractLsb' 1 10) 0 1).trans
    (BitVec.extractLsb'_eq_self)))))

/-! ### FENCE -/

@[simp] theorem opcodeOf_encFence (fm pred succ : BitVec 4) (rs1 rd : RegNum) :
    opcodeOf (encFence fm pred succ rs1 rd) = 0b0001111#7 :=
  field_low (fm ++ pred ++ succ ++ rs1 ++ 0b000#3 ++ rd) (0b0001111#7)

@[simp] theorem rdOf_encFence (fm pred succ : BitVec 4) (rs1 rd : RegNum) :
    rdOf (encFence fm pred succ rs1 rd) = rd :=
  (field_high (fm ++ pred ++ succ ++ rs1 ++ 0b000#3 ++ rd) (0b0001111#7) 0 5).trans
    (field_low (fm ++ pred ++ succ ++ rs1 ++ 0b000#3) (rd))

@[simp] theorem funct3Of_encFence (fm pred succ : BitVec 4) (rs1 rd : RegNum) :
    funct3Of (encFence fm pred succ rs1 rd) = 0b000#3 :=
  (field_high (fm ++ pred ++ succ ++ rs1 ++ 0b000#3 ++ rd) (0b0001111#7) 5 3).trans
    ((field_high (fm ++ pred ++ succ ++ rs1 ++ 0b000#3) (rd) 0 3).trans
    (field_low (fm ++ pred ++ succ ++ rs1) (0b000#3)))

@[simp] theorem rs1Of_encFence (fm pred succ : BitVec 4) (rs1 rd : RegNum) :
    rs1Of (encFence fm pred succ rs1 rd) = rs1 :=
  (field_high (fm ++ pred ++ succ ++ rs1 ++ 0b000#3 ++ rd) (0b0001111#7) 8 5).trans
    ((field_high (fm ++ pred ++ succ ++ rs1 ++ 0b000#3) (rd) 3 5).trans
    ((field_high (fm ++ pred ++ succ ++ rs1) (0b000#3) 0 5).trans
    (field_low (fm ++ pred ++ succ) (rs1))))

@[simp] theorem fmOf_encFence (fm pred succ : BitVec 4) (rs1 rd : RegNum) :
    fmOf (encFence fm pred succ rs1 rd) = fm :=
  (field_high (fm ++ pred ++ succ ++ rs1 ++ 0b000#3 ++ rd) (0b0001111#7) 21 4).trans
    ((field_high (fm ++ pred ++ succ ++ rs1 ++ 0b000#3) (rd) 16 4).trans
    ((field_high (fm ++ pred ++ succ ++ rs1) (0b000#3) 13 4).trans
    ((field_high (fm ++ pred ++ succ) (rs1) 8 4).trans
    ((field_high (fm ++ pred) (succ) 4 4).trans
    ((field_high (fm) (pred) 0 4).trans
    (BitVec.extractLsb'_eq_self))))))

@[simp] theorem predOf_encFence (fm pred succ : BitVec 4) (rs1 rd : RegNum) :
    predOf (encFence fm pred succ rs1 rd) = pred :=
  (field_high (fm ++ pred ++ succ ++ rs1 ++ 0b000#3 ++ rd) (0b0001111#7) 17 4).trans
    ((field_high (fm ++ pred ++ succ ++ rs1 ++ 0b000#3) (rd) 12 4).trans
    ((field_high (fm ++ pred ++ succ ++ rs1) (0b000#3) 9 4).trans
    ((field_high (fm ++ pred ++ succ) (rs1) 4 4).trans
    ((field_high (fm ++ pred) (succ) 0 4).trans
    (field_low (fm) (pred))))))

@[simp] theorem succOf_encFence (fm pred succ : BitVec 4) (rs1 rd : RegNum) :
    succOf (encFence fm pred succ rs1 rd) = succ :=
  (field_high (fm ++ pred ++ succ ++ rs1 ++ 0b000#3 ++ rd) (0b0001111#7) 13 4).trans
    ((field_high (fm ++ pred ++ succ ++ rs1 ++ 0b000#3) (rd) 8 4).trans
    ((field_high (fm ++ pred ++ succ ++ rs1) (0b000#3) 5 4).trans
    ((field_high (fm ++ pred ++ succ) (rs1) 0 4).trans
    (field_low (fm ++ pred) (succ)))))

/-! ### Immediates put together from their pieces -/

@[simp] theorem immSOf_encS (imm : BitVec 12) (rs2 rs1 : RegNum) (f3 : BitVec 3) (op : BitVec 7) :
    immSOf (encS imm rs2 rs1 f3 op) = imm := by
  unfold immSOf
  rw [piece25_encS, piece7_encS]
  exact (field_join imm 0 5 7).trans BitVec.extractLsb'_eq_self

theorem immBOf_encB {offset : BitVec 13} (h : evenOffset13 offset = true) (rs2 rs1 : RegNum) (f3 : BitVec 3) (op : BitVec 7) :
    immBOf (encB offset rs2 rs1 f3 op) = offset := by
  have h0 : offset.extractLsb' 0 1 = 0#1 := by simpa [evenOffset13] using h
  have h1 : offset.extractLsb' 12 1 ++ offset.extractLsb' 11 1 = offset.extractLsb' 11 2 := field_join offset 11 1 1
  have h2 : offset.extractLsb' 11 2 ++ offset.extractLsb' 5 6 = offset.extractLsb' 5 8 := field_join offset 5 6 2
  have h3 : offset.extractLsb' 5 8 ++ offset.extractLsb' 1 4 = offset.extractLsb' 1 12 := field_join offset 1 4 8
  have h4 : offset.extractLsb' 1 12 ++ offset.extractLsb' 0 1 = offset.extractLsb' 0 13 := field_join offset 0 1 12
  unfold immBOf
  rw [piece31_encB, piece7_encB, piece25_encB, piece8_encB, ← h0]
  exact (congrArg (fun x : BitVec 2 => x ++ offset.extractLsb' 5 6 ++ offset.extractLsb' 1 4 ++ offset.extractLsb' 0 1) h1).trans
    ((congrArg (fun x : BitVec 8 => x ++ offset.extractLsb' 1 4 ++ offset.extractLsb' 0 1) h2).trans
      ((congrArg (fun x : BitVec 12 => x ++ offset.extractLsb' 0 1) h3).trans (h4.trans BitVec.extractLsb'_eq_self)))

theorem immJOf_encJ {offset : BitVec 21} (h : evenOffset21 offset = true) (rd : RegNum) (op : BitVec 7) :
    immJOf (encJ offset rd op) = offset := by
  have h0 : offset.extractLsb' 0 1 = 0#1 := by simpa [evenOffset21] using h
  have h1 : offset.extractLsb' 20 1 ++ offset.extractLsb' 12 8 = offset.extractLsb' 12 9 := field_join offset 12 8 1
  have h2 : offset.extractLsb' 12 9 ++ offset.extractLsb' 11 1 = offset.extractLsb' 11 10 := field_join offset 11 1 9
  have h3 : offset.extractLsb' 11 10 ++ offset.extractLsb' 1 10 = offset.extractLsb' 1 20 := field_join offset 1 10 10
  have h4 : offset.extractLsb' 1 20 ++ offset.extractLsb' 0 1 = offset.extractLsb' 0 21 := field_join offset 0 1 20
  unfold immJOf
  rw [piece31_encJ, piece12_encJ, piece20_encJ, piece21_encJ, ← h0]
  exact (congrArg (fun x : BitVec 9 => x ++ offset.extractLsb' 11 1 ++ offset.extractLsb' 1 10 ++ offset.extractLsb' 0 1) h1).trans
    ((congrArg (fun x : BitVec 10 => x ++ offset.extractLsb' 1 10 ++ offset.extractLsb' 0 1) h2).trans
      ((congrArg (fun x : BitVec 20 => x ++ offset.extractLsb' 0 1) h3).trans (h4.trans BitVec.extractLsb'_eq_self)))

/-! ### A word put together again from its fields -/

/-- The fields of the R-type layout cover a word. -/
theorem encR_fields (w : Word) :
    encR (funct7Of w) (rs2Of w) (rs1Of w) (funct3Of w) (rdOf w) (opcodeOf w) = w := by
  have h1 : w.extractLsb' 25 7 ++ w.extractLsb' 20 5 = w.extractLsb' 20 12 := field_join w 20 5 7
  have h2 : w.extractLsb' 20 12 ++ w.extractLsb' 15 5 = w.extractLsb' 15 17 := field_join w 15 5 12
  have h3 : w.extractLsb' 15 17 ++ w.extractLsb' 12 3 = w.extractLsb' 12 20 := field_join w 12 3 17
  have h4 : w.extractLsb' 12 20 ++ w.extractLsb' 7 5 = w.extractLsb' 7 25 := field_join w 7 5 20
  have h5 : w.extractLsb' 7 25 ++ w.extractLsb' 0 7 = w.extractLsb' 0 32 := field_join w 0 7 25
  exact (congrArg (fun x : BitVec 12 => x ++ rs1Of w ++ funct3Of w ++ rdOf w ++ opcodeOf w) h1).trans
    ((congrArg (fun x : BitVec 17 => x ++ funct3Of w ++ rdOf w ++ opcodeOf w) h2).trans
      ((congrArg (fun x : BitVec 20 => x ++ rdOf w ++ opcodeOf w) h3).trans
        ((congrArg (fun x : BitVec 25 => x ++ opcodeOf w) h4).trans (h5.trans BitVec.extractLsb'_eq_self))))

/-- The fields of the I-type layout cover a word. -/
theorem encI_fields (w : Word) : encI (immIOf w) (rs1Of w) (funct3Of w) (rdOf w) (opcodeOf w) = w := by
  have h2 : w.extractLsb' 20 12 ++ w.extractLsb' 15 5 = w.extractLsb' 15 17 := field_join w 15 5 12
  have h3 : w.extractLsb' 15 17 ++ w.extractLsb' 12 3 = w.extractLsb' 12 20 := field_join w 12 3 17
  have h4 : w.extractLsb' 12 20 ++ w.extractLsb' 7 5 = w.extractLsb' 7 25 := field_join w 7 5 20
  have h5 : w.extractLsb' 7 25 ++ w.extractLsb' 0 7 = w.extractLsb' 0 32 := field_join w 0 7 25
  exact (congrArg (fun x : BitVec 17 => x ++ funct3Of w ++ rdOf w ++ opcodeOf w) h2).trans
    ((congrArg (fun x : BitVec 20 => x ++ rdOf w ++ opcodeOf w) h3).trans
      ((congrArg (fun x : BitVec 25 => x ++ opcodeOf w) h4).trans (h5.trans BitVec.extractLsb'_eq_self)))

/-- The fields of the U-type layout cover a word. -/
theorem encU_fields (w : Word) : encU (immUOf w) (rdOf w) (opcodeOf w) = w := by
  have h4 : w.extractLsb' 12 20 ++ w.extractLsb' 7 5 = w.extractLsb' 7 25 := field_join w 7 5 20
  have h5 : w.extractLsb' 7 25 ++ w.extractLsb' 0 7 = w.extractLsb' 0 32 := field_join w 0 7 25
  exact (congrArg (fun x : BitVec 25 => x ++ opcodeOf w) h4).trans (h5.trans BitVec.extractLsb'_eq_self)

/-- The fields of the S-type layout cover a word. -/
theorem encS_fields (w : Word) : encS (immSOf w) (rs2Of w) (rs1Of w) (funct3Of w) (opcodeOf w) = w := by
  have hhi : (immSOf w).extractLsb' 5 7 = funct7Of w :=
    (field_high (w.extractLsb' 25 7) (w.extractLsb' 7 5) 0 7).trans BitVec.extractLsb'_eq_self
  have hlo : (immSOf w).extractLsb' 0 5 = rdOf w := field_low (w.extractLsb' 25 7) (w.extractLsb' 7 5)
  unfold encS
  rw [hhi, hlo]
  exact encR_fields w

/-- The fields of FENCE's layout cover a word of its opcode and funct3. -/
theorem encFence_fields {w : Word} (hop : opcodeOf w = 0b0001111#7) (hf3 : funct3Of w = 0b000#3) :
    encFence (fmOf w) (predOf w) (succOf w) (rs1Of w) (rdOf w) = w := by
  have h1 : w.extractLsb' 28 4 ++ w.extractLsb' 24 4 = w.extractLsb' 24 8 := field_join w 24 4 4
  have h2 : w.extractLsb' 24 8 ++ w.extractLsb' 20 4 = w.extractLsb' 20 12 := field_join w 20 4 8
  have h := encI_fields w
  rw [hop, hf3] at h
  exact (congrArg (fun x : BitVec 8 => x ++ succOf w ++ rs1Of w ++ 0b000#3 ++ rdOf w ++ 0b0001111#7) h1).trans
    ((congrArg (fun x : BitVec 12 => x ++ rs1Of w ++ 0b000#3 ++ rdOf w ++ 0b0001111#7) h2).trans h)

/-- The pieces of the B-type layout cover a word. -/
theorem encB_fields (w : Word) : encB (immBOf w) (rs2Of w) (rs1Of w) (funct3Of w) (opcodeOf w) = w := by
  have p12 : (immBOf w).extractLsb' 12 1 = w.extractLsb' 31 1 :=
    (field_high (w.extractLsb' 31 1 ++ w.extractLsb' 7 1 ++ w.extractLsb' 25 6 ++ w.extractLsb' 8 4) 0#1 11 1).trans
      ((field_high (w.extractLsb' 31 1 ++ w.extractLsb' 7 1 ++ w.extractLsb' 25 6) (w.extractLsb' 8 4) 7 1).trans
        ((field_high (w.extractLsb' 31 1 ++ w.extractLsb' 7 1) (w.extractLsb' 25 6) 1 1).trans
          ((field_high (w.extractLsb' 31 1) (w.extractLsb' 7 1) 0 1).trans BitVec.extractLsb'_eq_self)))
  have p11 : (immBOf w).extractLsb' 11 1 = w.extractLsb' 7 1 :=
    (field_high (w.extractLsb' 31 1 ++ w.extractLsb' 7 1 ++ w.extractLsb' 25 6 ++ w.extractLsb' 8 4) 0#1 10 1).trans
      ((field_high (w.extractLsb' 31 1 ++ w.extractLsb' 7 1 ++ w.extractLsb' 25 6) (w.extractLsb' 8 4) 6 1).trans
        ((field_high (w.extractLsb' 31 1 ++ w.extractLsb' 7 1) (w.extractLsb' 25 6) 0 1).trans
          (field_low (w.extractLsb' 31 1) (w.extractLsb' 7 1))))
  have p5 : (immBOf w).extractLsb' 5 6 = w.extractLsb' 25 6 :=
    (field_high (w.extractLsb' 31 1 ++ w.extractLsb' 7 1 ++ w.extractLsb' 25 6 ++ w.extractLsb' 8 4) 0#1 4 6).trans
      ((field_high (w.extractLsb' 31 1 ++ w.extractLsb' 7 1 ++ w.extractLsb' 25 6) (w.extractLsb' 8 4) 0 6).trans
        (field_low (w.extractLsb' 31 1 ++ w.extractLsb' 7 1) (w.extractLsb' 25 6)))
  have p1 : (immBOf w).extractLsb' 1 4 = w.extractLsb' 8 4 :=
    (field_high (w.extractLsb' 31 1 ++ w.extractLsb' 7 1 ++ w.extractLsb' 25 6 ++ w.extractLsb' 8 4) 0#1 0 4).trans
      (field_low (w.extractLsb' 31 1 ++ w.extractLsb' 7 1 ++ w.extractLsb' 25 6) (w.extractLsb' 8 4))
  have h1 : w.extractLsb' 31 1 ++ w.extractLsb' 25 6 = w.extractLsb' 25 7 := field_join w 25 6 1
  have h2 : w.extractLsb' 25 7 ++ w.extractLsb' 20 5 = w.extractLsb' 20 12 := field_join w 20 5 7
  have h3 : w.extractLsb' 20 12 ++ w.extractLsb' 15 5 = w.extractLsb' 15 17 := field_join w 15 5 12
  have h4 : w.extractLsb' 15 17 ++ w.extractLsb' 12 3 = w.extractLsb' 12 20 := field_join w 12 3 17
  have h5 : w.extractLsb' 12 20 ++ w.extractLsb' 8 4 = w.extractLsb' 8 24 := field_join w 8 4 20
  have h6 : w.extractLsb' 8 24 ++ w.extractLsb' 7 1 = w.extractLsb' 7 25 := field_join w 7 1 24
  have h7 : w.extractLsb' 7 25 ++ w.extractLsb' 0 7 = w.extractLsb' 0 32 := field_join w 0 7 25
  unfold encB
  rw [p12, p5, p1, p11]
  exact (congrArg (fun x : BitVec 7 => x ++ w.extractLsb' 20 5 ++ w.extractLsb' 15 5 ++ w.extractLsb' 12 3 ++ w.extractLsb' 8 4
      ++ w.extractLsb' 7 1 ++ w.extractLsb' 0 7) h1).trans
    ((congrArg (fun x : BitVec 12 => x ++ w.extractLsb' 15 5 ++ w.extractLsb' 12 3 ++ w.extractLsb' 8 4
      ++ w.extractLsb' 7 1 ++ w.extractLsb' 0 7) h2).trans
    ((congrArg (fun x : BitVec 17 => x ++ w.extractLsb' 12 3 ++ w.extractLsb' 8 4 ++ w.extractLsb' 7 1 ++ w.extractLsb' 0 7) h3).trans
    ((congrArg (fun x : BitVec 20 => x ++ w.extractLsb' 8 4 ++ w.extractLsb' 7 1 ++ w.extractLsb' 0 7) h4).trans
    ((congrArg (fun x : BitVec 24 => x ++ w.extractLsb' 7 1 ++ w.extractLsb' 0 7) h5).trans
    ((congrArg (fun x : BitVec 25 => x ++ w.extractLsb' 0 7) h6).trans (h7.trans BitVec.extractLsb'_eq_self))))))

/-- The pieces of the J-type layout cover a word. -/
theorem encJ_fields (w : Word) : encJ (immJOf w) (rdOf w) (opcodeOf w) = w := by
  have p20 : (immJOf w).extractLsb' 20 1 = w.extractLsb' 31 1 :=
    (field_high (w.extractLsb' 31 1 ++ w.extractLsb' 12 8 ++ w.extractLsb' 20 1 ++ w.extractLsb' 21 10) 0#1 19 1).trans
      ((field_high (w.extractLsb' 31 1 ++ w.extractLsb' 12 8 ++ w.extractLsb' 20 1) (w.extractLsb' 21 10) 9 1).trans
        ((field_high (w.extractLsb' 31 1 ++ w.extractLsb' 12 8) (w.extractLsb' 20 1) 8 1).trans
          ((field_high (w.extractLsb' 31 1) (w.extractLsb' 12 8) 0 1).trans BitVec.extractLsb'_eq_self)))
  have p12 : (immJOf w).extractLsb' 12 8 = w.extractLsb' 12 8 :=
    (field_high (w.extractLsb' 31 1 ++ w.extractLsb' 12 8 ++ w.extractLsb' 20 1 ++ w.extractLsb' 21 10) 0#1 11 8).trans
      ((field_high (w.extractLsb' 31 1 ++ w.extractLsb' 12 8 ++ w.extractLsb' 20 1) (w.extractLsb' 21 10) 1 8).trans
        ((field_high (w.extractLsb' 31 1 ++ w.extractLsb' 12 8) (w.extractLsb' 20 1) 0 8).trans
          (field_low (w.extractLsb' 31 1) (w.extractLsb' 12 8))))
  have p11 : (immJOf w).extractLsb' 11 1 = w.extractLsb' 20 1 :=
    (field_high (w.extractLsb' 31 1 ++ w.extractLsb' 12 8 ++ w.extractLsb' 20 1 ++ w.extractLsb' 21 10) 0#1 10 1).trans
      ((field_high (w.extractLsb' 31 1 ++ w.extractLsb' 12 8 ++ w.extractLsb' 20 1) (w.extractLsb' 21 10) 0 1).trans
        (field_low (w.extractLsb' 31 1 ++ w.extractLsb' 12 8) (w.extractLsb' 20 1)))
  have p1 : (immJOf w).extractLsb' 1 10 = w.extractLsb' 21 10 :=
    (field_high (w.extractLsb' 31 1 ++ w.extractLsb' 12 8 ++ w.extractLsb' 20 1 ++ w.extractLsb' 21 10) 0#1 0 10).trans
      (field_low (w.extractLsb' 31 1 ++ w.extractLsb' 12 8 ++ w.extractLsb' 20 1) (w.extractLsb' 21 10))
  have h1 : w.extractLsb' 31 1 ++ w.extractLsb' 21 10 = w.extractLsb' 21 11 := field_join w 21 10 1
  have h2 : w.extractLsb' 21 11 ++ w.extractLsb' 20 1 = w.extractLsb' 20 12 := field_join w 20 1 11
  have h3 : w.extractLsb' 20 12 ++ w.extractLsb' 12 8 = w.extractLsb' 12 20 := field_join w 12 8 12
  unfold encJ
  rw [p20, p1, p11, p12]
  exact (congrArg (fun x : BitVec 11 => x ++ w.extractLsb' 20 1 ++ w.extractLsb' 12 8 ++ rdOf w ++ opcodeOf w) h1).trans
    ((congrArg (fun x : BitVec 12 => x ++ w.extractLsb' 12 8 ++ rdOf w ++ opcodeOf w) h2).trans
      ((congrArg (fun x : BitVec 20 => x ++ rdOf w ++ opcodeOf w) h3).trans (encU_fields w)))

/-- Every B-immediate is even (R102). -/
theorem immBOf_even (w : Word) : evenOffset13 (immBOf w) = true := by
  have : (immBOf w).extractLsb' 0 1 = 0#1 :=
    field_low (w.extractLsb' 31 1 ++ w.extractLsb' 7 1 ++ w.extractLsb' 25 6 ++ w.extractLsb' 8 4) 0#1
  simp [evenOffset13, this]

/-- Every J-immediate is even (R104). -/
theorem immJOf_even (w : Word) : evenOffset21 (immJOf w) = true := by
  have : (immJOf w).extractLsb' 0 1 = 0#1 :=
    field_low (w.extractLsb' 31 1 ++ w.extractLsb' 12 8 ++ w.extractLsb' 20 1 ++ w.extractLsb' 21 10) 0#1
  simp [evenOffset21, this]

end Sys2Proof
end

