-- ==== Sys2Proof/Laws/Memory.lean ====
section
/-! SUPPORT. Every memory operation keeps the canonical form; what a read gives after a write. -/

namespace Sys2Proof.Machine

@[simp] theorem Memory.read_nil (a : Nat) : Memory.read [] a = Config.unlistedByte := rfl

theorem Memory.wf_nil : Memory.wf [] := ⟨List.Pairwise.nil, by simp⟩

theorem Memory.wf_tail {c : Host.Cell} {m : Memory} (h : Memory.wf (c :: m)) : Memory.wf m :=
  ⟨(List.pairwise_cons.mp h.1).2, fun d hd => h.2 d (List.mem_cons_of_mem c hd)⟩

/-- An address below every listed one reads as the unlisted byte. -/
theorem Memory.read_of_lt {m : Memory} {a : Nat} (h : ∀ c ∈ m, a < c.1) : Memory.read m a = Config.unlistedByte := by
  induction m with
  | nil => rfl
  | cons c m ih =>
    have hc := h c (by simp)
    have hne : ¬ c.1 = a := by omega
    simpa [Memory.read, hne] using ih (fun d hd => h d (List.mem_cons_of_mem _ hd))

/-- Where an entry of a written memory comes from. -/
theorem Memory.mem_write {m : Memory} {a : Nat} {v : Byte} {c : Host.Cell} (h : c ∈ Memory.write m a v) :
    (c = (a, v) ∧ v ≠ Config.unlistedByte) ∨ c ∈ m := by
  induction m with
  | nil =>
    simp only [Memory.write] at h
    split at h
    · simp at h
    · exact .inl ⟨by simpa using h, ‹_›⟩
  | cons d m ih =>
    obtain ⟨k, u⟩ := d
    simp only [Memory.write] at h
    split at h
    · split at h
      · exact .inr h
      · rcases List.mem_cons.mp h with h | h
        · exact .inl ⟨h, ‹_›⟩
        · exact .inr h
    · split at h
      · split at h
        · exact .inr (List.mem_cons_of_mem _ h)
        · rcases List.mem_cons.mp h with h | h
          · exact .inl ⟨h, ‹_›⟩
          · exact .inr (List.mem_cons_of_mem _ h)
      · rcases List.mem_cons.mp h with h | h
        · exact .inr (by simp [h])
        · exact (ih h).imp_right (List.mem_cons_of_mem _)

theorem Memory.write_wf {m : Memory} {a : Nat} (v : Byte) (h : Memory.wf m) (ha : a < 2 ^ 32) :
    Memory.wf (Memory.write m a v) := by
  refine ⟨?_, fun c hc => ?_⟩
  · induction m with
    | nil =>
      simp only [Memory.write]
      split <;> simp
    | cons d m ih =>
      obtain ⟨k, u⟩ := d
      have hm := List.pairwise_cons.mp h.1
      have ht := Memory.wf_tail h
      simp only [Memory.write]
      split
      · split
        · exact h.1
        · refine List.pairwise_cons.mpr ⟨fun c hc => ?_, h.1⟩
          rcases List.mem_cons.mp hc with rfl | hc
          · assumption
          · have := hm.1 c hc
            simp only at *
            omega
      · split
        · split
          · exact hm.2
          · subst_vars
            exact List.pairwise_cons.mpr ⟨hm.1, hm.2⟩
        · refine List.pairwise_cons.mpr ⟨fun c hc => ?_, ih ht⟩
          rcases Memory.mem_write hc with ⟨rfl, -⟩ | hc
          · simp only at *
            omega
          · exact hm.1 c hc
  · rcases Memory.mem_write hc with ⟨rfl, hv⟩ | hc
    · exact ⟨ha, hv⟩
    · exact h.2 c hc

theorem Memory.writeBytes_wf {m : Memory} (a : Word) (bytes : List Byte) (h : Memory.wf m) :
    Memory.wf (Memory.writeBytes m a bytes) := by
  induction bytes generalizing m a with
  | nil => exact h
  | cons b rest ih => exact ih _ (Memory.write_wf b h a.isLt)

theorem Memory.writeEach_wf {m : Memory} (cells : List (Word × Byte)) (h : Memory.wf m) :
    Memory.wf (Memory.writeEach m cells) := by
  induction cells generalizing m with
  | nil => exact h
  | cons c rest ih => exact ih (Memory.write_wf c.2 h c.1.isLt)

theorem reset_memory_wf : Memory.wf State.reset.mem := Memory.wf_nil

/-- A read after a write gives the value written, and every other address reads as before. -/
theorem Memory.read_write {m : Memory} (h : Memory.wf m) (a : Nat) (v : Byte) (b : Nat) :
    Memory.read (Memory.write m a v) b = if a = b then v else Memory.read m b := by
  induction m with
  | nil =>
    simp only [Memory.write]
    split
    · split <;> simp [*]
    · simp [Memory.read]
  | cons d m ih =>
    obtain ⟨k, u⟩ := d
    have hm := (List.pairwise_cons.mp h.1).1
    have hlow : ∀ c, c ≤ k → Memory.read m c = Config.unlistedByte := fun c hc =>
      Memory.read_of_lt (fun e he => Nat.lt_of_le_of_lt hc (hm e he))
    simp only [Memory.write]
    split
    · have hbelow : Memory.read ((k, u) :: m) a = Config.unlistedByte := by
        have hne : ¬ k = a := by omega
        simpa [Memory.read, hne] using hlow a (by omega)
      split
      · by_cases hab : a = b
        · subst hab
          rw [hbelow, if_pos rfl]
          exact Eq.symm ‹_›
        · simp [hab]
      · by_cases hab : a = b <;> simp [Memory.read, hab]
    · split
      · subst_vars
        split
        · by_cases hab : k = b
          · subst hab
            simp [hlow k (Nat.le_refl k), *]
          · simp [Memory.read, hab]
        · by_cases hab : k = b <;> simp [Memory.read, hab]
      · have := ih (Memory.wf_tail h)
        by_cases hkb : k = b
        · have hne : ¬ a = b := by omega
          simp [Memory.read, hkb, hne]
        · simp [Memory.read, hkb, this]

theorem byteAddr_succ (a : Word) (i : Nat) : byteAddr (a + 1#32) i = byteAddr a (i + 1) := by
  have : a + 1#32 + BitVec.ofNat 32 i = a + (BitVec.ofNat 32 i + 1#32) := by
    rw [BitVec.add_assoc, BitVec.add_comm (1#32)]
  simpa [byteAddr, BitVec.ofNat_add] using congrArg BitVec.toNat this

theorem Memory.read_writeBytes_of_not_mem {m : Memory} (h : Memory.wf m) (a : Word) (bytes : List Byte) (b : Nat)
    (hb : ∀ i, i < bytes.length → byteAddr a i ≠ b) :
    Memory.read (Memory.writeBytes m a bytes) b = Memory.read m b := by
  induction bytes generalizing m a with
  | nil => rfl
  | cons x rest ih =>
    have h0 : a.toNat ≠ b := by simpa [byteAddr] using hb 0 (by simp)
    have := ih (Memory.write_wf x h a.isLt) (a + 1#32) (fun i hi => by
      rw [byteAddr_succ]
      exact hb (i + 1) (by simpa using hi))
    simpa [Memory.writeBytes, Memory.read_write h, h0] using this

/-! ### The set of stored-to addresses -/

theorem mem_insertAddr {l : List Nat} {a b : Nat} : b ∈ insertAddr l a ↔ b = a ∨ b ∈ l := by
  induction l with
  | nil => simp [insertAddr]
  | cons k rest ih =>
    simp only [insertAddr]
    split
    · simp
    · split
      · subst_vars
        simp
      · simp [ih, or_left_comm]

theorem mem_insertAddrs {l new : List Nat} {b : Nat} : b ∈ insertAddrs l new ↔ b ∈ new ∨ b ∈ l := by
  induction new generalizing l with
  | nil => simp [insertAddrs]
  | cons a rest ih =>
    simp only [insertAddrs, ih, mem_insertAddr, List.mem_cons]
    tauto

theorem insertAddr_sorted {l : List Nat} (a : Nat) (h : l.Pairwise (· < ·)) : (insertAddr l a).Pairwise (· < ·) := by
  induction l with
  | nil => simp [insertAddr]
  | cons k rest ih =>
    obtain ⟨hk, hr⟩ := List.pairwise_cons.mp h
    simp only [insertAddr]
    split
    · refine List.pairwise_cons.mpr ⟨fun b hb => ?_, h⟩
      rcases List.mem_cons.mp hb with rfl | hb
      · assumption
      · exact Nat.lt_trans ‹_› (hk b hb)
    · split
      · exact h
      · refine List.pairwise_cons.mpr ⟨fun b hb => ?_, ih hr⟩
        rcases mem_insertAddr.mp hb with rfl | hb
        · omega
        · exact hk b hb

theorem insertAddrs_sorted {l : List Nat} (new : List Nat) (h : l.Pairwise (· < ·)) :
    (insertAddrs l new).Pairwise (· < ·) := by
  induction new generalizing l with
  | nil => exact h
  | cons a rest ih => exact ih (insertAddr_sorted a h)

theorem mem_byteAddrs {a : Word} {n b : Nat} : b ∈ byteAddrs a n ↔ ∃ i, i < n ∧ byteAddr a i = b := by
  simp [byteAddrs]

theorem byteAddr_lt (a : Word) (i : Nat) : byteAddr a i < 2 ^ 32 := (a + BitVec.ofNat 32 i).isLt

end Sys2Proof.Machine
end

