-- ==== Sys2Proof/Laws/State.lean ====
section
/-! SUPPORT. One lemma per field per update of the state, each true by unfolding, and the register laws. -/

namespace Sys2Proof.Machine

/-! ### `setPc`, `advance` -/

@[simp] theorem setPc_pc (s : State) (t : Word) : (s.setPc t).pc = t := rfl
@[simp] theorem setPc_regs (s : State) (t : Word) : (s.setPc t).regs = s.regs := rfl
@[simp] theorem setPc_mem (s : State) (t : Word) : (s.setPc t).mem = s.mem := rfl
@[simp] theorem setPc_written (s : State) (t : Word) : (s.setPc t).written = s.written := rfl
@[simp] theorem setPc_eei (s : State) (t : Word) : (s.setPc t).eei = s.eei := rfl
@[simp] theorem setPc_draws (s : State) (t : Word) : (s.setPc t).draws = s.draws := rfl
@[simp] theorem setPc_events (s : State) (t : Word) : (s.setPc t).events = s.events := rfl
@[simp] theorem setPc_readReg (s : State) (t : Word) (r : RegNum) : (s.setPc t).readReg r = s.readReg r := rfl

@[simp] theorem advance_pc (s : State) : s.advance.pc = s.pc + 4#32 := rfl
@[simp] theorem advance_regs (s : State) : s.advance.regs = s.regs := rfl
@[simp] theorem advance_mem (s : State) : s.advance.mem = s.mem := rfl
@[simp] theorem advance_written (s : State) : s.advance.written = s.written := rfl
@[simp] theorem advance_eei (s : State) : s.advance.eei = s.eei := rfl
@[simp] theorem advance_draws (s : State) : s.advance.draws = s.draws := rfl
@[simp] theorem advance_events (s : State) : s.advance.events = s.events := rfl
@[simp] theorem advance_readReg (s : State) (r : RegNum) : s.advance.readReg r = s.readReg r := rfl

/-! ### `writeReg`, `result` -/

@[simp] theorem writeReg_pc (s : State) (r : RegNum) (v : Word) : (s.writeReg r v).pc = s.pc := rfl
@[simp] theorem writeReg_mem (s : State) (r : RegNum) (v : Word) : (s.writeReg r v).mem = s.mem := rfl
@[simp] theorem writeReg_written (s : State) (r : RegNum) (v : Word) : (s.writeReg r v).written = s.written := rfl
@[simp] theorem writeReg_eei (s : State) (r : RegNum) (v : Word) : (s.writeReg r v).eei = s.eei := rfl
@[simp] theorem writeReg_draws (s : State) (r : RegNum) (v : Word) : (s.writeReg r v).draws = s.draws := rfl
@[simp] theorem writeReg_events (s : State) (r : RegNum) (v : Word) : (s.writeReg r v).events = s.events := rfl

@[simp] theorem result_pc (s : State) (r : RegNum) (v : Word) : (s.result r v).pc = s.pc + 4#32 := rfl
@[simp] theorem result_mem (s : State) (r : RegNum) (v : Word) : (s.result r v).mem = s.mem := rfl
@[simp] theorem result_written (s : State) (r : RegNum) (v : Word) : (s.result r v).written = s.written := rfl
@[simp] theorem result_eei (s : State) (r : RegNum) (v : Word) : (s.result r v).eei = s.eei := rfl
@[simp] theorem result_draws (s : State) (r : RegNum) (v : Word) : (s.result r v).draws = s.draws := rfl
@[simp] theorem result_events (s : State) (r : RegNum) (v : Word) : (s.result r v).events = s.events := rfl
@[simp] theorem result_readReg (s : State) (r q : RegNum) (v : Word) :
    (s.result r v).readReg q = (s.writeReg r v).readReg q := rfl

/-! ### `putBytes`, `resume`, `boot` -/

@[simp] theorem putBytes_pc (s : State) (a : Word) (l : List Byte) : (s.putBytes a l).pc = s.pc := rfl
@[simp] theorem putBytes_regs (s : State) (a : Word) (l : List Byte) : (s.putBytes a l).regs = s.regs := rfl
@[simp] theorem putBytes_mem (s : State) (a : Word) (l : List Byte) :
    (s.putBytes a l).mem = Memory.writeBytes s.mem a l := rfl
@[simp] theorem putBytes_written (s : State) (a : Word) (l : List Byte) :
    (s.putBytes a l).written = insertAddrs s.written (byteAddrs a l.length) := rfl
@[simp] theorem putBytes_eei (s : State) (a : Word) (l : List Byte) : (s.putBytes a l).eei = s.eei := rfl
@[simp] theorem putBytes_draws (s : State) (a : Word) (l : List Byte) : (s.putBytes a l).draws = s.draws := rfl
@[simp] theorem putBytes_events (s : State) (a : Word) (l : List Byte) : (s.putBytes a l).events = s.events := rfl
@[simp] theorem putBytes_readReg (s : State) (a : Word) (l : List Byte) (r : RegNum) :
    (s.putBytes a l).readReg r = s.readReg r := rfl

@[simp] theorem resume_written (s : State) (r : TrapRecord) : (s.resume r).written = s.written := rfl
@[simp] theorem resume_eei (s : State) (r : TrapRecord) : (s.resume r).eei = s.eei := rfl
@[simp] theorem resume_draws (s : State) (r : TrapRecord) : (s.resume r).draws = s.draws + 1 := rfl
@[simp] theorem resume_events (s : State) (r : TrapRecord) : (s.resume r).events = s.events := rfl

@[simp] theorem withOnTrap_regs (s : State) (o : OnTrap) : (s.withOnTrap o).regs = s.regs := rfl
@[simp] theorem withOnTrap_pc (s : State) (o : OnTrap) : (s.withOnTrap o).pc = s.pc := rfl
@[simp] theorem withOnTrap_mem (s : State) (o : OnTrap) : (s.withOnTrap o).mem = s.mem := rfl
@[simp] theorem withOnTrap_written (s : State) (o : OnTrap) : (s.withOnTrap o).written = s.written := rfl
@[simp] theorem withOnTrap_eei (s : State) (o : OnTrap) : (s.withOnTrap o).eei = { s.eei with onTrap := o } := rfl
@[simp] theorem withOnTrap_draws (s : State) (o : OnTrap) : (s.withOnTrap o).draws = s.draws := rfl
@[simp] theorem withOnTrap_events (s : State) (o : OnTrap) : (s.withOnTrap o).events = s.events := rfl
@[simp] theorem withOnTrap_readReg (s : State) (o : OnTrap) (r : RegNum) : (s.withOnTrap o).readReg r = s.readReg r := rfl
@[simp] theorem withOnTrap_withOnTrap (s : State) (o o' : OnTrap) : (s.withOnTrap o).withOnTrap o' = s.withOnTrap o' := rfl
@[simp] theorem withOnTrap_self (s : State) : s.withOnTrap s.eei.onTrap = s := rfl

@[simp] theorem boot_regs (p : ResetParams) : (State.boot p).regs = p.initRegs := rfl
@[simp] theorem boot_pc (p : ResetParams) : (State.boot p).pc = p.resetPc := rfl
@[simp] theorem boot_mem (p : ResetParams) : (State.boot p).mem = p.initMem := rfl
@[simp] theorem boot_written (p : ResetParams) : (State.boot p).written = [] := rfl
@[simp] theorem boot_eei (p : ResetParams) : (State.boot p).eei = p.eei := rfl
@[simp] theorem boot_draws (p : ResetParams) : (State.boot p).draws = 0 := rfl
@[simp] theorem boot_events (p : ResetParams) : (State.boot p).events = [] := rfl

/-! ### `observe` -/

@[simp] theorem observe_pc (s : State) (k : AccessKind) (a : Word) (n : Width) (l : List Byte) :
    (s.observe k a n l).pc = s.pc := by unfold State.observe; split <;> rfl
@[simp] theorem observe_regs (s : State) (k : AccessKind) (a : Word) (n : Width) (l : List Byte) :
    (s.observe k a n l).regs = s.regs := by unfold State.observe; split <;> rfl
@[simp] theorem observe_mem (s : State) (k : AccessKind) (a : Word) (n : Width) (l : List Byte) :
    (s.observe k a n l).mem = s.mem := by unfold State.observe; split <;> rfl
@[simp] theorem observe_written (s : State) (k : AccessKind) (a : Word) (n : Width) (l : List Byte) :
    (s.observe k a n l).written = s.written := by unfold State.observe; split <;> rfl
@[simp] theorem observe_eei (s : State) (k : AccessKind) (a : Word) (n : Width) (l : List Byte) :
    (s.observe k a n l).eei = s.eei := by unfold State.observe; split <;> rfl
@[simp] theorem observe_readReg (s : State) (k : AccessKind) (a : Word) (n : Width) (l : List Byte) (r : RegNum) :
    (s.observe k a n l).readReg r = s.readReg r := by simp [State.readReg]

/-! ### Registers -/

@[simp] theorem readReg_zero (s : State) : s.readReg 0#5 = 0#32 := rfl

theorem writeReg_zero (s : State) (v : Word) : s.writeReg 0#5 v = s := rfl

theorem regIndex_ne {r q : RegNum} (hr : r ≠ 0#5) (hq : q ≠ 0#5) (h : r ≠ q) : (regIndex r).val ≠ (regIndex q).val := by
  have h1 : r.toNat ≠ 0 := fun h => hr (BitVec.eq_of_toNat_eq (by simpa using h))
  have h2 : q.toNat ≠ 0 := fun h => hq (BitVec.eq_of_toNat_eq (by simpa using h))
  have h3 : r.toNat ≠ q.toNat := fun e => h (BitVec.eq_of_toNat_eq e)
  simp only [regIndex]
  omega

theorem readReg_writeReg (s : State) (r q : RegNum) (v : Word) :
    (s.writeReg r v).readReg q = if q = r ∧ q ≠ 0#5 then v else s.readReg q := by
  unfold State.readReg State.writeReg
  by_cases hq : q = 0#5
  · simp [hq]
  by_cases hr : r = 0#5
  · have : ¬ q = r := fun h => hq (h.trans hr)
    simp [hr, hq]
  by_cases h : q = r
  · subst h
    simp [hq]
  · have := regIndex_ne hr hq (Ne.symm h)
    simp [hr, hq, h, this]

end Sys2Proof.Machine
end

