-- ==== Sys2Proof/Laws/Ops.lean ====
section
/-! SUPPORT. One lemma per shared operation that says once what it can do; proofs cite these instead of unfolding it. -/

namespace Sys2Proof.Machine

/-! ### Alignment, permission, devices -/

theorem naturallyAligned_iff {a : Word} {n : Width} : naturallyAligned a n = true ↔ a.toNat % n.bytes = 0 := by
  simp [naturallyAligned]

theorem naturallyAligned_false_iff {a : Word} {n : Width} : naturallyAligned a n = false ↔ a.toNat % n.bytes ≠ 0 := by
  simp [naturallyAligned]

theorem fourByteAligned_iff {t : Word} : fourByteAligned t = true ↔ t.toNat % 4 = 0 := by
  simp only [fourByteAligned, beq_iff_eq, ← BitVec.toNat_inj]
  simp

theorem fourByteAligned_false_iff {t : Word} : fourByteAligned t = false ↔ t.toNat % 4 ≠ 0 := by
  rw [Ne, ← fourByteAligned_iff, Bool.not_eq_true]

theorem permitted_iff {s : State} {kind : AccessKind} {a : Word} {n : Width} :
    s.permitted kind a n = true ↔ ∀ k, k < n.bytes → s.eei.memMap.allows (byteAddr a k) kind n = true := by
  simp [State.permitted, byteAddrs]

theorem touchesDevice_false_iff {s : State} {a : Word} {n : Width} : s.touchesDevice a n = false ↔ s.ordinary a n := by
  simp [State.touchesDevice, byteAddrs, State.ordinary]

theorem touchesDevice_true_iff {s : State} {a : Word} {n : Width} : s.touchesDevice a n = true ↔ ¬ s.ordinary a n := by
  rw [← touchesDevice_false_iff, Bool.not_eq_false]

theorem checkAccess_none_iff {s : State} {kind : AccessKind} {a : Word} {n : Width} :
    s.checkAccess kind a n = none ↔ s.accessOk kind a n := by
  have hm : (s.eei.misaligned = .trap) ↔ ¬ s.eei.misaligned = .support := by cases s.eei.misaligned <;> simp
  unfold State.checkAccess State.accessOk
  simp only [naturallyAligned_false_iff, ← permitted_iff, hm]
  by_cases h : a.toNat % n.bytes = 0 <;> by_cases h2 : s.eei.misaligned = .support <;>
    by_cases h3 : s.permitted kind a n = true <;> simp [h, h2, h3]

/-- What the checks of a data access can raise (R56, R57, R60). -/
theorem checkAccess_some {s : State} {kind : AccessKind} {a : Word} {n : Width} {e : Exception}
    (h : s.checkAccess kind a n = some e) :
    (a.toNat % n.bytes ≠ 0 ∧ s.eei.misaligned = .trap ∧ e = misalignedException kind a) ∨
    ((a.toNat % n.bytes = 0 ∨ s.eei.misaligned = .support) ∧
      (∃ k, k < n.bytes ∧ s.eei.memMap.allows (byteAddr a k) kind n = false) ∧ e = accessFaultException kind a) := by
  unfold State.checkAccess at h
  split at h
  · exact .inl ⟨naturallyAligned_false_iff.mp (And.left ‹_›), And.right ‹_›, by simpa using h.symm⟩
  · split at h
    · cases h
    · refine .inr ⟨?_, ?_, by simpa using h.symm⟩
      · rename_i h1 _
        by_cases ha : a.toNat % n.bytes = 0
        · exact .inl ha
        · have : ¬ s.eei.misaligned = .trap := fun hm => h1 ⟨naturallyAligned_false_iff.mpr ha, hm⟩
          revert this
          cases s.eei.misaligned <;> simp
      · have := mt permitted_iff.mpr ‹_›
        simpa using this

theorem checkAccess_misaligned {s : State} {kind : AccessKind} {a : Word} {n : Width} (ha : a.toNat % n.bytes ≠ 0)
    (hp : s.eei.misaligned = .trap) : s.checkAccess kind a n = some (misalignedException kind a) := by
  simp [State.checkAccess, naturallyAligned_false_iff.mpr ha, hp]

theorem checkAccess_denied {s : State} {kind : AccessKind} {a : Word} {n : Width} {k : Nat}
    (ha : a.toNat % n.bytes = 0 ∨ s.eei.misaligned = .support) (hk : k < n.bytes)
    (hd : s.eei.memMap.allows (byteAddr a k) kind n = false) : s.checkAccess kind a n = some (accessFaultException kind a) := by
  have hperm : ¬ s.permitted kind a n = true := fun h => by simp [permitted_iff.mp h k hk] at hd
  unfold State.checkAccess
  simp only [naturallyAligned_false_iff]
  rw [if_neg, if_neg hperm]
  rintro ⟨h1, h2⟩
  rcases ha with ha | ha
  · exact h1 ha
  · simp [ha] at h2

/-! ### Byte order -/

@[simp] theorem leBytes_length (v : Word) (n : Nat) : (leBytes v n).length = n := by
  induction n generalizing v with
  | zero => rfl
  | succ n ih => simp [leBytes, ih]

theorem leBytes_get (v : Word) (n k : Nat) (h : k < n) : (leBytes v n)[k]'(by simpa using h) = v.extractLsb' (8 * k) 8 := by
  induction n generalizing v k with
  | zero => omega
  | succ n ih =>
    cases k with
    | zero =>
      simp only [leBytes, List.getElem_cons_zero]
      ext i hi
      simp
    | succ k =>
      simp only [leBytes, List.getElem_cons_succ]
      rw [ih (v >>> 8) k (by omega)]
      ext i hi
      simp [Nat.mul_add, Nat.add_assoc, Nat.add_left_comm]

theorem leBytes_eq_map (v : Word) (n : Nat) : leBytes v n = (List.range n).map (fun k => v.extractLsb' (8 * k) 8) := by
  refine List.ext_getElem (by simp) fun k h1 h2 => ?_
  rw [leBytes_get v n k (by simpa using h1)]
  simp

theorem leValue_one (b0 : Byte) : leValue [b0] = 0#24 ++ b0 := by
  refine BitVec.eq_of_getLsbD_eq fun i hi => ?_
  simp only [leValue, BitVec.getLsbD_append, BitVec.getLsbD_or, BitVec.getLsbD_shiftLeft, BitVec.getLsbD_setWidth]
  interval_cases i <;> simp

theorem leValue_two (b0 b1 : Byte) : leValue [b0, b1] = 0#16 ++ (b1 ++ b0) := by
  refine BitVec.eq_of_getLsbD_eq fun i hi => ?_
  simp only [leValue, BitVec.getLsbD_append, BitVec.getLsbD_or, BitVec.getLsbD_shiftLeft, BitVec.getLsbD_setWidth]
  interval_cases i <;> simp

theorem leValue_four (b0 b1 b2 b3 : Byte) : leValue [b0, b1, b2, b3] = b3 ++ b2 ++ b1 ++ b0 := by
  refine BitVec.eq_of_getLsbD_eq fun i hi => ?_
  simp only [leValue, BitVec.getLsbD_append, BitVec.getLsbD_or, BitVec.getLsbD_shiftLeft, BitVec.getLsbD_setWidth]
  interval_cases i <;> simp

/-- The little-endian value of a value's four bytes is the value (R51). -/
theorem leValue_leBytes (v : Word) : leValue (leBytes v 4) = v := by
  refine BitVec.eq_of_getLsbD_eq fun i hi => ?_
  simp only [leBytes, leValue, BitVec.getLsbD_or, BitVec.getLsbD_shiftLeft, BitVec.getLsbD_setWidth,
    BitVec.getLsbD_ushiftRight]
  interval_cases i <;> simp

/-! ### Bytes seen and written -/

theorem bytesSeen_eq (s : State) (a : Word) (n : Width) : s.bytesSeen a n = (List.range n.bytes).map (s.seen a) := rfl

theorem seen_ordinary {s : State} {a : Word} {n : Width} (h : s.ordinary a n) {k : Nat} (hk : k < n.bytes) :
    s.seen a k = s.byteAt a k := by
  simp [State.seen, h k hk]

theorem byteAddr_inj {a : Word} {i j : Nat} (hi : i < 2 ^ 32) (hj : j < 2 ^ 32) (h : byteAddr a i = byteAddr a j) : i = j := by
  simp only [byteAddr, BitVec.toNat_add, BitVec.toNat_ofNat] at h
  omega

/-- A read at byte `k` of bytes just written gives that byte. -/
theorem Memory.read_writeBytes {m : Memory} (h : Memory.wf m) (a : Word) (bytes : List Byte) (k : Nat) (hk : k < bytes.length)
    (hlen : bytes.length ≤ 2 ^ 32) : Memory.read (Memory.writeBytes m a bytes) (byteAddr a k) = bytes[k] := by
  induction bytes generalizing m a k with
  | nil => simp at hk
  | cons b rest ih =>
    have hw := Memory.write_wf b h a.isLt
    simp only [List.length_cons] at hk hlen
    cases k with
    | zero =>
      have hne : ∀ i, i < rest.length → byteAddr (a + 1#32) i ≠ byteAddr a 0 := fun i hi he => by
        rw [byteAddr_succ] at he
        have := byteAddr_inj (by omega) (by omega) he
        omega
      rw [Memory.writeBytes, Memory.read_writeBytes_of_not_mem hw _ _ _ hne, Memory.read_write h]
      simp [byteAddr]
    | succ k =>
      rw [Memory.writeBytes, ← byteAddr_succ, ih hw (a + 1#32) k (by omega) (by omega)]
      rfl

/-- What `putBytes` leaves: the bytes at their addresses, every other byte as it was, the addresses in the stored-to set. -/
theorem putBytes_storesOnly {s : State} (h : Memory.wf s.mem) (a v : Word) {n : Nat} (hn : n ≤ 4) :
    StoresOnly a n v s (s.putBytes a (leBytes v n)) := by
  refine ⟨fun r => rfl, fun k hk => ?_, fun b hb => ?_, fun b => ?_, rfl⟩
  · show Memory.read (Memory.writeBytes s.mem a (leBytes v n)) (byteAddr a k) = _
    rw [Memory.read_writeBytes h a (leBytes v n) k (by simpa using hk) (by simp; omega), leBytes_get v n k hk]
  · refine Memory.read_writeBytes_of_not_mem h a (leBytes v n) b fun i hi he => hb ?_
    exact mem_byteAddrs.mpr ⟨i, by simpa using hi, he⟩
  · simp [mem_insertAddrs, or_comm]

/-! ### Devices -/

theorem observe_ordinary {s : State} {kind : AccessKind} {a : Word} {n : Width} {bytes : List Byte} (h : s.ordinary a n) :
    s.observe kind a n bytes = s := by
  simp [State.observe, touchesDevice_false_iff.mpr h]

theorem observe_device {s : State} {kind : AccessKind} {a : Word} {n : Width} {bytes : List Byte} (h : ¬ s.ordinary a n) :
    s.observe kind a n bytes =
      { s with draws := s.draws + n.bytes, events := s.events ++ s.accessEvents kind a n bytes } := by
  simp [State.observe, touchesDevice_true_iff.mpr h]

/-- Recording an access adds to the draws and the events, and changes nothing else. -/
theorem observe_adds (s : State) (kind : AccessKind) (a : Word) (n : Width) (bytes : List Byte) :
    ∃ d evs, s.observe kind a n bytes = { s with draws := s.draws + d, events := s.events ++ evs } := by
  by_cases h : s.ordinary a n
  · exact ⟨0, [], by simp [observe_ordinary h]⟩
  · exact ⟨_, _, observe_device h⟩

/-! ### Taking an exception -/

theorem handOver_fatal {s : State} (hs : s.eei.onTrap = .fatal) (h : Handler) (r : TrapRecord) :
    s.handOver h r = .fault (.trap r) := by
  simp [State.handOver, hs]

theorem handOver_handler {s : State} (hs : s.eei.onTrap = .handler) (h : Handler) (r : TrapRecord) :
    s.handOver h r = .next (h s r) := by
  simp [State.handOver, hs]

theorem handOver_next {s t : State} {h : Handler} {r : TrapRecord} (hn : s.handOver h r = .next t) :
    s.eei.onTrap = .handler ∧ t = h s r := by
  unfold State.handOver at hn
  split at hn
  · cases hn
  · exact ⟨‹_›, by simpa using hn.symm⟩

theorem handOver_fault {s : State} {h : Handler} {r : TrapRecord} {f : Fault} (hn : s.handOver h r = .fault f) :
    s.eei.onTrap = .fatal ∧ f = .trap r := by
  unfold State.handOver at hn
  split at hn
  · exact ⟨‹_›, by simpa using hn.symm⟩
  · cases hn

theorem handOver_ne_refused (s : State) (h : Handler) (r : TrapRecord) (x : Refusal) : s.handOver h r ≠ .refused x := by
  unfold State.handOver
  split <;> simp

theorem raise_fatal {s : State} (h : s.eei.onTrap = .fatal) (e : Exception) :
    s.raise e = .fault (.trap (trapRecord e s.pc)) := handOver_fatal h _ _

theorem raise_handler {s : State} (h : s.eei.onTrap = .handler) (e : Exception) :
    s.raise e = .next (s.resume (trapRecord e s.pc)) := handOver_handler h _ _

theorem raise_next {s t : State} {e : Exception} (h : s.raise e = .next t) :
    s.eei.onTrap = .handler ∧ t = s.resume (trapRecord e s.pc) := handOver_next h

theorem raise_fault {s : State} {e : Exception} {f : Fault} (h : s.raise e = .fault f) :
    s.eei.onTrap = .fatal ∧ f = .trap (trapRecord e s.pc) := handOver_fault h

theorem raise_ne_refused (s : State) (e : Exception) (r : Refusal) : s.raise e ≠ .refused r := handOver_ne_refused s _ _ r

theorem resume_pc_aligned (s : State) (r : TrapRecord) : (s.resume r).pc.toNat % 4 = 0 := by
  rw [← fourByteAligned_iff]
  simp only [fourByteAligned, State.resume, beq_iff_eq]
  exact BitVec.extractLsb'_append_eq_right

/-! ### `MemRead`, `MemWrite`, loads and stores -/

theorem memRead_ok {s : State} {a : Word} {n : Width} (h : s.accessOk .load a n) :
    s.memRead a n = .ok (leValue ((List.range n.bytes).map (s.seen a)),
      s.observe .load a n ((List.range n.bytes).map (s.seen a))) := by
  simp [State.memRead, checkAccess_none_iff.mpr h, bytesSeen_eq]

theorem memWrite_ok {s : State} {a v : Word} {n : Width} (h : s.accessOk .store a n) :
    s.memWrite a n v = .ok ((s.putBytes a (leBytes v n.bytes)).observe .store a n (leBytes v n.bytes)) := by
  simp [State.memWrite, checkAccess_none_iff.mpr h]

theorem load_ok {s : State} {n : Width} {ext : Word → Word} {rd : RegNum} {a : Word} (h : s.accessOk .load a n) :
    s.load n ext rd a = .next ((s.observe .load a n ((List.range n.bytes).map (s.seen a))).result rd
      (ext (leValue ((List.range n.bytes).map (s.seen a))))) := by
  simp [State.load, memRead_ok h]

theorem load_raises {s : State} {n : Width} {ext : Word → Word} {rd : RegNum} {a : Word} {e : Exception}
    (h : s.checkAccess .load a n = some e) : s.load n ext rd a = s.raise e := by
  simp [State.load, State.memRead, h]

/-- A load goes through or raises what its checks raise; there is no third case. -/
theorem load_cases (s : State) (n : Width) (ext : Word → Word) (rd : RegNum) (a : Word) :
    (s.accessOk .load a n ∧
      s.load n ext rd a = .next ((s.observe .load a n ((List.range n.bytes).map (s.seen a))).result rd
        (ext (leValue ((List.range n.bytes).map (s.seen a)))))) ∨
    ∃ e, s.checkAccess .load a n = some e ∧ s.load n ext rd a = s.raise e := by
  cases h : s.checkAccess .load a n with
  | none => exact .inl ⟨checkAccess_none_iff.mp h, load_ok (checkAccess_none_iff.mp h)⟩
  | some e => exact .inr ⟨e, rfl, load_raises h⟩

theorem store_ok {s : State} {n : Width} {a v : Word} (h : s.accessOk .store a n) :
    s.store n a v = .next ((s.putBytes a (leBytes v n.bytes)).observe .store a n (leBytes v n.bytes)).advance := by
  simp [State.store, memWrite_ok h]

theorem store_raises {s : State} {n : Width} {a v : Word} {e : Exception} (h : s.checkAccess .store a n = some e) :
    s.store n a v = s.raise e := by
  simp [State.store, State.memWrite, h]

/-- A store goes through or raises what its checks raise; there is no third case. -/
theorem store_cases (s : State) (n : Width) (a v : Word) :
    (s.accessOk .store a n ∧
      s.store n a v = .next ((s.putBytes a (leBytes v n.bytes)).observe .store a n (leBytes v n.bytes)).advance) ∨
    ∃ e, s.checkAccess .store a n = some e ∧ s.store n a v = s.raise e := by
  cases h : s.checkAccess .store a n with
  | none => exact .inl ⟨checkAccess_none_iff.mp h, store_ok (checkAccess_none_iff.mp h)⟩
  | some e => exact .inr ⟨e, rfl, store_raises h⟩

/-! ### Results, jumps and branches -/

theorem result_writesOnly (s : State) (rd : RegNum) (v : Word) : WritesOnly rd v s (s.result rd v) := by
  refine ⟨?_, fun r hr => ?_, fun a => rfl, rfl, rfl, rfl, rfl⟩
  · rw [result_readReg, readReg_writeReg]
    by_cases h : rd = 0#5 <;> simp [h]
  · rw [result_readReg, readReg_writeReg, if_neg (fun h => hr h.1)]

theorem link_writesOnly (s : State) (rd : RegNum) (v t : Word) : WritesOnly rd v s ((s.writeReg rd v).setPc t) :=
  result_writesOnly s rd v

theorem changesOnlyPc_setPc (s : State) (t : Word) : ChangesOnlyPc s (s.setPc t) :=
  ⟨fun _ => rfl, fun _ => rfl, rfl, rfl, rfl, rfl⟩

theorem jump_aligned {s : State} {rd : RegNum} {t : Word} (h : t.toNat % 4 = 0) :
    s.jump rd t = .next ((s.writeReg rd (s.pc + 4#32)).setPc t) := by
  simp [State.jump, fourByteAligned_iff.mpr h]

theorem jump_misaligned {s : State} {rd : RegNum} {t : Word} (h : t.toNat % 4 ≠ 0) :
    s.jump rd t = s.raise (.instructionAddressMisaligned t) := by
  simp [State.jump, fourByteAligned_false_iff.mpr h]

theorem branch_not_taken (s : State) (t : Word) : s.branch false t = .next s.advance := rfl

theorem branch_aligned {s : State} {t : Word} (h : t.toNat % 4 = 0) : s.branch true t = .next (s.setPc t) := by
  simp [State.branch, fourByteAligned_iff.mpr h]

theorem branch_misaligned {s : State} {t : Word} (h : t.toNat % 4 ≠ 0) :
    s.branch true t = s.raise (.instructionAddressMisaligned t) := by
  simp [State.branch, fourByteAligned_false_iff.mpr h]

/-! ### The fetch and the step -/

theorem storedTo_false_iff {s : State} : s.storedTo s.pc = false ↔ s.fetchClean := by
  simp [State.storedTo, byteAddrs, State.fetchClean]

/-- The fetch of an allowed, clean, aligned pc gives the word of the bytes seen there. -/
theorem fetch_word {s : State} (ha : s.pc.toNat % 4 = 0) (hp : s.fetchAllowed) (hc : s.fetchClean) :
    s.fetch = .word (s.seen s.pc 3 ++ s.seen s.pc 2 ++ s.seen s.pc 1 ++ s.seen s.pc 0)
      (s.observe .fetch s.pc .word [s.seen s.pc 0, s.seen s.pc 1, s.seen s.pc 2, s.seen s.pc 3]) := by
  have h1 : fourByteAligned s.pc = true := fourByteAligned_iff.mpr ha
  have h2 : s.permitted .fetch s.pc .word = true := permitted_iff.mpr hp
  have h3 : s.bytesSeen s.pc .word = [s.seen s.pc 0, s.seen s.pc 1, s.seen s.pc 2, s.seen s.pc 3] := rfl
  simp [State.fetch, h1, h2, storedTo_false_iff.mpr hc, h3, leValue_four]

theorem fetch_ordinary {s : State} (ha : s.pc.toNat % 4 = 0) (hp : s.fetchAllowed) (hc : s.fetchClean)
    (ho : s.ordinary s.pc .word) : s.fetch = .word s.wordAtPc s := by
  rw [fetch_word ha hp hc, observe_ordinary ho]
  simp [State.wordAtPc, seen_ordinary ho (show 0 < Width.word.bytes by decide), seen_ordinary ho (show 1 < Width.word.bytes by decide),
    seen_ordinary ho (show 2 < Width.word.bytes by decide), seen_ordinary ho (show 3 < Width.word.bytes by decide)]

/-- The four answers of the fetch. -/
theorem fetch_cases (s : State) :
    (s.pc.toNat % 4 ≠ 0 ∧ s.fetch = .raised (.instructionAddressMisaligned s.pc)) ∨
    (s.pc.toNat % 4 = 0 ∧ ¬ s.fetchAllowed ∧ s.fetch = .raised (.instructionAccessFault s.pc)) ∨
    (s.pc.toNat % 4 = 0 ∧ s.fetchAllowed ∧ ¬ s.fetchClean ∧ s.fetch = .refused) ∨
    (s.pc.toNat % 4 = 0 ∧ s.fetchAllowed ∧ s.fetchClean ∧ ∃ w, s.fetch =
      .word w (s.observe .fetch s.pc .word [s.seen s.pc 0, s.seen s.pc 1, s.seen s.pc 2, s.seen s.pc 3])) := by
  by_cases ha : s.pc.toNat % 4 = 0
  · have h1 := fourByteAligned_iff.mpr ha
    by_cases hp : s.fetchAllowed
    · have h2 : s.permitted .fetch s.pc .word = true := permitted_iff.mpr hp
      by_cases hc : s.fetchClean
      · exact .inr (.inr (.inr ⟨ha, hp, hc, _, fetch_word ha hp hc⟩))
      · have h3 : s.storedTo s.pc = true := by
          rw [← Bool.not_eq_false, storedTo_false_iff]
          exact hc
        exact .inr (.inr (.inl ⟨ha, hp, hc, by simp [State.fetch, h1, h2, h3]⟩))
    · have h2 : s.permitted .fetch s.pc .word = false := by
        rw [← Bool.not_eq_true, permitted_iff]
        exact hp
      exact .inr (.inl ⟨ha, hp, by simp [State.fetch, h1, h2]⟩)
  · exact .inl ⟨ha, by simp [State.fetch, fourByteAligned_false_iff.mpr ha]⟩

/-- The step, by what the fetch answers and what the word decodes to. -/
theorem step_word {s s' : State} {w : Word} {i : Instr} (hf : s.fetch = .word w s') (hd : decode w = .ok i) :
    step s = exec i s' := by
  simp [step, hf, hd]

theorem step_illegal {s s' : State} {w : Word} {e : Illegal} (hf : s.fetch = .word w s') (hd : decode w = .error e) :
    step s = s'.raise (.illegalInstruction w) := by
  simp [step, hf, hd]

theorem step_raised {s : State} {e : Exception} (hf : s.fetch = .raised e) : step s = s.raise e := by
  simp [step, hf]

theorem step_refused {s : State} (hf : s.fetch = .refused) : step s = .refused (.fetchOfStoredBytes s.pc) := by
  simp [step, hf]

end Sys2Proof.Machine
end

