-- ==== Sys2Proof/Laws/Environment.lean ====
section
/-! SUPPORT. What an execution and a step under a given handler function can do, case by case. -/

namespace Sys2Proof.Machine

theorem execUnder_next {h : Handler} {i : Instr} {s t : State} (he : exec i (s.withOnTrap .fatal) = .next t) :
    execUnder h i s = .next (t.withOnTrap s.eei.onTrap) := by
  simp [execUnder, he]

theorem execUnder_trap {h : Handler} {i : Instr} {s : State} {r : TrapRecord}
    (he : exec i (s.withOnTrap .fatal) = .fault (.trap r)) : execUnder h i s = s.handOver h r := by
  simp [execUnder, he]

theorem stepUnder_word {h : Handler} {s s' : State} {w : Word} {i : Instr} (hf : s.fetch = .word w s')
    (hd : decode w = .ok i) : stepUnder h s = execUnder h i s' := by
  simp [stepUnder, hf, hd]

theorem stepUnder_illegal {h : Handler} {s s' : State} {w : Word} {e : Illegal} (hf : s.fetch = .word w s')
    (hd : decode w = .error e) : stepUnder h s = s'.handOver h (trapRecord (.illegalInstruction w) s'.pc) := by
  simp [stepUnder, hf, hd]

theorem stepUnder_raised {h : Handler} {s : State} {e : Exception} (hf : s.fetch = .raised e) :
    stepUnder h s = s.handOver h (trapRecord e s.pc) := by
  simp [stepUnder, hf]

theorem stepUnder_refused {h : Handler} {s : State} (hf : s.fetch = .refused) :
    stepUnder h s = .refused (.fetchOfStoredBytes s.pc) := by
  simp [stepUnder, hf]

theorem afterFetch_word {s s' : State} {w : Word} (hf : s.fetch = .word w s') : s.afterFetch = s' := by
  simp [State.afterFetch, hf]

theorem afterFetch_raised {s : State} {e : Exception} (hf : s.fetch = .raised e) : s.afterFetch = s := by
  simp [State.afterFetch, hf]

/-- `ON_TRAP` plays no part in the fetch. -/
theorem fetch_withOnTrap (s : State) (o : OnTrap) : (s.withOnTrap o).fetch =
    match s.fetch with
    | .word w s' => .word w (s'.withOnTrap o)
    | .raised e => .raised e
    | .refused => .refused := by
  have ho : (s.withOnTrap o).observe .fetch s.pc .word (s.bytesSeen s.pc .word) =
      (s.observe .fetch s.pc .word (s.bytesSeen s.pc .word)).withOnTrap o := by
    have ht : (s.withOnTrap o).touchesDevice s.pc .word = s.touchesDevice s.pc .word := rfl
    unfold State.observe
    rw [ht]
    split <;> rfl
  have hp : (s.withOnTrap o).permitted .fetch s.pc .word = s.permitted .fetch s.pc .word := rfl
  have hw : (s.withOnTrap o).storedTo s.pc = s.storedTo s.pc := rfl
  have hb : (s.withOnTrap o).bytesSeen s.pc .word = s.bytesSeen s.pc .word := rfl
  unfold State.fetch
  simp only [withOnTrap_pc, hp, hw, hb, ho]
  split
  · rfl
  split
  · rfl
  split <;> rfl

end Sys2Proof.Machine
end

