-- ==== Sys2Proof/Laws/Operands.lean ====
section
/-! SUPPORT. What the operand forms are as numbers and bit by bit (R100 to R105, R160). -/

namespace Sys2Proof.Machine

theorem imm12_getLsbD (imm : BitVec 12) (k : Nat) (hk : k < 32) : (imm12 imm).getLsbD k = imm.getLsbD (min k 11) := by
  rw [imm12, BitVec.getLsbD_signExtend]
  by_cases h : k < 12
  · have : min k 11 = k := by omega
    simp [hk, h, this]
  · have : min k 11 = 11 := by omega
    simp [hk, h, this, BitVec.msb_eq_getLsbD_last]

theorem imm12_toInt (imm : BitVec 12) : (imm12 imm).toInt = imm.toInt := BitVec.toInt_signExtend_of_le (by decide)

theorem immB_toInt (offset : BitVec 13) : (immB offset).toInt = offset.toInt := BitVec.toInt_signExtend_of_le (by decide)

theorem immJ_toInt (offset : BitVec 21) : (immJ offset).toInt = offset.toInt := BitVec.toInt_signExtend_of_le (by decide)

theorem imm12_toNat (imm : BitVec 12) : ((imm12 imm).toNat : Int) = imm.toInt % 2 ^ 32 := by
  rw [imm12, BitVec.signExtend, BitVec.toNat_ofInt]
  exact Int.toNat_of_nonneg (Int.emod_nonneg _ (by decide))

theorem immU_toNat (imm20 : BitVec 20) : (immU imm20).toNat = imm20.toNat * 4096 := by
  have h : (immU imm20).toNat = imm20.toNat <<< 12 ||| (0#12).toNat := BitVec.toNat_append imm20 0#12
  simpa [Nat.shiftLeft_eq] using h

theorem shiftAmount_toNat (v : Word) : (shiftAmount v).toNat = v.toNat % 32 := by
  simp [shiftAmount]

end Sys2Proof.Machine
end

