-- ==== Sys2Proof/Laws/Exec.lean ====
section
/-! SUPPORT. What `exec` is, family by family: proofs over all instructions split into these few shapes, not into 42 arms. -/

namespace Sys2Proof.Machine

theorem exec_jump {i : Instr} {s : State} {t : Word} (ht : targetOf i s = some t) (hj : isJump i = true) :
    ∃ rd, destReg i = some rd ∧ exec i s = s.jump rd t := by
  cases i <;> simp_all [targetOf, isJump] <;> subst ht <;> exact ⟨_, rfl, rfl⟩

theorem exec_branch {i : Instr} {s : State} {t : Word} (ht : targetOf i s = some t) (hj : isJump i = false) :
    destReg i = none ∧ exec i s = s.branch (branchTaken i s) t := by
  refine ⟨by cases i <;> simp_all [targetOf, isJump, destReg], ?_⟩
  cases i <;> simp_all [targetOf, isJump] <;> subst ht <;>
    simp [exec, execBeq, execBne, execBlt, execBge, execBltu, execBgeu, branchTaken, State.branchTarget, immB, lessSigned,
      lessUnsigned, BitVec.slt, BitVec.ult]
  all_goals congr 1
  all_goals
    rw [Bool.eq_iff_iff]
    simp

theorem exec_load {i : Instr} {s : State} {a : Word} {n : Width} (h : accessOf i s = some (.load, a, n)) :
    ∃ ext rd, destReg i = some rd ∧ exec i s = s.load n ext rd a := by
  cases i <;> simp [accessOf] at h <;> obtain ⟨rfl, rfl⟩ := h <;> exact ⟨_, _, rfl, rfl⟩

theorem exec_store {i : Instr} {s : State} {a : Word} {n : Width} (h : accessOf i s = some (.store, a, n)) :
    ∃ r, destReg i = none ∧ r ∈ sourceRegs i ∧ exec i s = s.store n a (s.readReg r) := by
  cases i <;> simp [accessOf] at h <;> obtain ⟨rfl, rfl⟩ := h <;> exact ⟨_, rfl, by simp [sourceRegs], rfl⟩

theorem accessOf_ne_fetch {i : Instr} {s : State} {a : Word} {n : Width} : accessOf i s ≠ some (.fetch, a, n) := by
  cases i <;> simp [accessOf]

/-- The seven shapes of an instruction's meaning. -/
theorem exec_cases (i : Instr) (s : State) :
    (∃ rd v, destReg i = some rd ∧ accessOf i s = none ∧ targetOf i s = none ∧ exec i s = s.compute rd v) ∨
    (∃ rd t, destReg i = some rd ∧ accessOf i s = none ∧ targetOf i s = some t ∧ isJump i = true ∧ exec i s = s.jump rd t) ∨
    (∃ t, destReg i = none ∧ accessOf i s = none ∧ targetOf i s = some t ∧ isJump i = false ∧
      exec i s = s.branch (branchTaken i s) t) ∨
    (∃ n ext rd a, destReg i = some rd ∧ accessOf i s = some (.load, a, n) ∧ targetOf i s = none ∧ exec i s = s.load n ext rd a) ∨
    (∃ n a v, destReg i = none ∧ accessOf i s = some (.store, a, n) ∧ targetOf i s = none ∧ exec i s = s.store n a v) ∨
    (destReg i = none ∧ accessOf i s = none ∧ targetOf i s = none ∧ i ≠ .ecall ∧ i ≠ .ebreak ∧ exec i s = .next s.advance) ∨
    (destReg i = none ∧ accessOf i s = none ∧ targetOf i s = none ∧
      ((i = .ecall ∧ exec i s = s.raise .environmentCall) ∨ (i = .ebreak ∧ exec i s = s.raise (.breakpoint s.pc)))) := by
  cases ht : targetOf i s with
  | some t =>
    have ha : accessOf i s = none := by cases i <;> simp_all [targetOf, accessOf]
    cases hj : isJump i with
    | true =>
      obtain ⟨rd, hd, he⟩ := exec_jump ht hj
      exact .inr (.inl ⟨rd, t, hd, ha, rfl, rfl, he⟩)
    | false =>
      obtain ⟨hd, he⟩ := exec_branch ht hj
      exact .inr (.inr (.inl ⟨t, hd, ha, rfl, rfl, he⟩))
  | none =>
    cases ha : accessOf i s with
    | some p =>
      obtain ⟨kind, a, n⟩ := p
      cases kind with
      | fetch => exact absurd ha accessOf_ne_fetch
      | load =>
        obtain ⟨ext, rd, hd, he⟩ := exec_load ha
        exact .inr (.inr (.inr (.inl ⟨n, ext, rd, a, hd, rfl, rfl, he⟩)))
      | store =>
        obtain ⟨r, hd, _, he⟩ := exec_store ha
        exact .inr (.inr (.inr (.inr (.inl ⟨n, a, _, hd, rfl, rfl, he⟩))))
    | none =>
      cases i with
      | ecall => exact .inr (.inr (.inr (.inr (.inr (.inr ⟨rfl, rfl, rfl, .inl ⟨rfl, rfl⟩⟩)))))
      | ebreak => exact .inr (.inr (.inr (.inr (.inr (.inr ⟨rfl, rfl, rfl, .inr ⟨rfl, rfl⟩⟩)))))
      | fence => exact .inr (.inr (.inr (.inr (.inr (.inl ⟨rfl, rfl, rfl, by simp, by simp, rfl⟩)))))
      | fenceTso => exact .inr (.inr (.inr (.inr (.inr (.inl ⟨rfl, rfl, rfl, by simp, by simp, rfl⟩)))))
      | pause => exact .inr (.inr (.inr (.inr (.inr (.inl ⟨rfl, rfl, rfl, by simp, by simp, rfl⟩)))))
      | _ => first | (simp [targetOf] at ht; done) | (simp [accessOf] at ha; done) | exact .inl ⟨_, _, rfl, rfl, rfl, rfl⟩

end Sys2Proof.Machine
end

