-- ==== Sys2Proof/Laws/PerInstr.lean ====
section
/-! SUPPORT. The family `EncodesInItsRow`: an instruction's word matches the row of R112 that bears its mnemonic. -/

namespace Sys2Proof.Laws

/-- The word of the instruction, under the mask of the row of R112 with its mnemonic, is that row's match. -/
def EncodesInItsRow.Statement (i : Instr) : Prop :=
  ∃ r, r ∈ opcodeRows ∧ r.mnemonic = i.mnemonic ∧ r.matchesWord (encode i) = true

theorem mask_opcode (w : Word) : w &&& 0x0000007F#32 = (opcodeOf w).setWidth 32 := by
  refine BitVec.eq_of_getLsbD_eq fun i hi => ?_
  interval_cases i <;> simp [opcodeOf]

theorem mask_minor3 (w : Word) :
    w &&& 0x0000707F#32 = (funct3Of w).setWidth 32 <<< 12 ||| (opcodeOf w).setWidth 32 := by
  refine BitVec.eq_of_getLsbD_eq fun i hi => ?_
  interval_cases i <;> simp [opcodeOf, funct3Of]

theorem mask_minor10 (w : Word) : w &&& 0xFE00707F#32 =
    (funct7Of w).setWidth 32 <<< 25 ||| (funct3Of w).setWidth 32 <<< 12 ||| (opcodeOf w).setWidth 32 := by
  refine BitVec.eq_of_getLsbD_eq fun i hi => ?_
  interval_cases i <;> simp [opcodeOf, funct3Of, funct7Of]

/-- A word with a row's opcode matches a row that fixes the opcode alone. -/
theorem matches_opcode {name : String} {p w : Word} {op : BitVec 7} (h : opcodeOf w = op) (hp : op.setWidth 32 = p) :
    OpcodeRow.matchesWord ⟨name, p, 0x0000007F⟩ w = true := by
  simp only [OpcodeRow.matchesWord, beq_iff_eq]
  exact (mask_opcode w).trans ((congrArg _ h).trans hp)

/-- A word with a row's opcode and funct3 matches a row that fixes these two. -/
theorem matches_minor3 {name : String} {p w : Word} {op : BitVec 7} {f3 : BitVec 3} (h : opcodeOf w = op) (h3 : funct3Of w = f3)
    (hp : f3.setWidth 32 <<< 12 ||| op.setWidth 32 = p) : OpcodeRow.matchesWord ⟨name, p, 0x0000707F⟩ w = true := by
  subst h h3 hp
  simp only [OpcodeRow.matchesWord, beq_iff_eq]
  exact mask_minor3 w

/-- A word with a row's opcode, funct3 and funct7 matches a row that fixes these three. -/
theorem matches_minor10 {name : String} {p w : Word} {op : BitVec 7} {f3 : BitVec 3} {f7 : BitVec 7} (h : opcodeOf w = op)
    (h3 : funct3Of w = f3) (h7 : funct7Of w = f7)
    (hp : f7.setWidth 32 <<< 25 ||| f3.setWidth 32 <<< 12 ||| op.setWidth 32 = p) :
    OpcodeRow.matchesWord ⟨name, p, 0xFE00707F⟩ w = true := by
  subst h h3 h7 hp
  simp only [OpcodeRow.matchesWord, beq_iff_eq]
  exact mask_minor10 w

/-! ### Matching a row, by the fields it fixes -/

theorem matches_opcode_eq {name : String} {p w : Word} (hp : p &&& 0x0000007F = p) :
    OpcodeRow.matchesWord ⟨name, p, 0x0000007F⟩ w = (opcodeOf w == opcodeOf p) := by
  rw [Bool.eq_iff_iff]
  simp only [OpcodeRow.matchesWord, beq_iff_eq]
  constructor
  · intro h
    rw [← h]
    refine BitVec.eq_of_getLsbD_eq fun i hi => ?_
    interval_cases i <;> simp [opcodeOf]
  · intro h
    exact (mask_opcode w).trans ((congrArg _ h).trans ((mask_opcode p).symm.trans hp))

theorem matches_minor3_eq {name : String} {p w : Word} (hp : p &&& 0x0000707F = p) :
    OpcodeRow.matchesWord ⟨name, p, 0x0000707F⟩ w = (opcodeOf w == opcodeOf p && funct3Of w == funct3Of p) := by
  rw [Bool.eq_iff_iff]
  simp only [OpcodeRow.matchesWord, beq_iff_eq, Bool.and_eq_true]
  constructor
  · intro h
    rw [← h]
    constructor <;> refine BitVec.eq_of_getLsbD_eq fun i hi => ?_ <;> interval_cases i <;> simp [opcodeOf, funct3Of]
  · intro h
    rw [← hp]
    exact (mask_minor3 w).trans (by rw [h.1, h.2]; exact (mask_minor3 p).symm)

theorem matches_minor10_eq {name : String} {p w : Word} (hp : p &&& 0xFE00707F = p) :
    OpcodeRow.matchesWord ⟨name, p, 0xFE00707F⟩ w =
      (opcodeOf w == opcodeOf p && funct3Of w == funct3Of p && funct7Of w == funct7Of p) := by
  rw [Bool.eq_iff_iff]
  simp only [OpcodeRow.matchesWord, beq_iff_eq, Bool.and_eq_true]
  constructor
  · intro h
    rw [← h]
    refine ⟨⟨?_, ?_⟩, ?_⟩ <;> refine BitVec.eq_of_getLsbD_eq fun i hi => ?_ <;> interval_cases i <;>
      simp [opcodeOf, funct3Of, funct7Of]
  · intro h
    rw [← hp]
    exact (mask_minor10 w).trans (by rw [h.1.1, h.1.2, h.2]; exact (mask_minor10 p).symm)

/-- A row that fixes the whole word. -/
theorem matches_word_eq {name : String} {p w : Word} :
    OpcodeRow.matchesWord ⟨name, p, 0xFFFFFFFF⟩ w = (w == p) := by
  rw [Bool.eq_iff_iff]
  simp only [OpcodeRow.matchesWord, beq_iff_eq]
  rw [show w &&& 4294967295 = w from BitVec.and_allOnes]

/-! ### One lemma per instruction -/

theorem EncodesInItsRow.lui (rd : RegNum) (imm20 : BitVec 20) : EncodesInItsRow.Statement (.lui rd imm20) :=
  ⟨⟨"LUI", 0x00000037, 0x0000007F⟩, by decide, rfl, matches_opcode (opcodeOf_encU _ _ _) (by decide)⟩

theorem EncodesInItsRow.auipc (rd : RegNum) (imm20 : BitVec 20) : EncodesInItsRow.Statement (.auipc rd imm20) :=
  ⟨⟨"AUIPC", 0x00000017, 0x0000007F⟩, by decide, rfl, matches_opcode (opcodeOf_encU _ _ _) (by decide)⟩

theorem EncodesInItsRow.jal (rd : RegNum) (offset : BitVec 21) : EncodesInItsRow.Statement (.jal rd offset) :=
  ⟨⟨"JAL", 0x0000006F, 0x0000007F⟩, by decide, rfl, matches_opcode (opcodeOf_encJ _ _ _) (by decide)⟩

theorem EncodesInItsRow.jalr (rd rs1 : RegNum) (imm : BitVec 12) : EncodesInItsRow.Statement (.jalr rd rs1 imm) :=
  ⟨⟨"JALR", 0x00000067, 0x0000707F⟩, by decide, rfl, matches_minor3 (opcodeOf_encI _ _ _ _ _) (funct3Of_encI _ _ _ _ _) (by decide)⟩

theorem EncodesInItsRow.beq (rs1 rs2 : RegNum) (offset : BitVec 13) : EncodesInItsRow.Statement (.beq rs1 rs2 offset) :=
  ⟨⟨"BEQ", 0x00000063, 0x0000707F⟩, by decide, rfl, matches_minor3 (opcodeOf_encB _ _ _ _ _) (funct3Of_encB _ _ _ _ _) (by decide)⟩

theorem EncodesInItsRow.bne (rs1 rs2 : RegNum) (offset : BitVec 13) : EncodesInItsRow.Statement (.bne rs1 rs2 offset) :=
  ⟨⟨"BNE", 0x00001063, 0x0000707F⟩, by decide, rfl, matches_minor3 (opcodeOf_encB _ _ _ _ _) (funct3Of_encB _ _ _ _ _) (by decide)⟩

theorem EncodesInItsRow.blt (rs1 rs2 : RegNum) (offset : BitVec 13) : EncodesInItsRow.Statement (.blt rs1 rs2 offset) :=
  ⟨⟨"BLT", 0x00004063, 0x0000707F⟩, by decide, rfl, matches_minor3 (opcodeOf_encB _ _ _ _ _) (funct3Of_encB _ _ _ _ _) (by decide)⟩

theorem EncodesInItsRow.bge (rs1 rs2 : RegNum) (offset : BitVec 13) : EncodesInItsRow.Statement (.bge rs1 rs2 offset) :=
  ⟨⟨"BGE", 0x00005063, 0x0000707F⟩, by decide, rfl, matches_minor3 (opcodeOf_encB _ _ _ _ _) (funct3Of_encB _ _ _ _ _) (by decide)⟩

theorem EncodesInItsRow.bltu (rs1 rs2 : RegNum) (offset : BitVec 13) : EncodesInItsRow.Statement (.bltu rs1 rs2 offset) :=
  ⟨⟨"BLTU", 0x00006063, 0x0000707F⟩, by decide, rfl, matches_minor3 (opcodeOf_encB _ _ _ _ _) (funct3Of_encB _ _ _ _ _) (by decide)⟩

theorem EncodesInItsRow.bgeu (rs1 rs2 : RegNum) (offset : BitVec 13) : EncodesInItsRow.Statement (.bgeu rs1 rs2 offset) :=
  ⟨⟨"BGEU", 0x00007063, 0x0000707F⟩, by decide, rfl, matches_minor3 (opcodeOf_encB _ _ _ _ _) (funct3Of_encB _ _ _ _ _) (by decide)⟩

theorem EncodesInItsRow.lb (rd rs1 : RegNum) (imm : BitVec 12) : EncodesInItsRow.Statement (.lb rd rs1 imm) :=
  ⟨⟨"LB", 0x00000003, 0x0000707F⟩, by decide, rfl, matches_minor3 (opcodeOf_encI _ _ _ _ _) (funct3Of_encI _ _ _ _ _) (by decide)⟩

theorem EncodesInItsRow.lh (rd rs1 : RegNum) (imm : BitVec 12) : EncodesInItsRow.Statement (.lh rd rs1 imm) :=
  ⟨⟨"LH", 0x00001003, 0x0000707F⟩, by decide, rfl, matches_minor3 (opcodeOf_encI _ _ _ _ _) (funct3Of_encI _ _ _ _ _) (by decide)⟩

theorem EncodesInItsRow.lw (rd rs1 : RegNum) (imm : BitVec 12) : EncodesInItsRow.Statement (.lw rd rs1 imm) :=
  ⟨⟨"LW", 0x00002003, 0x0000707F⟩, by decide, rfl, matches_minor3 (opcodeOf_encI _ _ _ _ _) (funct3Of_encI _ _ _ _ _) (by decide)⟩

theorem EncodesInItsRow.lbu (rd rs1 : RegNum) (imm : BitVec 12) : EncodesInItsRow.Statement (.lbu rd rs1 imm) :=
  ⟨⟨"LBU", 0x00004003, 0x0000707F⟩, by decide, rfl, matches_minor3 (opcodeOf_encI _ _ _ _ _) (funct3Of_encI _ _ _ _ _) (by decide)⟩

theorem EncodesInItsRow.lhu (rd rs1 : RegNum) (imm : BitVec 12) : EncodesInItsRow.Statement (.lhu rd rs1 imm) :=
  ⟨⟨"LHU", 0x00005003, 0x0000707F⟩, by decide, rfl, matches_minor3 (opcodeOf_encI _ _ _ _ _) (funct3Of_encI _ _ _ _ _) (by decide)⟩

theorem EncodesInItsRow.sb (rs1 rs2 : RegNum) (imm : BitVec 12) : EncodesInItsRow.Statement (.sb rs1 rs2 imm) :=
  ⟨⟨"SB", 0x00000023, 0x0000707F⟩, by decide, rfl, matches_minor3 (opcodeOf_encS _ _ _ _ _) (funct3Of_encS _ _ _ _ _) (by decide)⟩

theorem EncodesInItsRow.sh (rs1 rs2 : RegNum) (imm : BitVec 12) : EncodesInItsRow.Statement (.sh rs1 rs2 imm) :=
  ⟨⟨"SH", 0x00001023, 0x0000707F⟩, by decide, rfl, matches_minor3 (opcodeOf_encS _ _ _ _ _) (funct3Of_encS _ _ _ _ _) (by decide)⟩

theorem EncodesInItsRow.sw (rs1 rs2 : RegNum) (imm : BitVec 12) : EncodesInItsRow.Statement (.sw rs1 rs2 imm) :=
  ⟨⟨"SW", 0x00002023, 0x0000707F⟩, by decide, rfl, matches_minor3 (opcodeOf_encS _ _ _ _ _) (funct3Of_encS _ _ _ _ _) (by decide)⟩

theorem EncodesInItsRow.addi (rd rs1 : RegNum) (imm : BitVec 12) : EncodesInItsRow.Statement (.addi rd rs1 imm) :=
  ⟨⟨"ADDI", 0x00000013, 0x0000707F⟩, by decide, rfl, matches_minor3 (opcodeOf_encI _ _ _ _ _) (funct3Of_encI _ _ _ _ _) (by decide)⟩

theorem EncodesInItsRow.slti (rd rs1 : RegNum) (imm : BitVec 12) : EncodesInItsRow.Statement (.slti rd rs1 imm) :=
  ⟨⟨"SLTI", 0x00002013, 0x0000707F⟩, by decide, rfl, matches_minor3 (opcodeOf_encI _ _ _ _ _) (funct3Of_encI _ _ _ _ _) (by decide)⟩

theorem EncodesInItsRow.sltiu (rd rs1 : RegNum) (imm : BitVec 12) : EncodesInItsRow.Statement (.sltiu rd rs1 imm) :=
  ⟨⟨"SLTIU", 0x00003013, 0x0000707F⟩, by decide, rfl, matches_minor3 (opcodeOf_encI _ _ _ _ _) (funct3Of_encI _ _ _ _ _) (by decide)⟩

theorem EncodesInItsRow.xori (rd rs1 : RegNum) (imm : BitVec 12) : EncodesInItsRow.Statement (.xori rd rs1 imm) :=
  ⟨⟨"XORI", 0x00004013, 0x0000707F⟩, by decide, rfl, matches_minor3 (opcodeOf_encI _ _ _ _ _) (funct3Of_encI _ _ _ _ _) (by decide)⟩

theorem EncodesInItsRow.ori (rd rs1 : RegNum) (imm : BitVec 12) : EncodesInItsRow.Statement (.ori rd rs1 imm) :=
  ⟨⟨"ORI", 0x00006013, 0x0000707F⟩, by decide, rfl, matches_minor3 (opcodeOf_encI _ _ _ _ _) (funct3Of_encI _ _ _ _ _) (by decide)⟩

theorem EncodesInItsRow.andi (rd rs1 : RegNum) (imm : BitVec 12) : EncodesInItsRow.Statement (.andi rd rs1 imm) :=
  ⟨⟨"ANDI", 0x00007013, 0x0000707F⟩, by decide, rfl, matches_minor3 (opcodeOf_encI _ _ _ _ _) (funct3Of_encI _ _ _ _ _) (by decide)⟩

theorem EncodesInItsRow.slli (rd rs1 : RegNum) (shamt : BitVec 5) : EncodesInItsRow.Statement (.slli rd rs1 shamt) :=
  ⟨⟨"SLLI", 0x00001013, 0xFE00707F⟩, by decide, rfl, matches_minor10 (opcodeOf_encR _ _ _ _ _ _) (funct3Of_encR _ _ _ _ _ _)
    (funct7Of_encR _ _ _ _ _ _) (by decide)⟩

theorem EncodesInItsRow.srli (rd rs1 : RegNum) (shamt : BitVec 5) : EncodesInItsRow.Statement (.srli rd rs1 shamt) :=
  ⟨⟨"SRLI", 0x00005013, 0xFE00707F⟩, by decide, rfl, matches_minor10 (opcodeOf_encR _ _ _ _ _ _) (funct3Of_encR _ _ _ _ _ _)
    (funct7Of_encR _ _ _ _ _ _) (by decide)⟩

theorem EncodesInItsRow.srai (rd rs1 : RegNum) (shamt : BitVec 5) : EncodesInItsRow.Statement (.srai rd rs1 shamt) :=
  ⟨⟨"SRAI", 0x40005013, 0xFE00707F⟩, by decide, rfl, matches_minor10 (opcodeOf_encR _ _ _ _ _ _) (funct3Of_encR _ _ _ _ _ _)
    (funct7Of_encR _ _ _ _ _ _) (by decide)⟩

theorem EncodesInItsRow.add (rd rs1 rs2 : RegNum) : EncodesInItsRow.Statement (.add rd rs1 rs2) :=
  ⟨⟨"ADD", 0x00000033, 0xFE00707F⟩, by decide, rfl, matches_minor10 (opcodeOf_encR _ _ _ _ _ _) (funct3Of_encR _ _ _ _ _ _)
    (funct7Of_encR _ _ _ _ _ _) (by decide)⟩

theorem EncodesInItsRow.sub (rd rs1 rs2 : RegNum) : EncodesInItsRow.Statement (.sub rd rs1 rs2) :=
  ⟨⟨"SUB", 0x40000033, 0xFE00707F⟩, by decide, rfl, matches_minor10 (opcodeOf_encR _ _ _ _ _ _) (funct3Of_encR _ _ _ _ _ _)
    (funct7Of_encR _ _ _ _ _ _) (by decide)⟩

theorem EncodesInItsRow.sll (rd rs1 rs2 : RegNum) : EncodesInItsRow.Statement (.sll rd rs1 rs2) :=
  ⟨⟨"SLL", 0x00001033, 0xFE00707F⟩, by decide, rfl, matches_minor10 (opcodeOf_encR _ _ _ _ _ _) (funct3Of_encR _ _ _ _ _ _)
    (funct7Of_encR _ _ _ _ _ _) (by decide)⟩

theorem EncodesInItsRow.slt (rd rs1 rs2 : RegNum) : EncodesInItsRow.Statement (.slt rd rs1 rs2) :=
  ⟨⟨"SLT", 0x00002033, 0xFE00707F⟩, by decide, rfl, matches_minor10 (opcodeOf_encR _ _ _ _ _ _) (funct3Of_encR _ _ _ _ _ _)
    (funct7Of_encR _ _ _ _ _ _) (by decide)⟩

theorem EncodesInItsRow.sltu (rd rs1 rs2 : RegNum) : EncodesInItsRow.Statement (.sltu rd rs1 rs2) :=
  ⟨⟨"SLTU", 0x00003033, 0xFE00707F⟩, by decide, rfl, matches_minor10 (opcodeOf_encR _ _ _ _ _ _) (funct3Of_encR _ _ _ _ _ _)
    (funct7Of_encR _ _ _ _ _ _) (by decide)⟩

theorem EncodesInItsRow.xor (rd rs1 rs2 : RegNum) : EncodesInItsRow.Statement (.xor rd rs1 rs2) :=
  ⟨⟨"XOR", 0x00004033, 0xFE00707F⟩, by decide, rfl, matches_minor10 (opcodeOf_encR _ _ _ _ _ _) (funct3Of_encR _ _ _ _ _ _)
    (funct7Of_encR _ _ _ _ _ _) (by decide)⟩

theorem EncodesInItsRow.srl (rd rs1 rs2 : RegNum) : EncodesInItsRow.Statement (.srl rd rs1 rs2) :=
  ⟨⟨"SRL", 0x00005033, 0xFE00707F⟩, by decide, rfl, matches_minor10 (opcodeOf_encR _ _ _ _ _ _) (funct3Of_encR _ _ _ _ _ _)
    (funct7Of_encR _ _ _ _ _ _) (by decide)⟩

theorem EncodesInItsRow.sra (rd rs1 rs2 : RegNum) : EncodesInItsRow.Statement (.sra rd rs1 rs2) :=
  ⟨⟨"SRA", 0x40005033, 0xFE00707F⟩, by decide, rfl, matches_minor10 (opcodeOf_encR _ _ _ _ _ _) (funct3Of_encR _ _ _ _ _ _)
    (funct7Of_encR _ _ _ _ _ _) (by decide)⟩

theorem EncodesInItsRow.or (rd rs1 rs2 : RegNum) : EncodesInItsRow.Statement (.or rd rs1 rs2) :=
  ⟨⟨"OR", 0x00006033, 0xFE00707F⟩, by decide, rfl, matches_minor10 (opcodeOf_encR _ _ _ _ _ _) (funct3Of_encR _ _ _ _ _ _)
    (funct7Of_encR _ _ _ _ _ _) (by decide)⟩

theorem EncodesInItsRow.and (rd rs1 rs2 : RegNum) : EncodesInItsRow.Statement (.and rd rs1 rs2) :=
  ⟨⟨"AND", 0x00007033, 0xFE00707F⟩, by decide, rfl, matches_minor10 (opcodeOf_encR _ _ _ _ _ _) (funct3Of_encR _ _ _ _ _ _)
    (funct7Of_encR _ _ _ _ _ _) (by decide)⟩

theorem EncodesInItsRow.fence (fm pred succ : BitVec 4) (rs1 rd : RegNum) : EncodesInItsRow.Statement (.fence fm pred succ rs1 rd) :=
  ⟨⟨"FENCE", 0x0000000F, 0x0000707F⟩, by decide, rfl, matches_minor3 (opcodeOf_encFence _ _ _ _ _) (funct3Of_encFence _ _ _ _ _) (by decide)⟩

theorem EncodesInItsRow.fenceTso : EncodesInItsRow.Statement .fenceTso :=
  ⟨⟨"FENCE.TSO", 0x8330000F, 0xFFFFFFFF⟩, by decide, rfl, by decide⟩

theorem EncodesInItsRow.pause : EncodesInItsRow.Statement .pause :=
  ⟨⟨"PAUSE", 0x0100000F, 0xFFFFFFFF⟩, by decide, rfl, by decide⟩

theorem EncodesInItsRow.ecall : EncodesInItsRow.Statement .ecall :=
  ⟨⟨"ECALL", 0x00000073, 0xFFFFFFFF⟩, by decide, rfl, by decide⟩

theorem EncodesInItsRow.ebreak : EncodesInItsRow.Statement .ebreak :=
  ⟨⟨"EBREAK", 0x00100073, 0xFFFFFFFF⟩, by decide, rfl, by decide⟩

end Sys2Proof.Laws
end

