-- ==== Sys2Proof/Tests/Slice0.lean ====
section
/-! SUPPORT. The model's own tests: ill-formed terms refused, one word of every constructor written out from the spec's
encoding, single steps with the results of 95_test_vectors.md, and a witness for every statement that has hypotheses. The
expected values come from the spec's tables, not from the model. -/

namespace Sys2Proof.Tests

open Sys2Proof Sys2Proof.Machine

/-! ### Well-formedness (R108, R116): each check refuses an ill-formed term -/

theorem test_wf_odd_branch_offset : (Instr.beq 6 7 5).wf = false := by decide
theorem test_wf_odd_branch_offset_bgeu : (Instr.bgeu 6 7 (-1)).wf = false := by decide
theorem test_wf_odd_jump_offset : (Instr.jal 1 3).wf = false := by decide
theorem test_wf_fence_with_the_word_of_fence_tso : (Instr.fence 8 3 3 0 0).wf = false := by decide
theorem test_wf_fence_with_the_word_of_pause : (Instr.fence 0 1 0 0 0).wf = false := by decide
theorem test_wf_accepts : (Instr.beq 6 7 (-16)).wf && (Instr.jal 1 (-4)).wf && (Instr.fence 0 15 15 0 0).wf &&
    (Instr.fence 8 3 3 0 1).wf = true := by decide

/-! ### Decoding: a word of every constructor, fields set apart as R93 to R98 and R106 lay them out -/

theorem test_decode_lui : decode 0b10110011101000111001_00101_0110111#32 = .ok (.lui 5 0b10110011101000111001) := by decide
theorem test_decode_auipc : decode 0b10110011101000111001_00101_0010111#32 = .ok (.auipc 5 0b10110011101000111001) := by decide
theorem test_decode_jal : decode 0b1_1000111001_0_01100111_00101_1101111#32 = .ok (.jal 5 0b101100111010001110010) := by decide
theorem test_decode_jalr : decode 0b101100111010_10110_000_00101_1100111#32 = .ok (.jalr 5 22 0b101100111010) := by decide
theorem test_decode_beq : decode 0b1_110011_01011_10110_000_1010_0_1100011#32 = .ok (.beq 22 11 0b1011001110100) := by decide
theorem test_decode_bne : decode 0b1_110011_01011_10110_001_1010_0_1100011#32 = .ok (.bne 22 11 0b1011001110100) := by decide
theorem test_decode_blt : decode 0b1_110011_01011_10110_100_1010_0_1100011#32 = .ok (.blt 22 11 0b1011001110100) := by decide
theorem test_decode_bge : decode 0b1_110011_01011_10110_101_1010_0_1100011#32 = .ok (.bge 22 11 0b1011001110100) := by decide
theorem test_decode_bltu : decode 0b1_110011_01011_10110_110_1010_0_1100011#32 = .ok (.bltu 22 11 0b1011001110100) := by decide
theorem test_decode_bgeu : decode 0b1_110011_01011_10110_111_1010_0_1100011#32 = .ok (.bgeu 22 11 0b1011001110100) := by decide
theorem test_decode_lb : decode 0b101100111010_10110_000_00101_0000011#32 = .ok (.lb 5 22 0b101100111010) := by decide
theorem test_decode_lh : decode 0b101100111010_10110_001_00101_0000011#32 = .ok (.lh 5 22 0b101100111010) := by decide
theorem test_decode_lw : decode 0b101100111010_10110_010_00101_0000011#32 = .ok (.lw 5 22 0b101100111010) := by decide
theorem test_decode_lbu : decode 0b101100111010_10110_100_00101_0000011#32 = .ok (.lbu 5 22 0b101100111010) := by decide
theorem test_decode_lhu : decode 0b101100111010_10110_101_00101_0000011#32 = .ok (.lhu 5 22 0b101100111010) := by decide
theorem test_decode_sb : decode 0b1011001_01011_10110_000_11010_0100011#32 = .ok (.sb 22 11 0b101100111010) := by decide
theorem test_decode_sh : decode 0b1011001_01011_10110_001_11010_0100011#32 = .ok (.sh 22 11 0b101100111010) := by decide
theorem test_decode_sw : decode 0b1011001_01011_10110_010_11010_0100011#32 = .ok (.sw 22 11 0b101100111010) := by decide
theorem test_decode_addi : decode 0b101100111010_10110_000_00101_0010011#32 = .ok (.addi 5 22 0b101100111010) := by decide
theorem test_decode_slti : decode 0b101100111010_10110_010_00101_0010011#32 = .ok (.slti 5 22 0b101100111010) := by decide
theorem test_decode_sltiu : decode 0b101100111010_10110_011_00101_0010011#32 = .ok (.sltiu 5 22 0b101100111010) := by decide
theorem test_decode_xori : decode 0b101100111010_10110_100_00101_0010011#32 = .ok (.xori 5 22 0b101100111010) := by decide
theorem test_decode_ori : decode 0b101100111010_10110_110_00101_0010011#32 = .ok (.ori 5 22 0b101100111010) := by decide
theorem test_decode_andi : decode 0b101100111010_10110_111_00101_0010011#32 = .ok (.andi 5 22 0b101100111010) := by decide
theorem test_decode_slli : decode 0b0000000_01011_10110_001_00101_0010011#32 = .ok (.slli 5 22 11) := by decide
theorem test_decode_srli : decode 0b0000000_01011_10110_101_00101_0010011#32 = .ok (.srli 5 22 11) := by decide
theorem test_decode_srai : decode 0b0100000_01011_10110_101_00101_0010011#32 = .ok (.srai 5 22 11) := by decide
theorem test_decode_add : decode 0b0000000_01011_10110_000_00101_0110011#32 = .ok (.add 5 22 11) := by decide
theorem test_decode_sub : decode 0b0100000_01011_10110_000_00101_0110011#32 = .ok (.sub 5 22 11) := by decide
theorem test_decode_sll : decode 0b0000000_01011_10110_001_00101_0110011#32 = .ok (.sll 5 22 11) := by decide
theorem test_decode_slt : decode 0b0000000_01011_10110_010_00101_0110011#32 = .ok (.slt 5 22 11) := by decide
theorem test_decode_sltu : decode 0b0000000_01011_10110_011_00101_0110011#32 = .ok (.sltu 5 22 11) := by decide
theorem test_decode_xor : decode 0b0000000_01011_10110_100_00101_0110011#32 = .ok (.xor 5 22 11) := by decide
theorem test_decode_srl : decode 0b0000000_01011_10110_101_00101_0110011#32 = .ok (.srl 5 22 11) := by decide
theorem test_decode_sra : decode 0b0100000_01011_10110_101_00101_0110011#32 = .ok (.sra 5 22 11) := by decide
theorem test_decode_or : decode 0b0000000_01011_10110_110_00101_0110011#32 = .ok (.or 5 22 11) := by decide
theorem test_decode_and : decode 0b0000000_01011_10110_111_00101_0110011#32 = .ok (.and 5 22 11) := by decide
theorem test_decode_fence : decode 0b1010_0011_0110_10110_000_00101_0001111#32 = .ok (.fence 0b1010 0b0011 0b0110 22 5) := by decide
theorem test_decode_fenceTso : decode 0b1000_0011_0011_00000_000_00000_0001111#32 = .ok (.fenceTso) := by decide
theorem test_decode_pause : decode 0b0000_0001_0000_00000_000_00000_0001111#32 = .ok (.pause) := by decide
theorem test_decode_ecall : decode 0b000000000000_00000_000_00000_1110011#32 = .ok (.ecall) := by decide
theorem test_decode_ebreak : decode 0b000000000001_00000_000_00000_1110011#32 = .ok (.ebreak) := by decide

/-- 95_test_vectors.md part 2.7: every word of its table is illegal. -/
theorem test_illegal_words : ∀ w ∈
  [0x00000000#32, 0xFFFFFFFF#32, 0x00000001#32, 0x02031293#32, 0x42035293#32, 0x80035293#32, 0x027302B3#32,
   0x407312B3#32, 0x0000100F#32, 0xC00012F3#32, 0xC00022F3#32, 0x000000F3#32, 0x00108073#32, 0x00200073#32,
   0x00033283#32, 0x00036283#32, 0x00037283#32, 0x00733023#32, 0x00732463#32, 0x00733463#32, 0x000310E7#32,
   0x0003029B#32, 0x00032287#32, 0x0073202F#32, 0x0000000B#32, 0x0000002B#32, 0x00000057#32, 0x0000006B#32,
   0x0000007B#32, 0x0000200F#32],
    ∃ e, decode w = .error e := by
  intro w hw
  simp only [List.mem_cons, List.not_mem_nil, or_false] at hw
  rcases hw with rfl | rfl | rfl | rfl | rfl | rfl | rfl | rfl | rfl | rfl | rfl | rfl | rfl | rfl | rfl | rfl | rfl | rfl
    | rfl | rfl | rfl | rfl | rfl | rfl | rfl | rfl | rfl | rfl | rfl | rfl <;> exact ⟨_, rfl⟩

/-- The reasons a word is illegal (R118, R121 to R123). -/
theorem test_illegal_reasons :
    decode 0x00000001#32 = .error .compressedLength ∧ decode 0xFFFFFFFF#32 = .error .longLength ∧
    decode 0x0000000B#32 = .error .customOpcode ∧ decode 0x00000057#32 = .error .reservedOpcode ∧
    decode 0x0073202F#32 = .error .foreignOpcode ∧ decode 0x027302B3#32 = .error .unassignedMinor ∧
    decodeBytes [0x13, 0, 0] = .error .truncated := by decide

/-- R67: the byte at the lowest address is `inst[7:0]`. -/
theorem test_decode_bytes : decodeBytes [0x93, 0x02, 0x10, 0x00] = .ok (.addi 5 0 1) := by decide

/-- A LUI word is legal whatever its top byte. -/
theorem test_lui_any_top_byte (d : Byte) :
    decode (d ++ 0#8 ++ 2#8 ++ 0xB7#8) = .ok (.lui 5 (d ++ 0#12)) := by
  revert d; decide

/-- A word whose low three bytes are 0 is illegal whatever its top byte. -/
theorem test_zeros_any_top_byte (d : Byte) : decode (d ++ 0#8 ++ 0#8 ++ 0#8) = .error .compressedLength := by
  revert d; decide

theorem test_decodeTableWord : decodeTableWord 32 0x00100293 = some (.addi 5 0 1) := by decide
theorem test_decodeTableWord_illegal : decodeTableWord 32 0x00000000 = none := by decide

/-! ### Helpers: a small state, and the fields of an outcome -/

/-- x1, x5, x6, x7 as given, the other registers 0, pc 0x1000, and the eight bytes of 95_test_vectors.md part 2.4. -/
def st (x1 x5 x6 x7 : Word) : State :=
  { ((((State.reset.writeReg 1 x1).writeReg 5 x5).writeReg 6 x6).writeReg 7 x7) with
    mem := [(0x2000, 0x78), (0x2001, 0x56), (0x2002, 0x34), (0x2003, 0x92), (0x2004, 0xFF), (0x2005, 0x7F), (0x2006, 0x80)] }

/-- The same under policy `support`. -/
def supporting (s : State) : State := { s with eei := { s.eei with misaligned := .support } }

/-- Every access below 0x3000, and none at 0x3000 and above. -/
def lowMap : MemMap :=
  { rules := [⟨⟨0, 0x2FFF⟩, [.fetch, .load, .store], [.byte, .half, .word], true⟩], devices := [] }

/-- The same with every access at 0x3000 and above denied. -/
def denying (s : State) : State := { s with eei := { s.eei with memMap := lowMap } }

/-- The same with a device at the given addresses. -/
def withDevice (first last : Word) (s : State) : State :=
  { s with eei := { s.eei with memMap := { MemMap.everything with devices := [⟨first, last⟩] } } }

/-- The same with an environment that handles traps. -/
def handled (s : State) : State := s.withOnTrap .handler

/-- One step on the word, placed at the pc. -/
def run (w : Nat) (s : State) : StepOutcome := step (s.withFetchWord 32 w)

/-- The pc and one register of a next state. -/
def pcAndReg (o : StepOutcome) (r : RegNum) : Option (Word × Word) :=
  match o with
  | .next t => some (t.pc, t.readReg r)
  | .fault _ => none
  | .refused _ => none

/-- The pc and the four bytes at an address of a next state, as a little-endian word. -/
def pcAndWord (o : StepOutcome) (a : Word) : Option (Word × Word) :=
  match o with
  | .next t => some (t.pc, t.byteAt a 3 ++ t.byteAt a 2 ++ t.byteAt a 1 ++ t.byteAt a 0)
  | .fault _ => none
  | .refused _ => none

/-- The record of a trap. -/
def trapOf (o : StepOutcome) : Option TrapRecord :=
  match o with
  | .next _ => none
  | .fault (.trap r) => some r
  | .refused _ => none

/-- Whether a step was refused for the fetch at an address. -/
def refusedAt (o : StepOutcome) : Option Word :=
  match o with
  | .next _ => none
  | .fault _ => none
  | .refused (.fetchOfStoredBytes pc) => some pc
  | .refused _ => none

/-! ### Single steps: integer instructions (95_test_vectors.md part 2.1) -/

theorem test_addi_wraps : pcAndReg (run 0x00130293 (st 0x55 0x99 0x7FFFFFFF 0)) 5 = some (0x1004, 0x80000000) := by decide
theorem test_addi_to_x0 : pcAndReg (run 0x00530013 (st 0x55 0x99 7 0)) 0 = some (0x1004, 0) := by decide
theorem test_slti_negative : pcAndReg (run 0x00032293 (st 0x55 0x99 0xFFFFFFFF 0)) 5 = some (0x1004, 1) := by decide
theorem test_slti_equal : pcAndReg (run 0xFFF32293 (st 0x55 0x99 0xFFFFFFFF 0)) 5 = some (0x1004, 0) := by decide
theorem test_sltiu_sign_extends : pcAndReg (run 0x80033293 (st 0x55 0x99 0xFFFFF7FF 0)) 5 = some (0x1004, 1) := by decide
theorem test_sltiu_equal : pcAndReg (run 0xFFF33293 (st 0x55 0x99 0xFFFFFFFF 0)) 5 = some (0x1004, 0) := by decide
theorem test_andi_negative_mask : pcAndReg (run 0xFF037293 (st 0x55 0x99 0x12345678 0)) 5 = some (0x1004, 0x12345670) := by decide
theorem test_ori_negative_mask : pcAndReg (run 0xF0036293 (st 0x55 0x99 0x12345678 0)) 5 = some (0x1004, 0xFFFFFF78) := by decide
theorem test_xori_not : pcAndReg (run 0xFFF34293 (st 0x55 0x99 0x12345678 0)) 5 = some (0x1004, 0xEDCBA987) := by decide
theorem test_slli_31 : pcAndReg (run 0x01F31293 (st 0x55 0x99 3 0)) 5 = some (0x1004, 0x80000000) := by decide
theorem test_srli_4 : pcAndReg (run 0x00435293 (st 0x55 0x99 0xF0000010 0)) 5 = some (0x1004, 0x0F000001) := by decide
theorem test_srai_4 : pcAndReg (run 0x40435293 (st 0x55 0x99 0xF0000010 0)) 5 = some (0x1004, 0xFF000001) := by decide
theorem test_srai_positive : pcAndReg (run 0x41F35293 (st 0x55 0x99 0x7FFFFFFF 0)) 5 = some (0x1004, 0) := by decide
theorem test_lui_ones : pcAndReg (run 0xFFFFF2B7 (st 0x55 0x99 0 0)) 5 = some (0x1004, 0xFFFFF000) := by decide
theorem test_auipc_negative : pcAndReg (run 0xFFFFF297 (st 0x55 0x99 0 0)) 5 = some (0x1004, 0) := by decide
theorem test_auipc_wraps : pcAndReg (run 0x80000297 ((st 0 0 0 0).setPc 0x80000004)) 5 = some (0x80000008, 4) := by decide
theorem test_add_carry_lost : pcAndReg (run 0x007302B3 (st 0x55 0x99 0xFFFFFFFF 1)) 5 = some (0x1004, 0) := by decide
theorem test_add_same_register : pcAndReg (run 0x005282B3 (st 0x55 0x80000001 0 0)) 5 = some (0x1004, 2) := by decide
theorem test_sub_borrow : pcAndReg (run 0x407302B3 (st 0x55 0x99 0 1)) 5 = some (0x1004, 0xFFFFFFFF) := by decide
theorem test_sub_overflow : pcAndReg (run 0x407302B3 (st 0x55 0x99 0x80000000 1)) 5 = some (0x1004, 0x7FFFFFFF) := by decide
theorem test_slt_min : pcAndReg (run 0x007322B3 (st 0x55 0x99 0x80000000 1)) 5 = some (0x1004, 1) := by decide
theorem test_slt_positive : pcAndReg (run 0x007322B3 (st 0x55 0x99 1 0xFFFFFFFF)) 5 = some (0x1004, 0) := by decide
theorem test_sltu_min : pcAndReg (run 0x007332B3 (st 0x55 0x99 0x80000000 1)) 5 = some (0x1004, 0) := by decide
theorem test_sltu_max : pcAndReg (run 0x007332B3 (st 0x55 0x99 1 0xFFFFFFFF)) 5 = some (0x1004, 1) := by decide
theorem test_and : pcAndReg (run 0x007372B3 (st 0x55 0x99 0xFF00FF00 0x0FF00FF0)) 5 = some (0x1004, 0x0F000F00) := by decide
theorem test_or : pcAndReg (run 0x007362B3 (st 0x55 0x99 0xFF00FF00 0x0FF00FF0)) 5 = some (0x1004, 0xFFF0FFF0) := by decide
theorem test_xor : pcAndReg (run 0x007342B3 (st 0x55 0x99 0xFF00FF00 0x0FF00FF0)) 5 = some (0x1004, 0xF0F0F0F0) := by decide
theorem test_sll_amount_32 : pcAndReg (run 0x007312B3 (st 0x55 0x99 1 0x20)) 5 = some (0x1004, 1) := by decide
theorem test_sll_amount_31 : pcAndReg (run 0x007312B3 (st 0x55 0x99 1 0xFFFFFFFF)) 5 = some (0x1004, 0x80000000) := by decide
theorem test_srl_amount_39 : pcAndReg (run 0x007352B3 (st 0x55 0x99 0x80000000 0x27)) 5 = some (0x1004, 0x01000000) := by decide
theorem test_sra_amount_39 : pcAndReg (run 0x407352B3 (st 0x55 0x99 0x80000000 0x27)) 5 = some (0x1004, 0xFF000000) := by decide

/-! ### Single steps: control transfer (95_test_vectors.md parts 2.2 and 2.3) -/

theorem test_jal_backward : pcAndReg (run 0x800FF0EF (st 0x55 0x99 0 0)) 1 = some (0x0, 0x1004) := by decide
theorem test_jal_misaligned : trapOf (run 0x002000EF (st 0x55 0x99 0 0)) = some ⟨.instructionAddressMisaligned, 0x1000, 0x1002⟩ := by decide
theorem test_jalr_rd_is_rs1 : pcAndReg (run 0x00430367 (st 0x55 0x99 0x2000 0)) 6 = some (0x2004, 0x1004) := by decide
theorem test_jalr_clears_bit_0 : trapOf (run 0x003300E7 (st 0x55 0x99 0x2000 0)) = some ⟨.instructionAddressMisaligned, 0x1000, 0x2002⟩ := by decide
theorem test_jalr_bit_0_cleared : pcAndReg (run 0x001300E7 (st 0x55 0x99 0x2000 0)) 1 = some (0x2000, 0x1004) := by decide
theorem test_beq_taken : pcAndReg (run 0x00730863 (st 0x55 0x99 5 5)) 1 = some (0x1010, 0x55) := by decide
theorem test_beq_misaligned : trapOf (run 0x7E000FE3 (st 0x55 0x99 0 0)) = some ⟨.instructionAddressMisaligned, 0x1000, 0x1FFE⟩ := by decide
theorem test_bne_backward : pcAndReg (run 0xFE7318E3 (st 0x55 0x99 5 6)) 1 = some (0xFF0, 0x55) := by decide
theorem test_bne_misaligned_not_taken : pcAndReg (run 0x00001163 (st 0x55 0x99 0 0)) 1 = some (0x1004, 0x55) := by decide
theorem test_blt_negative : pcAndReg (run 0x00734463 (st 0x55 0x99 0xFFFFFFFF 1)) 1 = some (0x1008, 0x55) := by decide
theorem test_blt_equal : pcAndReg (run 0x00734463 (st 0x55 0x99 5 5)) 1 = some (0x1004, 0x55) := by decide
theorem test_bge_equal : pcAndReg (run 0x00735463 (st 0x55 0x99 5 5)) 1 = some (0x1008, 0x55) := by decide
theorem test_bge_min : pcAndReg (run 0x00735463 (st 0x55 0x99 0x80000000 0x7FFFFFFF)) 1 = some (0x1004, 0x55) := by decide
theorem test_bltu_max : pcAndReg (run 0x00736463 (st 0x55 0x99 0xFFFFFFFF 1)) 1 = some (0x1004, 0x55) := by decide
theorem test_bltu_taken : pcAndReg (run 0x00706463 (st 0x55 0x99 0 1)) 1 = some (0x1008, 0x55) := by decide
theorem test_bgeu_min : pcAndReg (run 0x00737463 (st 0x55 0x99 0x80000000 0x7FFFFFFF)) 1 = some (0x1008, 0x55) := by decide
theorem test_bgeu_not_taken : pcAndReg (run 0x00737463 (st 0x55 0x99 0 1)) 1 = some (0x1004, 0x55) := by decide

/-! ### Single steps: loads and stores (95_test_vectors.md parts 2.4 and 2.5) -/

theorem test_lw_negative_offset : pcAndReg (run 0xFFC32283 (st 0x55 0x99 0x2004 0)) 5 = some (0x1004, 0x92345678) := by decide
theorem test_lw_x0_still_raises : trapOf (run 0x00232003 (st 0x55 0x99 0x2000 0)) = some ⟨.loadAddressMisaligned, 0x1000, 0x2002⟩ := by decide
theorem test_lw_supported : pcAndReg (run 0x00132283 (supporting (st 0 0x55 0x2000 0))) 5 = some (0x1004, 0xFF923456) := by decide
theorem test_lw_denied : trapOf (run 0x00032283 (supporting (denying (st 0 0x55 0x2FFE 0)))) = some ⟨.loadAccessFault, 0x1000, 0x2FFE⟩ := by decide
theorem test_lw_alignment_first : trapOf (run 0x00032283 (denying (st 0 0x55 0x2FFE 0))) = some ⟨.loadAddressMisaligned, 0x1000, 0x2FFE⟩ := by decide
theorem test_lh_sign : pcAndReg (run 0x00231283 (st 0x55 0x99 0x2000 0)) 5 = some (0x1004, 0xFFFF9234) := by decide
theorem test_lh_bit_7 : pcAndReg (run 0x00631283 (st 0x55 0x99 0x2000 0)) 5 = some (0x1004, 0x80) := by decide
theorem test_lhu_zero : pcAndReg (run 0x00235283 (st 0x55 0x99 0x2000 0)) 5 = some (0x1004, 0x9234) := by decide
theorem test_lhu_supported : pcAndReg (run 0x00135283 (supporting (st 0 0 0x2000 0))) 5 = some (0x1004, 0x3456) := by decide
theorem test_lb_sign : pcAndReg (run 0x00330283 (st 0x55 0x99 0x2000 0)) 5 = some (0x1004, 0xFFFFFF92) := by decide
theorem test_lb_odd_address : pcAndReg (run 0x00130283 (st 0x55 0x99 0x2000 0)) 5 = some (0x1004, 0x56) := by decide
theorem test_lbu_zero : pcAndReg (run 0x00334283 (st 0x55 0x99 0x2000 0)) 5 = some (0x1004, 0x92) := by decide
theorem test_sw : pcAndWord (run 0xFE732E23 (st 0x55 0x99 0x2008 0x01020304)) 0x2004 = some (0x1004, 0x01020304) := by decide
theorem test_sw_supported : pcAndWord (run 0x00732123 (supporting (st 0 0 0x2000 0xDEADBEEF))) 0x2000 = some (0x1004, 0xBEEF5678) := by decide
theorem test_sw_denied : trapOf (run 0x00732123 (supporting (denying (st 0 0 0x2FFC 0xDEADBEEF)))) = some ⟨.storeAccessFault, 0x1000, 0x2FFE⟩ := by decide
theorem test_sh : pcAndWord (run 0x00731123 (st 0x55 0x99 0x2000 0xDEADBEEF)) 0x2000 = some (0x1004, 0xBEEF5678) := by decide
theorem test_sh_misaligned : trapOf (run 0x007310A3 (st 0x55 0x99 0x2000 0xDEADBEEF)) = some ⟨.storeAddressMisaligned, 0x1000, 0x2001⟩ := by decide
theorem test_sb : pcAndWord (run 0x007303A3 (st 0x55 0x99 0x2000 0xDEADBEEF)) 0x2004 = some (0x1004, 0xEF807FFF) := by decide
theorem test_sb_truncates : pcAndWord (run 0x00730023 (st 0x55 0x99 0x2000 0x100)) 0x2000 = some (0x1004, 0x92345600) := by decide

/-! ### Single steps: fences, environment calls, illegal words (95_test_vectors.md parts 2.6 and 2.7) -/

theorem test_fence_ignores_fields : pcAndReg (run 0xF00F8F8F (st 0x55 0x99 0 0)) 1 = some (0x1004, 0x55) := by decide
theorem test_fence_tso : pcAndReg (run 0x8330000F (st 0x55 0x99 0 0)) 1 = some (0x1004, 0x55) := by decide
theorem test_pause : pcAndReg (run 0x0100000F (st 0x55 0x99 0 0)) 1 = some (0x1004, 0x55) := by decide
theorem test_ecall : trapOf (run 0x00000073 (st 0x55 0x99 0 0)) = some ⟨.environmentCall, 0x1000, 0⟩ := by decide
theorem test_ebreak : trapOf (run 0x00100073 (st 0x55 0x99 0 0)) = some ⟨.breakpoint, 0x1000, 0x1000⟩ := by decide
theorem test_illegal_traps : trapOf (run 0x00000000 (st 0 0 0 0)) = some ⟨.illegalInstruction, 0x1000, 0⟩ := by decide

/-! ### Single steps: fetching (95_test_vectors.md part 2.8) -/

theorem test_fetch_denied : trapOf (step ((denying (st 0 0 0 0)).setPc 0x4000)) = some ⟨.instructionAccessFault, 0x4000, 0x4000⟩ := by
  decide
theorem test_fetch_next_to_denied : pcAndReg (run 0x00000013 ((denying (st 0 0 0 0)).setPc 0x2FFC)) 5 = some (0x3000, 0) := by
  decide
theorem test_fetch_pc_wraps : pcAndReg (run 0x00000013 ((st 0 0 0 0).setPc 0xFFFFFFFC)) 5 = some (0, 0) := by decide
theorem test_fetch_of_stored_bytes :
    refusedAt (step { st 0 0 0 0 with written := [0x1003] }) = some 0x1000 := by decide
theorem test_store_marks_bytes :
    (match run 0x00732023 (st 0 0 0x2000 0) with
      | .next t => t.written
      | .fault _ => []
      | .refused _ => []) = [0x2000, 0x2001, 0x2002, 0x2003] := by decide
theorem test_reset_runs_zeros : trapOf (step State.reset) = some ⟨.illegalInstruction, 0x1000, 0⟩ := by decide

/-! ### Devices and handlers: what is free stays free -/

theorem test_zext8_of_one_byte (d : Byte) : zext8 (leValue [d]) = d.setWidth 32 := by revert d; decide
theorem test_device_load : pcAndReg (run 0x00034283 (withDevice 0x2000 0x2000 (st 0 0 0x2000 0))) 5 =
    some (0x1004, (Config.deviceByte 0).setWidth 32) :=
  congrArg (fun v => some ((0x1004 : Word), v)) (test_zext8_of_one_byte (Config.deviceByte 0))
theorem test_device_store_event :
    (match run 0x00732023 (withDevice 0x2000 0x2003 (st 0 0 0x2000 0xDEADBEEF)) with
      | .next t => t.events
      | .fault _ => []
      | .refused _ => []) = [⟨.store, 0x2000, .word, 0xDEADBEEF⟩] := by decide
theorem test_handled_ecall : pcAndReg (exec .ecall (handled State.reset)) 0 =
    some ((Config.onTrap 0 State.reset.regs 0x1000 [] ⟨.environmentCall, 0x1000, 0⟩).pcIndex ++ 0#2, 0) := by rfl
/-- A handler function of a claim's own: skip the instruction that trapped (R314). -/
theorem test_skipping_handler : pcAndReg (stepUnder (fun s _ => s.advance) (handled State.reset)) 0 = some (0x1004, 0) := by decide
/-- `CAUSE_CODE` as a claim fixes it: the numbers of R303, with 11 for EnvironmentCall. -/
theorem test_cause_code : ({ State.reset with eei := { Eei.default with causeCodes := some (CauseCodes.ofFunction (fun e =>
    (usualCauseCode e).getD 11)) } } : State).causeCode ⟨.storeAccessFault, 0, 0⟩ = some 7 := by decide
theorem test_handled_addi : pcAndReg (run 0x00130293 (handled (st 0 0 1 0))) 5 = some (0x1004, 2) := by decide

/-! ### Assembly (95_test_vectors.md part 1; 45_assembly_pseudoinstructions.md) -/

theorem test_hi_lo : hi20 0xDEADBEEF = 0xDEADC ∧ lo12 0xDEADBEEF = -273 := by decide
theorem test_bgt_word : (expand (.bgt 6 7 8)).map encode = [0x0063C463] := by decide
theorem test_call_words : (expand (.call 0x12345FFC)).map encode = [0x12346097, 0xFFC080E7] := by decide
theorem test_asm_lw : asmLine (.lw 5 6 (-4)) = some ("lw", [.reg 5, .mem (-4) 6]) := by decide

/-! ### Witnesses: each statement's hypotheses are met together, at the edges of their ranges -/

theorem witness_EncodeThenDecode : (Instr.jal 31 0b100000000000000000000).wf = true ∧ (Instr.beq 0 31 0b0111111111110).wf = true ∧
    (Instr.fence 15 15 15 31 31).wf = true := by decide
theorem witness_DecodeThenEncode : decode 0xFFFFF06F#32 = .ok (.jal 0 (-2)) ∧ decode 0x80000063#32 = .ok (.beq 0 0 (-4096)) := by
  decide
theorem witness_LogicalShiftImmediateResults : (1 : BitVec 7) ≠ 0b0000000#7 ∧ (127 : BitVec 7) ≠ 0b0000000#7 := by decide
theorem witness_NopChangesOnlyThePc :
    (destReg (.addi 0 0 0) = some 0#5 ∧ accessOf (.addi 0 0 0) (st 0 0 0 0) = none ∧ targetOf (.addi 0 0 0) (st 0 0 0 0) = none) ∧
    destReg (.and 0 31 31) = some 0#5 ∧ accessOf (.and 0 31 31) (st 0 0 0 0) = none ∧
    targetOf (.and 0 31 31) (st 0 0 0 0) = none := by decide
theorem witness_ZeroRegisterIsHardWired : (31#5 ≠ 0#5 ∧ 0#5 ≠ 31#5) ∧ (1#5 ≠ 0#5 ∧ 2#5 ≠ 1#5) := by decide

theorem witness_JumpsLinkAndTransfer_jal : (((st 0 0 0 0).setPc 0xFFFFFFFC).pc + (4#21).signExtend 32).toNat % 4 = 0 := by decide
theorem witness_JumpsLinkAndTransfer_jalr : ((st 0 0 0xFFFFFFFC 0).readReg 6 + (5#12).signExtend 32).toNat % 4 = 1 ∧
    ((st 0 0 0xFFFFFFFC 0).readReg 6 + (4#12).signExtend 32).toNat % 4 = 0 := by decide

theorem witness_BranchesFollowTheirConditions_taken :
    branchTaken (.beq 6 7 4092) (st 0 0 5 5) ∧ branchTaken (.bne 6 7 4092) (st 0 0 5 6) ∧
    branchTaken (.blt 6 7 4092) (st 0 0 0x80000000 0) ∧ branchTaken (.bge 6 7 4092) (st 0 0 5 5) ∧
    branchTaken (.bltu 6 7 4092) (st 0 0 0 0xFFFFFFFF) ∧ branchTaken (.bgeu 6 7 4092) (st 0 0 5 5) ∧
    ((st 0 0 5 5).pc + (4092#13).signExtend 32).toNat % 4 = 0 := by decide
theorem witness_BranchesFollowTheirConditions_not_taken :
    branchTaken (.beq 6 7 2) (st 0 0 5 6) = false ∧ branchTaken (.bne 6 7 2) (st 0 0 5 5) = false ∧
    branchTaken (.blt 6 7 2) (st 0 0 5 5) = false ∧ branchTaken (.bge 6 7 2) (st 0 0 0x80000000 0) = false ∧
    branchTaken (.bltu 6 7 2) (st 0 0 5 5) = false ∧ branchTaken (.bgeu 6 7 2) (st 0 0 0 0xFFFFFFFF) = false := by decide

theorem witness_MisalignedTargetsTrap : (st 0 0 5 5).eei.onTrap = .fatal ∧
    targetOf (.jal 1 2) (st 0 0 5 5) = some 0x1002 ∧ isJump (.jal 1 2) = true ∧ (0x1002 : Word).toNat % 4 ≠ 0 ∧
    targetOf (.jalr 1 6 (-2)) (st 0 0 5 5) = some 2 ∧ isJump (.jalr 1 6 (-2)) = true ∧ (2 : Word).toNat % 4 ≠ 0 ∧
    targetOf (.beq 6 7 4094) (st 0 0 5 5) = some 0x1FFE ∧ branchTaken (.beq 6 7 4094) (st 0 0 5 5) = true ∧
    (0x1FFE : Word).toNat % 4 ≠ 0 := by decide
theorem witness_CompletedInstructionsSetThePcOnce : (st 0 0 0 0).eei.onTrap = .fatal ∧
    (∃ t, exec (.jal 1 4) (st 0 0 0 0) = .next t) ∧ (∃ t, exec (.beq 6 7 8) (st 0 0 0 0) = .next t) ∧
    (∃ t, exec (.bne 6 7 8) (st 0 0 0 0) = .next t) ∧ ∃ t, exec .fenceTso (st 0 0 0 0) = .next t :=
  ⟨rfl, ⟨_, rfl⟩, ⟨_, rfl⟩, ⟨_, rfl⟩, ⟨_, rfl⟩⟩

/-- The last word of the address space, aligned; and a word that wraps around its end, supported. -/
theorem witness_LoadsReadLittleEndian :
    ((0xFFFFFFFC : Word) = (st 0 0 0xFFFFFFFC 0).readReg 6 + (0#12).signExtend 32 ∧
      (st 0 0 0xFFFFFFFC 0).accessOk .load 0xFFFFFFFC .word ∧ (st 0 0 0xFFFFFFFC 0).ordinary 0xFFFFFFFC .word) ∧
    ((supporting (st 0 0 0 0)).accessOk .load 0xFFFFFFFE .word ∧ (supporting (st 0 0 0 0)).ordinary 0xFFFFFFFE .word) ∧
    ((st 0 0 0 0).accessOk .load 0xFFFFFFFE .half ∧ (st 0 0 0 0).ordinary 0xFFFFFFFE .half) ∧
    ((st 0 0 0 0).accessOk .load 0xFFFFFFFF .byte ∧ (st 0 0 0 0).ordinary 0xFFFFFFFF .byte) := by decide
/-- A device in the last byte of the access alone. -/
theorem witness_DeviceLoadsSeeFreeValues :
    ((0x2000 : Word) = (withDevice 0x2003 0x2003 (st 0 0 0x2000 0)).readReg 6 + (0#12).signExtend 32 ∧
      (withDevice 0x2003 0x2003 (st 0 0 0x2000 0)).accessOk .load 0x2000 .word ∧
      ¬ (withDevice 0x2003 0x2003 (st 0 0 0x2000 0)).ordinary 0x2000 .word) ∧
    ((withDevice 0x2003 0x2003 (st 0 0 0 0)).accessOk .load 0x2002 .half ∧
      ¬ (withDevice 0x2003 0x2003 (st 0 0 0 0)).ordinary 0x2002 .half) ∧
    ((withDevice 0x2003 0x2003 (st 0 0 0 0)).accessOk .load 0x2003 .byte ∧
      ¬ (withDevice 0x2003 0x2003 (st 0 0 0 0)).ordinary 0x2003 .byte) := by decide
theorem witness_DeviceEventsOfAnAccess :
    let s := withDevice 0x2002 0x2FFF (st 0 0 0 0)
    ([1, 2, 3, 4] : List Byte).length = Width.word.bytes ∧ (0x2000 : Word).toNat % Width.word.bytes = 0 ∧
    (0x2001 : Word).toNat % Width.word.bytes ≠ 0 ∧
    ([⟨.load, 0x2002, .byte, 2⟩, ⟨.load, 0x2003, .byte, 3⟩, ⟨.load, 0x2004, .byte, 4⟩] : List DeviceEvent) =
      ((List.range Width.word.bytes).filter (fun k => s.eei.memMap.isDevice (byteAddr 0x2001 k))).map
        (fun k => ⟨.load, 0x2001 + BitVec.ofNat 32 k, .byte, 0#24 ++ ([1, 2, 3, 4] : List Byte).getD k 0#8⟩) := by
  decide
theorem witness_StoresWriteLittleEndian : (st 0 0 0xFFFFFFFC 0).wf ∧
    (0xFFFFFFFC : Word) = (st 0 0 0xFFFFFFFC 0).readReg 6 + (0#12).signExtend 32 ∧
    ((st 0 0 0xFFFFFFFC 0).accessOk .store 0xFFFFFFFC .word ∧ (st 0 0 0xFFFFFFFC 0).ordinary 0xFFFFFFFC .word) ∧
    ((supporting (st 0 0 0xFFFFFFFC 0)).accessOk .store 0xFFFFFFFF .half ∧
      (supporting (st 0 0 0xFFFFFFFC 0)).ordinary 0xFFFFFFFF .half) ∧
    ((st 0 0 0xFFFFFFFC 0).accessOk .store 0xFFFFFFFF .byte ∧ (st 0 0 0xFFFFFFFC 0).ordinary 0xFFFFFFFF .byte) := by decide
theorem witness_DeviceStoresAreSeen : (withDevice 0x2003 0x2003 (st 0 0 0x2000 0)).wf ∧
    (0x2000 : Word) = (withDevice 0x2003 0x2003 (st 0 0 0x2000 0)).readReg 6 + (0#12).signExtend 32 ∧
    ((withDevice 0x2003 0x2003 (st 0 0 0x2000 0)).accessOk .store 0x2000 .word ∧
      ¬ (withDevice 0x2003 0x2003 (st 0 0 0x2000 0)).ordinary 0x2000 .word) := by decide
theorem witness_MisalignedAccessesTrap : (denying (st 0 0 0x2FFE 0)).eei.onTrap = .fatal ∧
    accessOf (.lw 5 6 0) (denying (st 0 0 0x2FFE 0)) = some (.load, 0x2FFE, .word) ∧
    accessOf (.sh 6 7 1) (denying (st 0 0 0x2FFE 0)) = some (.store, 0x2FFF, .half) ∧
    (0x2FFE : Word).toNat % Width.word.bytes ≠ 0 ∧ (0x2FFF : Word).toNat % Width.half.bytes ≠ 0 ∧
    (denying (st 0 0 0x2FFE 0)).eei.misaligned = .trap := by decide
theorem witness_DeniedAccessesTrap : (denying (st 0 0 0x3000 0)).eei.onTrap = .fatal ∧
    accessOf (.sw 6 7 0) (denying (st 0 0 0x3000 0)) = some (.store, 0x3000, .word) ∧
    (0x3000 : Word).toNat % Width.word.bytes = 0 ∧
    (denying (st 0 0 0x3000 0)).eei.memMap.allows (byteAddr 0x3000 3) .store .word = false ∧
    accessOf (.lw 5 6 (-2)) (supporting (denying (st 0 0 0x3000 0))) = some (.load, 0x2FFE, .word) ∧
    (supporting (denying (st 0 0 0x3000 0))).eei.misaligned = .support ∧
    (supporting (denying (st 0 0 0x3000 0))).eei.memMap.allows (byteAddr 0x2FFE 2) .load .word = false := by decide
theorem witness_NaturallyAlignedNeverMisaligned : naturallyAligned 0x3000 .word = true ∧
    (∃ e, (denying (st 0 0 0x3000 0)).memRead 0x3000 .word = .error e) ∧
    (∃ e, (denying (st 0 0 0x3000 0)).memWrite 0x3000 .word 0 = .error e) ∧
    accessOf (.lw 5 6 0) (denying (st 0 0 0x3000 0)) = some (.load, 0x3000, .word) ∧
    ∃ r, exec (.lw 5 6 0) (denying (st 0 0 0x3000 0)) = .fault (.trap r) :=
  ⟨by decide, ⟨_, rfl⟩, ⟨_, rfl⟩, by decide, ⟨_, rfl⟩⟩
theorem witness_LoadsToZeroRegisterArePerformed : Instr.lbu ∈ [Instr.lb, Instr.lh, Instr.lw, Instr.lbu, Instr.lhu] ∧
    (∃ t, exec (.lbu 5 6 0) (st 0 0 0x2001 0) = .next t) ∧ ∃ f, exec (.lh 5 6 0) (st 0 0 0x2001 0) = .fault f :=
  ⟨by simp, ⟨_, rfl⟩, ⟨_, rfl⟩⟩
theorem witness_NarrowLoadsAfterWordStore : (st 0 0 0x2000 7).wf ∧ (0x2000 : Word) = (st 0 0 0x2000 7).readReg 6 + (0#12).signExtend 32 ∧
    (0x2000 : Word).toNat % 4 = 0 ∧ (∀ n, (st 0 0 0x2000 7).accessOk .load 0x2000 n) ∧ (st 0 0 0x2000 7).ordinary 0x2000 .word ∧
    5#5 ≠ 0#5 ∧ (∃ t, exec (.sw 6 7 0) (st 0 0 0x2000 7) = .next t) ∧ (st 0 0 0x2000 7).eei.onTrap = .fatal ∧
    (st 0 0 0x2000 7).readReg 6 + (2#12).signExtend 32 = 0x2000 + 2#32 ∧ (st 0 0 0x2000 7).accessOk .load (0x2000 + 2#32) .half ∧
    (st 0 0 0x2000 7).readReg 6 + (3#12).signExtend 32 = 0x2000 + BitVec.ofNat 32 3 ∧
    (st 0 0 0x2000 7).eei.memMap.allows (0x2000 + BitVec.ofNat 32 3).toNat .load .byte = true :=
  ⟨by decide, by decide, by decide, fun n => by cases n <;> decide, by decide, by decide, ⟨_, rfl⟩, rfl, by decide, by decide,
    by decide, by decide⟩
theorem witness_ByteStoreChangesOneByteOfAWord : (st 0 0 0x2000 7).wf ∧ (st 0 0 0x2000 7).accessOk .load 0x2000 .word ∧
    (st 0 0 0x2000 7).ordinary 0x2000 .word ∧ 5#5 ≠ 0#5 ∧
    (0x2000 : Word) = (st 0 0 0x2000 7).readReg 6 + (0#12).signExtend 32 ∧ (0x2000 : Word).toNat % 4 = 0 ∧
    (st 0 0 0x2000 7).readReg 6 + (3#12).signExtend 32 = 0x2000 + BitVec.ofNat 32 3 ∧
    (st 0 0 0x2000 7).eei.onTrap = .fatal ∧ ∃ t, exec (.sb 6 7 3) (st 0 0 0x2000 7) = .next t :=
  ⟨by decide, by decide, by decide, by decide, by decide, by decide, by decide, rfl, ⟨_, rfl⟩⟩

theorem witness_FencesChangeOnlyThePc : Instr.fence 15 0 0 31 31 ∈ [Instr.fence 15 0 0 31 31, .fenceTso, .pause] := by decide
theorem witness_EcallAndEbreakTrap : (st 0 0 0 0).eei.onTrap = .fatal := by decide
theorem witness_EcallAndEbreakResumeInTheHandler : (handled (st 0 0 0 0)).eei.onTrap = .handler ∧
    ((Instr.ecall = .ecall ∧ (⟨.environmentCall, (st 0 0 0 0).pc, 0#32⟩ : TrapRecord) = ⟨.environmentCall, 0x1000, 0⟩) ∧
      Instr.ebreak = .ebreak ∧ (⟨.breakpoint, (st 0 0 0 0).pc, (st 0 0 0 0).pc⟩ : TrapRecord) = ⟨.breakpoint, 0x1000, 0x1000⟩) := by
  decide
/-- A fatal `ON_TRAP`, with each of the three outcomes of a step, and the traps of the fetch and of the decoding. -/
theorem witness_HandlerTakesEveryTrap : (st 0 0 0 0).eei.onTrap = .fatal ∧
    (∃ t, step ((st 0 0 0 0).withFetchWord 32 0x0100000F) = .next t) ∧
    (∃ r, step ((denying (st 0 0 0 0)).setPc 0x3000) = .fault (.trap r)) ∧ (∃ r, step State.reset = .fault (.trap r)) ∧
    (∃ r, step { st 0 0 0 0 with written := [0x1003] } = .refused r) ∧
    (∃ t, exec .pause (st 0 0 0 0) = .next t) ∧ ∃ r, exec .ebreak (st 0 0 0 0) = .fault (.trap r) :=
  ⟨rfl, ⟨_, rfl⟩, ⟨_, rfl⟩, ⟨_, rfl⟩, ⟨_, rfl⟩, ⟨_, rfl⟩, ⟨_, rfl⟩⟩
/-- Each of the five cases of the table. -/
theorem witness_TrapsExactlyAsTabulated : (st 0 0 0x2001 0).eei.onTrap = .fatal ∧
    MayRaise (.jal 1 2) (st 0 0 0x2001 0) ⟨.instructionAddressMisaligned, 0x1000, 0x1002⟩ ∧
    MayRaise (.lh 5 6 0) (st 0 0 0x2001 0) ⟨.loadAddressMisaligned, 0x1000, 0x2001⟩ ∧
    MayRaise (.sb 6 7 0) (denying (st 0 0 0x3000 0)) ⟨.storeAccessFault, 0x1000, 0x3000⟩ ∧
    MayRaise .ecall (st 0 0 0 0) ⟨.environmentCall, 0x1000, 0⟩ ∧ MayRaise .ebreak (st 0 0 0 0) ⟨.breakpoint, 0x1000, 0x1000⟩ :=
  ⟨rfl, .inl ⟨0x1002, by decide, rfl, by decide, rfl⟩, .inr (.inl ⟨.load, 0x2001, .half, rfl, by decide, rfl, rfl⟩),
    .inr (.inr (.inl ⟨.store, 0x3000, .byte, rfl, .inl (by decide), ⟨0, by decide, by decide⟩, rfl⟩)),
    .inr (.inr (.inr (.inl ⟨rfl, rfl⟩))), .inr (.inr (.inr (.inr ⟨rfl, rfl⟩)))⟩

/-- An instruction at the last word of the address space; the pc wraps past it. -/
theorem witness_StepRunsTheDecodedInstruction :
    let s := ((st 0 0 0 0).setPc 0xFFFFFFFC).withFetchWord 32 0x00000013
    s.pc.toNat % 4 = 0 ∧ s.fetchAllowed ∧ s.fetchClean ∧ s.ordinary s.pc .word ∧ decode s.wordAtPc = .ok (.addi 0 0 0) := by decide
theorem witness_StepTrapsOnIllegalWords :
    let s := State.reset
    s.pc.toNat % 4 = 0 ∧ s.fetchAllowed ∧ s.fetchClean ∧
      (0 : Word) = s.seen s.pc 3 ++ s.seen s.pc 2 ++ s.seen s.pc 1 ++ s.seen s.pc 0 ∧
      decode (0 : Word) = .error .compressedLength ∧ s.eei.onTrap = .fatal ∧ (handled s).eei.onTrap = .handler ∧
      s.ordinary s.pc .word := by decide
/-- A device in the top byte of a word of zeros: illegal whatever the device answers. -/
theorem witness_StepTrapsOnIllegalWords_device :
    let s := withDevice 0x1003 0x1003 (st 0 0 0 0)
    let w := s.seen s.pc 3 ++ s.seen s.pc 2 ++ s.seen s.pc 1 ++ s.seen s.pc 0
    s.pc.toNat % 4 = 0 ∧ s.fetchAllowed ∧ s.fetchClean ∧ ¬ s.ordinary s.pc .word ∧ decode w = .error .compressedLength :=
  ⟨by decide, by decide, by decide, by decide, test_zeros_any_top_byte (Config.deviceByte 3)⟩
theorem witness_DeniedFetchTraps :
    let s := { (denying (st 0 0 0 0)).setPc 0x3000 with written := [0x3000] }
    s.pc.toNat % 4 = 0 ∧ ¬ s.fetchAllowed ∧ s.eei.onTrap = .fatal ∧ (handled s).eei.onTrap = .handler ∧
      ¬ (handled s).fetchAllowed := by decide
theorem witness_RefusedExactlyAfterStoreToCode :
    let s := { st 0 0 0 0 with written := [0x1003] }
    s.pc.toNat % 4 = 0 ∧ s.fetchAllowed ∧ ¬ s.fetchClean ∧ (∃ r, step s = .refused r) :=
  ⟨by decide, by decide, by decide, ⟨_, rfl⟩⟩
/-- LUI with a device in the top byte of its word: every answer of the device decodes. -/
theorem witness_StepFetchesFromDevices :
    let s := withDevice 0x1003 0x1003 ((st 0 0 0 0).withFetchWord 32 0x000002B7)
    let w := s.seen s.pc 3 ++ s.seen s.pc 2 ++ s.seen s.pc 1 ++ s.seen s.pc 0
    s.pc.toNat % 4 = 0 ∧ s.fetchAllowed ∧ s.fetchClean ∧ ¬ s.ordinary s.pc .word ∧ ∃ i, decode w = .ok i := by
  refine ⟨by decide, by decide, by decide, by decide, ?_⟩
  exact ⟨_, test_lui_any_top_byte (Config.deviceByte 3)⟩
theorem witness_WithFetchWordRunsTheWord : (st 0 0 0 0).wf ∧ 0xFF9FF0EF < 2 ^ 32 ∧
    decode (BitVec.ofNat 32 0xFF9FF0EF) = .ok (.jal 1 (-8)) := by decide

theorem witness_StepKeepsTheInvariant : (handled State.reset).wf ∧ ∃ t, step (handled State.reset) = .next t :=
  ⟨by decide, ⟨_, rfl⟩⟩
theorem witness_StepKeepsTheInvariant_fatal : ((st 0 0 0x2000 0x42).withFetchWord 32 0x00732023).wf ∧
    ∃ t, step ((st 0 0 0x2000 0x42).withFetchWord 32 0x00732023) = .next t := ⟨by decide, ⟨_, rfl⟩⟩
theorem witness_ResetMeetsTheInvariant : paramsOk { ResetParams.default with resetPc := 0xFFFFFFFC, initMem := [(0, 1), (0xFFFFFFFF, 2)] } := by
  decide
theorem witness_PcIsAlignedInEveryRun : paramsOk ResetParams.default ∧
    Reachable ResetParams.default (State.boot ResetParams.default) ∧ Handler.KeepsWf (fun s _ => s) ∧
    ReachableUnder (fun s _ => s) ResetParams.default (State.boot ResetParams.default) :=
  ⟨by decide, .boot, fun _ _ h => h, .boot⟩
theorem witness_StepOnlyAddsToTheRecord : ∃ t, step ((st 0 0 0x2000 0x42).withFetchWord 32 0x00732023) = .next t := ⟨_, rfl⟩
theorem witness_MemoryChangesOnlyWhereStoredTo :
    let s := (st 0 0 0x2000 0x42).withFetchWord 32 0x00732023
    s.wf ∧ s.eei.onTrap = .fatal ∧ (∃ t, step s = .next t ∧ 0x1FFF ∉ t.written) :=
  ⟨by decide, rfl, ⟨_, rfl, by decide⟩⟩
theorem witness_OnlyTheDestinationChanges : (st 0 0 0x2000 0x42).wf ∧ (st 0 0 0x2000 0x42).eei.onTrap = .fatal ∧
    (∃ t, exec (.sw 6 7 0) (st 0 0 0x2000 0x42) = .next t) ∧ (∃ t, exec (.lw 5 6 0) (st 0 0 0x2000 0x42) = .next t) ∧
    accessOf (.lw 5 6 0) (st 0 0 0x2000 0x42) = some (.load, 0x2000, .word) ∧
    (st 0 0 0x2000 0x42).ordinary 0x2000 .word ∧ ¬ (withDevice 0x2003 0x2003 (st 0 0 0x2000 0x42)).ordinary 0x2000 .word ∧
    ∃ t, exec (.lw 5 6 0) (withDevice 0x2003 0x2003 (st 0 0 0x2000 0x42)) = .next t :=
  ⟨by decide, rfl, ⟨_, rfl⟩, ⟨_, rfl⟩, by decide, by decide, by decide, ⟨_, rfl⟩⟩
/-- Two states that differ in x5 and agree in x6, the one source of the instruction. -/
theorem witness_OnlyTheSourcesMatter : (st 0 1 9 0).eei.onTrap = .fatal ∧
    st 0 2 9 0 = { st 0 1 9 0 with regs := (st 0 2 9 0).regs } ∧
    ∀ r, r ∈ sourceRegs (.addi 5 6 1) → (st 0 2 9 0).readReg r = (st 0 1 9 0).readReg r :=
  ⟨rfl, rfl, by decide⟩
theorem witness_SupportExtendsTrapPolicy : (st 0 0 0x2000 0).eei.onTrap = .fatal ∧ (st 0 0 0x2000 0).eei.misaligned = .trap ∧
    ∃ t, exec (.lw 5 6 0) (st 0 0 0x2000 0) = .next t := ⟨rfl, rfl, ⟨_, rfl⟩⟩
theorem witness_CanonicalMemoriesAreExtensional : Memory.wf (st 0 0 0 0).mem ∧
    Memory.wf (Memory.write (Memory.write (st 0 0 0 0).mem 9 1) 9 0) ∧
    Memory.write (Memory.write (st 0 0 0 0).mem 9 1) 9 0 = (st 0 0 0 0).mem := by decide
theorem witness_ResetLoadsTheParameters : 0 < 31 ∧ 30 < 31 ∧
    ({ ResetParams.default with eei := { Eei.default with causeCodes := some (CauseCodes.ofFunction fun _ => 8) } } :
      ResetParams).eei.causeCodes = some (CauseCodes.ofFunction fun _ => 8) := by decide

theorem witness_InversesAndComplements : 5#5 ≠ 0#5 ∧ 0#5 ≠ 5#5 := by decide
theorem witness_BranchPseudoinstructions :
    (((st 0 0 0x80000000 0).readReg 6).toInt < 0 ∧ ((st 0 0 0 0).readReg 6).toInt = 0) ∧
    ((st 0 0 0 0).pc + (4092#13).signExtend 32).toNat % 4 = 0 := by decide
theorem witness_FarTransfersAndAddresses : ((st 0 0 0 0).pc + 0xFFFFF000#32).toNat % 4 = 0 := by decide

end Sys2Proof.Tests
end

section
/-!
The general-purpose registers (10_state.md): what R22 and R23 say of reading and writing them.
-/
namespace Sys2Proof.Machine

/-- A register other than x0 reads as the value last written to it (R22, R23). -/
theorem readReg_writeReg_same (s : State) {r : RegNum} (v : Word) (hr : r ≠ 0#5) : (s.writeReg r v).readReg r = v := by
  rw [readReg_writeReg, if_pos ⟨rfl, hr⟩]

/-- A write leaves every other register as it was (R22, R23); this holds for a write to x0 too. -/
theorem readReg_writeReg_other (s : State) {r q : RegNum} (v : Word) (hq : q ≠ r) :
    (s.writeReg r v).readReg q = s.readReg q := by
  rw [readReg_writeReg, if_neg (fun h => hq h.1)]

/-- Settles O17, by the rules for a read after a write: of x0, of the register written, of another. -/
theorem zeroRegisterIsHardWired : Obligations.ZeroRegisterIsHardWired := by
  intro s v
  refine ⟨readReg_zero s, writeReg_zero s v, fun r hr => ⟨?same, ?other⟩⟩
  case same => exact readReg_writeReg_same s v hr
  case other => exact fun q hq => readReg_writeReg_other s v hq

end Sys2Proof.Machine
end

section
/-!
Memory accesses (20_memory.md): natural alignment and what it rules out (R55), and the loads whose destination is x0 (R63).
-/
namespace Sys2Proof.Machine

/-! ### Natural alignment (R55) -/

theorem naturallyAligned_byte (a : Word) : naturallyAligned a .byte = true :=
  naturallyAligned_iff.mpr (Nat.mod_one _)

theorem naturallyAligned_half_iff (a : Word) : naturallyAligned a .half = true ↔ a.getLsbD 0 = false := by
  simp [naturallyAligned_iff, Width.bytes, BitVec.getLsbD, Nat.testBit_zero]

theorem naturallyAligned_word_iff (a : Word) :
    naturallyAligned a .word = true ↔ a.getLsbD 0 = false ∧ a.getLsbD 1 = false := by
  simp only [naturallyAligned_iff, Width.bytes, BitVec.getLsbD, Nat.testBit_eq_decide_div_mod_eq, decide_eq_false_iff_not]
  omega

/-! ### The exceptions of an aligned access (R55, R59) -/

/-- The access fault of a load, store or fetch is neither of the two exceptions R55 speaks of. -/
theorem accessFaultException_not_misaligned (kind : AccessKind) (a : Word) :
    (accessFaultException kind a).name ≠ .loadAddressMisaligned ∧
      (accessFaultException kind a).name ≠ .storeAddressMisaligned := by
  cases kind <;> simp [accessFaultException, Exception.name]

/-- Past the alignment check the map's refusal is all that is left to raise. -/
theorem checkAccess_some_of_aligned {s : State} {kind : AccessKind} {a : Word} {n : Width} {e : Exception}
    (ha : naturallyAligned a n = true) (h : s.checkAccess kind a n = some e) : e = accessFaultException kind a := by
  obtain ⟨hmis, -, -⟩ | ⟨-, -, rfl⟩ := checkAccess_some h
  · exact absurd (naturallyAligned_iff.mp ha) hmis
  · rfl

theorem checkAccess_not_misaligned {s : State} {kind : AccessKind} {a : Word} {n : Width} {e : Exception}
    (ha : naturallyAligned a n = true) (h : s.checkAccess kind a n = some e) :
    e.name ≠ .loadAddressMisaligned ∧ e.name ≠ .storeAddressMisaligned :=
  checkAccess_some_of_aligned ha h ▸ accessFaultException_not_misaligned kind a

/-- `MemRead` raises only what its checks raise (R56). -/
theorem checkAccess_of_memRead_error {s : State} {a : Word} {n : Width} {e : Exception} (h : s.memRead a n = .error e) :
    s.checkAccess .load a n = some e := by
  cases hc : s.checkAccess .load a n with
  | none => simp [memRead_ok (checkAccess_none_iff.mp hc)] at h
  | some e' => simpa [State.memRead, hc] using h

/-- `MemWrite` raises only what its checks raise (R57). -/
theorem checkAccess_of_memWrite_error {s : State} {a v : Word} {n : Width} {e : Exception}
    (h : s.memWrite a n v = .error e) : s.checkAccess .store a n = some e := by
  cases hc : s.checkAccess .store a n with
  | none => simp [memWrite_ok (checkAccess_none_iff.mp hc)] at h
  | some e' => simpa [State.memWrite, hc] using h

/-- A load or store traps only with what the checks of its access raise. -/
theorem checkAccess_of_exec_trap {i : Instr} {s : State} {kind : AccessKind} {a : Word} {n : Width} {r : TrapRecord}
    (hi : accessOf i s = some (kind, a, n)) (hr : exec i s = .fault (.trap r)) :
    ∃ e, s.checkAccess kind a n = some e ∧ r = trapRecord e s.pc := by
  have of_raise {e : Exception} (h : s.raise e = .fault (.trap r)) : r = trapRecord e s.pc := by
    simpa using (raise_fault h).2
  cases kind with
  | fetch => exact absurd hi accessOf_ne_fetch
  | load =>
    obtain ⟨ext, rd, -, hexec⟩ := exec_load hi
    rw [hexec] at hr
    obtain ⟨-, hnext⟩ | ⟨e, he, hraise⟩ := load_cases s n ext rd a
    · cases hnext.symm.trans hr
    · exact ⟨e, he, of_raise (hraise.symm.trans hr)⟩
  | store =>
    obtain ⟨q, -, -, hexec⟩ := exec_store hi
    rw [hexec] at hr
    obtain ⟨-, hnext⟩ | ⟨e, he, hraise⟩ := store_cases s n a (s.readReg q)
    · cases hnext.symm.trans hr
    · exact ⟨e, he, of_raise (hraise.symm.trans hr)⟩

/-- Settles O29: each way to access memory raises only what the checks raise, and of an aligned access that is an access fault. -/
theorem naturallyAlignedNeverMisaligned : Obligations.NaturallyAlignedNeverMisaligned := by
  refine ⟨fun a => ⟨naturallyAligned_byte a, naturallyAligned_half_iff a, naturallyAligned_word_iff a⟩,
    ?memRead, ?memWrite, ?exec⟩
  case memRead =>
    intro s a n e ha h
    exact checkAccess_not_misaligned ha (checkAccess_of_memRead_error h)
  case memWrite =>
    intro s a v n e ha h
    exact checkAccess_not_misaligned ha (checkAccess_of_memWrite_error h)
  case exec =>
    intro i s kind a n r hi ha h
    obtain ⟨e, he, rfl⟩ := checkAccess_of_exec_trap hi h
    exact checkAccess_not_misaligned ha he

/-! ### Loads to x0 (R63) -/

/-- Writing x0 instead of `rd` gives the same next state but for the registers, which stay as they were. -/
theorem result_zero_eq (s : State) (rd : RegNum) (v w : Word) : s.result 0#5 w = { s.result rd v with regs := s.regs } := rfl

/-- A load by its width and extension does to x0 what it does to `rd`: the checks and the record of the access do not depend
on the destination. -/
theorem load_zero_cases (s : State) (n : Width) (ext : Word → Word) (rd : RegNum) (a : Word) :
    (∃ e, s.load n ext rd a = s.raise e ∧ s.load n ext 0#5 a = s.raise e) ∨
    ∃ t, s.load n ext rd a = .next t ∧ s.load n ext 0#5 a = .next { t with regs := s.regs } := by
  obtain ⟨hok, hnext⟩ | ⟨e, he, hraise⟩ := load_cases s n ext rd a
  · refine .inr ⟨_, hnext, ?_⟩
    rw [load_ok hok, result_zero_eq _ rd, observe_regs]
  · exact .inl ⟨e, hraise, load_raises he⟩

/-- Each of the five loads is a load of one width and extension, whatever its destination. -/
theorem exec_load_uniform_in_rd {load : RegNum → RegNum → BitVec 12 → Instr}
    (hload : load ∈ [Instr.lb, Instr.lh, Instr.lw, Instr.lbu, Instr.lhu]) (rs1 : RegNum) (imm : BitVec 12) (s : State) :
    ∃ n ext, ∀ rd, exec (load rd rs1 imm) s = s.load n ext rd (s.effAddr rs1 imm) := by
  simp only [List.mem_cons, List.not_mem_nil, or_false] at hload
  obtain rfl | rfl | rfl | rfl | rfl := hload <;> exact ⟨_, _, fun _ => rfl⟩

/-- Settles O30, by the split of a load into completing and raising. -/
theorem loadsToZeroRegisterArePerformed : Obligations.LoadsToZeroRegisterArePerformed := by
  intro load rd rs1 imm s hload
  obtain ⟨n, ext, hexec⟩ := exec_load_uniform_in_rd hload rs1 imm s
  rw [hexec rd, hexec 0#5]
  exact load_zero_cases s n ext rd (s.effAddr rs1 imm)

end Sys2Proof.Machine
end

section
/-!
The encoding (30_encoding.md): the five immediates as concatenations of instruction bits, and the ranges that follow from
their widths (R100 to R104).
-/
namespace Sys2Proof.Machine

/-! ### Sign extension as concatenation -/

/-- Sign extension acts on the upper part of a concatenation and leaves the lower part as it is. -/
theorem signExtend_append {n : Nat} (hn : 0 < n) (m v : Nat) (x : BitVec n) (y : BitVec m) :
    (x ++ y).signExtend (v + m) = x.signExtend v ++ y := by
  have hmsb : (x ++ y).msb = x.msb := by rw [BitVec.msb_append, if_neg (by omega)]
  refine BitVec.eq_of_getLsbD_eq fun i hi => ?_
  simp only [BitVec.getLsbD_append, BitVec.getLsbD_signExtend, hmsb]
  by_cases him : i < m
  · have : i < n + m := by omega
    simp [hi, him, this]
  · have hlt_v : i < v + m ↔ i - m < v := by omega
    have hlt_n : i < n + m ↔ i - m < n := by omega
    simp [him, hlt_v, hlt_n]

/-- A sign-extended field of a word is copies of the field's top bit above the field. -/
theorem signExtend_field (w : Word) (start n k : Nat) :
    (w.extractLsb' start (n + 1)).signExtend (1 * k + (n + 1)) =
      (w.extractLsb' (start + n) 1).replicate k ++ w.extractLsb' start (n + 1) := by
  refine BitVec.eq_of_getLsbD_eq fun i hi => ?_
  rw [BitVec.getLsbD_signExtend, BitVec.getLsbD_append]
  rw [Nat.one_mul] at hi
  by_cases hlow : i < n + 1
  · simp [hi, hlow]
  · have : i - (n + 1) < k := by omega
    simp [hi, hlow, this, BitVec.msb_eq_getLsbD_last, Nat.mod_one]

/-! ### The immediates, bit for bit (R100 to R104) -/

theorem imm12_immIOf (w : Word) :
    imm12 (immIOf w) = (w.extractLsb' 31 1).replicate 20 ++ w.extractLsb' 20 12 :=
  signExtend_field w 20 11 20

theorem imm12_immSOf (w : Word) :
    imm12 (immSOf w) = (w.extractLsb' 31 1).replicate 20 ++ w.extractLsb' 25 7 ++ w.extractLsb' 7 5 :=
  calc (w.extractLsb' 25 7 ++ w.extractLsb' 7 5).signExtend 32
    _ = (w.extractLsb' 25 7).signExtend 27 ++ w.extractLsb' 7 5 := signExtend_append (by decide) 5 27 _ _
    _ = _ := congrArg (· ++ w.extractLsb' 7 5) (signExtend_field w 25 6 20)

theorem immB_immBOf (w : Word) :
    immB (immBOf w) = (w.extractLsb' 31 1).replicate 19 ++ w.extractLsb' 31 1 ++ w.extractLsb' 7 1 ++ w.extractLsb' 25 6
      ++ w.extractLsb' 8 4 ++ 0#1 :=
  calc (w.extractLsb' 31 1 ++ w.extractLsb' 7 1 ++ w.extractLsb' 25 6 ++ w.extractLsb' 8 4 ++ 0#1).signExtend 32
    _ = (w.extractLsb' 31 1).signExtend 20 ++ w.extractLsb' 7 1 ++ w.extractLsb' 25 6 ++ w.extractLsb' 8 4 ++ 0#1 := by
      rw [signExtend_append (by decide) 1 31, signExtend_append (by decide) 4 27, signExtend_append (by decide) 6 21,
        signExtend_append (by decide) 1 20]
    _ = _ := congrArg (· ++ w.extractLsb' 7 1 ++ w.extractLsb' 25 6 ++ w.extractLsb' 8 4 ++ 0#1) (signExtend_field w 31 0 19)

theorem immJ_immJOf (w : Word) :
    immJ (immJOf w) = (w.extractLsb' 31 1).replicate 11 ++ w.extractLsb' 31 1 ++ w.extractLsb' 12 8 ++ w.extractLsb' 20 1
      ++ w.extractLsb' 21 10 ++ 0#1 :=
  calc (w.extractLsb' 31 1 ++ w.extractLsb' 12 8 ++ w.extractLsb' 20 1 ++ w.extractLsb' 21 10 ++ 0#1).signExtend 32
    _ = (w.extractLsb' 31 1).signExtend 12 ++ w.extractLsb' 12 8 ++ w.extractLsb' 20 1 ++ w.extractLsb' 21 10 ++ 0#1 := by
      rw [signExtend_append (by decide) 1 31, signExtend_append (by decide) 10 21, signExtend_append (by decide) 1 20,
        signExtend_append (by decide) 8 12]
    _ = _ := congrArg (· ++ w.extractLsb' 12 8 ++ w.extractLsb' 20 1 ++ w.extractLsb' 21 10 ++ 0#1) (signExtend_field w 31 0 11)

/-! ### Their ranges -/

theorem imm12_range (imm : BitVec 12) : -2048 ≤ (imm12 imm).toInt ∧ (imm12 imm).toInt ≤ 2047 := by
  rw [imm12_toInt]
  exact ⟨imm.le_toInt, BitVec.toInt_le⟩

/-- A 0 bit below `x` makes the number twice `x`: even, and in twice the range of `x`. -/
theorem toInt_append_zero_range {n : Nat} (x : BitVec n) :
    2 * -2 ^ (n - 1) ≤ (x ++ 0#1).toInt ∧ (x ++ 0#1).toInt ≤ 2 * (2 ^ (n - 1) - 1) ∧ (x ++ 0#1).toInt % 2 = 0 := by
  have htwice : (x ++ 0#1).toInt = 2 * x.toInt := BitVec.toInt_append_zero
  have hlow := x.le_toInt
  have hhigh := x.toInt_le
  omega

theorem immB_immBOf_range (w : Word) :
    -4096 ≤ (immB (immBOf w)).toInt ∧ (immB (immBOf w)).toInt ≤ 4094 ∧ (immB (immBOf w)).toInt % 2 = 0 := by
  rw [immB_toInt]
  exact toInt_append_zero_range (w.extractLsb' 31 1 ++ w.extractLsb' 7 1 ++ w.extractLsb' 25 6 ++ w.extractLsb' 8 4)

theorem immJ_immJOf_range (w : Word) :
    -1048576 ≤ (immJ (immJOf w)).toInt ∧ (immJ (immJOf w)).toInt ≤ 1048574 ∧ (immJ (immJOf w)).toInt % 2 = 0 := by
  rw [immJ_toInt]
  exact toInt_append_zero_range (w.extractLsb' 31 1 ++ w.extractLsb' 12 8 ++ w.extractLsb' 20 1 ++ w.extractLsb' 21 10)

/-- Settles O5: the concatenations by sign extension piece by piece, the ranges from the widths of the immediates; the
U-immediate needs no extension. -/
theorem immediatesBitForBit : Obligations.ImmediatesBitForBit := by
  intro w
  have hU : immU (immUOf w) = w.extractLsb' 12 20 ++ 0#12 := rfl
  exact ⟨imm12_immIOf w, imm12_immSOf w, immB_immBOf w, hU, immJ_immJOf w,
    imm12_range (immIOf w), imm12_range (immSOf w), immB_immBOf_range w, immJ_immJOf_range w⟩

end Sys2Proof.Machine
end

section
/-!
The integer computational instructions (40_integer_computational.md): their words, their results as numbers or bit by bit,
and what they leave unchanged.
-/
namespace Sys2Proof.Machine

/-! ### Decoding, computing, completing (R112, R141) -/

/-- The word of a computational instruction, one with a destination that neither accesses memory nor has a target, decodes to it. -/
theorem decode_encode_computational {i : Instr} {s : State} {rd : RegNum} (hd : destReg i = some rd)
    (ha : accessOf i s = none) (ht : targetOf i s = none) : decode (encode i) = .ok i := by
  cases i with
  | lui | auipc => simp [encode, decode]
  | addi | slti | sltiu | xori | ori | andi | slli | srli | srai => simp [encode, decode, decodeOpImm]
  | add | sub | sll | slt | sltu | xor | srl | sra | or | and => simp [encode, decode, decodeOp]
  | jal | jalr => cases ht
  | lb | lh | lw | lbu | lhu => cases ha
  | beq | bne | blt | bge | bltu | bgeu | sb | sh | sw | fence | fenceTso | pause | ecall | ebreak => cases hd

/-- A word with SLLI's opcode and funct3 whose `inst[31:25]` is not 0 is illegal (R148). -/
theorem decode_slli_upper_illegal {f7 : BitVec 7} (hf7 : f7 ≠ 0b0000000#7) (shamt : BitVec 5) (rs1 rd : RegNum) :
    decode (encR f7 shamt rs1 0b001#3 rd 0b0010011#7) = .error .unassignedMinor := by
  -- `hf7` picks the last arm of the match on funct7.
  simp [decode, decodeOpImm]

/-- Of the shapes an instruction can have, one with a destination and neither access nor target only computes. -/
theorem exec_computational {i : Instr} {s : State} {rd : RegNum} (hd : destReg i = some rd)
    (ha : accessOf i s = none) (ht : targetOf i s = none) : ∃ v, exec i s = s.compute rd v := by
  obtain ⟨_, v, hrd, -, -, hexec⟩ | ⟨_, _, -, -, hjump, -⟩ | ⟨_, hnone, -⟩ | ⟨_, _, _, _, -, hload, -⟩ |
    ⟨_, _, _, hnone, -⟩ | ⟨hnone, -⟩ | ⟨hnone, -⟩ := exec_cases i s
  · cases hrd.symm.trans hd
    exact ⟨v, hexec⟩
  · cases hjump.symm.trans ht
  · cases hnone.symm.trans hd
  · cases hload.symm.trans ha
  all_goals cases hnone.symm.trans hd

section Completion
variable {w : Word} {i : Instr} {s : State} {rd : RegNum} {v : Word}

/-- An instruction that computes `v` for `rd` decodes from its word, and goes on at `pc + 4` with `v` in `rd` and nothing else
changed. -/
theorem decodes_and_completes (hw : encode i = w) (hd : destReg i = some rd) (ha : accessOf i s = none)
    (ht : targetOf i s = none) (hexec : exec i s = s.compute rd v) :
    decode w = .ok i ∧ ∃ t, exec i s = .next t ∧ t.pc = s.pc + 4#32 ∧ WritesOnly rd v s t :=
  ⟨hw ▸ decode_encode_computational hd ha ht, s.result rd v, hexec, rfl, result_writesOnly s rd v⟩

/-- The same where the value is described bit by bit. -/
theorem decodes_and_completes_bitwise {bit : Nat → Bool} (hw : encode i = w) (hd : destReg i = some rd)
    (ha : accessOf i s = none) (ht : targetOf i s = none) (hexec : exec i s = s.compute rd v)
    (hbit : ∀ k, k < 32 → v.getLsbD k = bit k) :
    decode w = .ok i ∧ ∃ t v, exec i s = .next t ∧ t.pc = s.pc + 4#32 ∧ WritesOnly rd v s t ∧
      ∀ k, k < 32 → v.getLsbD k = bit k :=
  have ⟨hdecode, t, hnext, hpc, hframe⟩ := decodes_and_completes hw hd ha ht hexec
  ⟨hdecode, t, v, hnext, hpc, hframe, hbit⟩

end Completion

/-- What is computed for x0 is lost: only the pc changes (R22, R163). -/
theorem compute_zero (s : State) (v : Word) : s.compute 0#5 v = .next s.advance := by
  rw [State.compute, State.result, writeReg_zero]

/-! ### Results as numbers -/

theorem add_eq_ofInt (a b : Word) : a + b = BitVec.ofInt 32 (a.toInt + b.toInt) := by
  rw [BitVec.ofInt_add, BitVec.ofInt_toInt, BitVec.ofInt_toInt]

theorem sub_eq_ofInt (a b : Word) : a - b = BitVec.ofInt 32 (a.toInt - b.toInt) := by
  rw [Int.sub_eq_add_neg, BitVec.ofInt_add, BitVec.ofInt_neg, BitVec.ofInt_toInt, BitVec.ofInt_toInt,
    BitVec.sub_eq_add_neg]

theorem add_imm12_eq_ofInt (a : Word) (imm : BitVec 12) : a + imm12 imm = BitVec.ofInt 32 (a.toInt + imm.toInt) := by
  rw [add_eq_ofInt, imm12_toInt]

theorem shiftLeft_eq_ofNat (a : Word) (n : BitVec 5) : a <<< n = BitVec.ofNat 32 (a.toNat * 2 ^ n.toNat) := by
  refine BitVec.eq_of_toNat_eq ?_
  rw [BitVec.shiftLeft_eq', BitVec.toNat_shiftLeft, BitVec.toNat_ofNat, Nat.shiftLeft_eq]

theorem ushiftRight_eq_ofNat (a : Word) (n : BitVec 5) : a >>> n = BitVec.ofNat 32 (a.toNat / 2 ^ n.toNat) := by
  rw [BitVec.ushiftRight_eq', ← Nat.shiftRight_eq_div_pow, ← BitVec.toNat_ushiftRight, BitVec.ofNat_toNat, BitVec.setWidth_eq]

theorem immU_eq_ofNat (imm20 : BitVec 20) : immU imm20 = BitVec.ofNat 32 (imm20.toNat * 4096) := by
  rw [← immU_toNat, BitVec.ofNat_toNat, BitVec.setWidth_eq]

theorem add_immU_eq_ofNat (a : Word) (imm20 : BitVec 20) :
    a + immU imm20 = BitVec.ofNat 32 (a.toNat + imm20.toNat * 4096) := by
  rw [BitVec.ofNat_add, BitVec.ofNat_toNat, BitVec.setWidth_eq, immU_eq_ofNat]

/-! ### What each instruction computes -/

theorem exec_addi (rd rs1 : RegNum) (imm : BitVec 12) (s : State) :
    exec (.addi rd rs1 imm) s = s.compute rd (BitVec.ofInt 32 ((s.readReg rs1).toInt + imm.toInt)) :=
  congrArg (s.compute rd) (add_imm12_eq_ofInt _ _)

theorem exec_slli (rd rs1 : RegNum) (shamt : BitVec 5) (s : State) :
    exec (.slli rd rs1 shamt) s = s.compute rd (BitVec.ofNat 32 ((s.readReg rs1).toNat * 2 ^ shamt.toNat)) :=
  congrArg (s.compute rd) (shiftLeft_eq_ofNat _ _)

theorem exec_srli (rd rs1 : RegNum) (shamt : BitVec 5) (s : State) :
    exec (.srli rd rs1 shamt) s = s.compute rd (BitVec.ofNat 32 ((s.readReg rs1).toNat / 2 ^ shamt.toNat)) :=
  congrArg (s.compute rd) (ushiftRight_eq_ofNat _ _)

theorem exec_sll (rd rs1 rs2 : RegNum) (s : State) : exec (.sll rd rs1 rs2) s =
    s.compute rd (BitVec.ofNat 32 ((s.readReg rs1).toNat * 2 ^ ((s.readReg rs2).toNat % 32))) := by
  rw [← shiftAmount_toNat]
  exact congrArg (s.compute rd) (shiftLeft_eq_ofNat _ _)

theorem exec_srl (rd rs1 rs2 : RegNum) (s : State) : exec (.srl rd rs1 rs2) s =
    s.compute rd (BitVec.ofNat 32 ((s.readReg rs1).toNat / 2 ^ ((s.readReg rs2).toNat % 32))) := by
  rw [← shiftAmount_toNat]
  exact congrArg (s.compute rd) (ushiftRight_eq_ofNat _ _)

theorem exec_lui (rd : RegNum) (imm20 : BitVec 20) (s : State) :
    exec (.lui rd imm20) s = s.compute rd (BitVec.ofNat 32 (imm20.toNat * 4096)) :=
  congrArg (s.compute rd) (immU_eq_ofNat _)

theorem exec_auipc (rd : RegNum) (imm20 : BitVec 20) (s : State) :
    exec (.auipc rd imm20) s = s.compute rd (BitVec.ofNat 32 (s.pc.toNat + imm20.toNat * 4096)) :=
  congrArg (s.compute rd) (add_immU_eq_ofNat _ _)

theorem exec_add (rd rs1 rs2 : RegNum) (s : State) :
    exec (.add rd rs1 rs2) s = s.compute rd (BitVec.ofInt 32 ((s.readReg rs1).toInt + (s.readReg rs2).toInt)) :=
  congrArg (s.compute rd) (add_eq_ofInt _ _)

theorem exec_sub (rd rs1 rs2 : RegNum) (s : State) :
    exec (.sub rd rs1 rs2) s = s.compute rd (BitVec.ofInt 32 ((s.readReg rs1).toInt - (s.readReg rs2).toInt)) :=
  congrArg (s.compute rd) (sub_eq_ofInt _ _)

theorem exec_andi (rd rs1 : RegNum) (imm : BitVec 12) (s : State) :
    exec (.andi rd rs1 imm) s = s.compute rd (s.readReg rs1 &&& imm12 imm) := rfl

theorem exec_ori (rd rs1 : RegNum) (imm : BitVec 12) (s : State) :
    exec (.ori rd rs1 imm) s = s.compute rd (s.readReg rs1 ||| imm12 imm) := rfl

theorem exec_xori (rd rs1 : RegNum) (imm : BitVec 12) (s : State) :
    exec (.xori rd rs1 imm) s = s.compute rd (s.readReg rs1 ^^^ imm12 imm) := rfl

theorem exec_and (rd rs1 rs2 : RegNum) (s : State) :
    exec (.and rd rs1 rs2) s = s.compute rd (s.readReg rs1 &&& s.readReg rs2) := rfl

theorem exec_or (rd rs1 rs2 : RegNum) (s : State) :
    exec (.or rd rs1 rs2) s = s.compute rd (s.readReg rs1 ||| s.readReg rs2) := rfl

theorem exec_xor (rd rs1 rs2 : RegNum) (s : State) :
    exec (.xor rd rs1 rs2) s = s.compute rd (s.readReg rs1 ^^^ s.readReg rs2) := rfl

/-! ### The statements -/

/-- Settles O7: the sum as a number; the bitwise results from the bits of the sign-extended immediate. -/
theorem addAndLogicalImmediateResults : Obligations.AddAndLogicalImmediateResults := by
  intro rd rs1 imm s
  refine ⟨decodes_and_completes rfl rfl rfl rfl (exec_addi rd rs1 imm s),
    decodes_and_completes_bitwise rfl rfl rfl rfl (exec_andi rd rs1 imm s) fun k hk => ?and,
    decodes_and_completes_bitwise rfl rfl rfl rfl (exec_ori rd rs1 imm s) fun k hk => ?or,
    decodes_and_completes_bitwise rfl rfl rfl rfl (exec_xori rd rs1 imm s) fun k hk => ?xor⟩
  case and => rw [BitVec.getLsbD_and, imm12_getLsbD imm k hk]
  case or => rw [BitVec.getLsbD_or, imm12_getLsbD imm k hk]
  case xor => rw [BitVec.getLsbD_xor, imm12_getLsbD imm k hk]

/-- Settles O10: both shifts as arithmetic on the number shifted, and the decoder on the other words of SLLI's funct3. -/
theorem logicalShiftImmediateResults : Obligations.LogicalShiftImmediateResults := by
  intro rd rs1 shamt s
  exact ⟨decodes_and_completes rfl rfl rfl rfl (exec_slli rd rs1 shamt s),
    decodes_and_completes rfl rfl rfl rfl (exec_srli rd rs1 shamt s),
    fun _ hf7 => ⟨_, decode_slli_upper_illegal hf7 shamt rs1 rd⟩⟩

/-- Settles O12: the immediate shifts' arithmetic, with the low 5 bits of the second register as the amount. -/
theorem logicalShiftResults : Obligations.LogicalShiftResults := by
  intro rd rs1 rs2 s
  exact ⟨decodes_and_completes rfl rfl rfl rfl (exec_sll rd rs1 rs2 s),
    decodes_and_completes rfl rfl rfl rfl (exec_srl rd rs1 rs2 s)⟩

/-- Settles O13: 20 bits above 12 zeros are the operand times 4096. -/
theorem upperImmediateResults : Obligations.UpperImmediateResults := by
  intro rd imm20 s
  exact ⟨decodes_and_completes rfl rfl rfl rfl (exec_lui rd imm20 s),
    decodes_and_completes rfl rfl rfl rfl (exec_auipc rd imm20 s)⟩

/-- Settles O14: addition and subtraction of words are those of the integers, cut to 32 bits. -/
theorem addAndSubResults : Obligations.AddAndSubResults := by
  intro rd rs1 rs2 s
  exact ⟨decodes_and_completes rfl rfl rfl rfl (exec_add rd rs1 rs2 s),
    decodes_and_completes rfl rfl rfl rfl (exec_sub rd rs1 rs2 s)⟩

/-- Settles O15, by the bits of a bitwise combination. -/
theorem logicalRegisterResults : Obligations.LogicalRegisterResults := by
  intro rd rs1 rs2 s
  exact ⟨decodes_and_completes_bitwise rfl rfl rfl rfl (exec_and rd rs1 rs2 s) fun _ _ => BitVec.getLsbD_and,
    decodes_and_completes_bitwise rfl rfl rfl rfl (exec_or rd rs1 rs2 s) fun _ _ => BitVec.getLsbD_or,
    decodes_and_completes_bitwise rfl rfl rfl rfl (exec_xor rd rs1 rs2 s) fun _ _ => BitVec.getLsbD_xor⟩

/-- Settles O16: an instruction with destination x0 and neither access nor target computes a value, which x0 loses. -/
theorem nopChangesOnlyThePc : Obligations.NopChangesOnlyThePc := by
  refine ⟨rfl, fun i s hd ha ht => ?_⟩
  obtain ⟨v, hexec⟩ := exec_computational hd ha ht
  exact ⟨s.advance, hexec.trans (compute_zero s v), rfl, changesOnlyPc_setPc s _⟩

end Sys2Proof.Machine
end

section
/-!
The decoder and the encoder (30_encoding.md): they are inverse to each other, the decoder agrees with the table of R112, and
which words are legal by their fields. Each proof goes major opcode by major opcode (R113).
-/
namespace Sys2Proof

/-! ### The decoder by major opcode (R110, R113) -/

/-- The major opcodes that have an RV32I row (R113). -/
def majorOpcodes : List (BitVec 7) :=
  [0b0110111#7, 0b0010111#7, 0b1101111#7, 0b1100111#7, 0b1100011#7, 0b0000011#7, 0b0100011#7, 0b0010011#7, 0b0110011#7,
    0b0001111#7, 0b1110011#7]

/-- Minor opcodes of JALR (R113); `decode` holds this match in its own arm. -/
def decodeJalr (w : Word) : Except Illegal Instr :=
  match funct3Of w with
  | 0b000#3 => .ok (.jalr (rdOf w) (rs1Of w) (immIOf w))
  | _ => .error .unassignedMinor

section ByOpcode
variable {w : Word}

theorem decode_lui (h : opcodeOf w = 0b0110111#7) : decode w = .ok (.lui (rdOf w) (immUOf w)) := by simp [decode, h]
theorem decode_auipc (h : opcodeOf w = 0b0010111#7) : decode w = .ok (.auipc (rdOf w) (immUOf w)) := by simp [decode, h]
theorem decode_jal (h : opcodeOf w = 0b1101111#7) : decode w = .ok (.jal (rdOf w) (immJOf w)) := by simp [decode, h]
theorem decode_jalr (h : opcodeOf w = 0b1100111#7) : decode w = decodeJalr w := by
  rw [decode, h]
  rfl
theorem decode_branch (h : opcodeOf w = 0b1100011#7) : decode w = decodeBranch w := by simp [decode, h]
theorem decode_load (h : opcodeOf w = 0b0000011#7) : decode w = decodeLoad w := by simp [decode, h]
theorem decode_store (h : opcodeOf w = 0b0100011#7) : decode w = decodeStore w := by simp [decode, h]
theorem decode_opImm (h : opcodeOf w = 0b0010011#7) : decode w = decodeOpImm w := by simp [decode, h]
theorem decode_op (h : opcodeOf w = 0b0110011#7) : decode w = decodeOp w := by simp [decode, h]
theorem decode_miscMem (h : opcodeOf w = 0b0001111#7) : decode w = decodeMiscMem w := by simp [decode, h]
theorem decode_system (h : opcodeOf w = 0b1110011#7) : decode w = decodeSystem w := by simp [decode, h]

theorem decode_other (h : opcodeOf w ∉ majorOpcodes) : decode w = .error (illegalOpcode (opcodeOf w)) := by
  unfold decode
  split
  -- the last arm is the one no major opcode takes
  case h_12 => rfl
  all_goals exact absurd (by simp [majorOpcodes, *]) h

end ByOpcode

/-- A 7-bit opcode is one of the eleven, or none of them. -/
theorem majorOpcode_cases (op : BitVec 7) :
    op = 0b0110111#7 ∨ op = 0b0010111#7 ∨ op = 0b1101111#7 ∨ op = 0b1100111#7 ∨ op = 0b1100011#7 ∨ op = 0b0000011#7 ∨
    op = 0b0100011#7 ∨ op = 0b0010011#7 ∨ op = 0b0110011#7 ∨ op = 0b0001111#7 ∨ op = 0b1110011#7 ∨ op ∉ majorOpcodes := by
  by_cases h : op ∈ majorOpcodes
  · simp only [majorOpcodes, List.mem_cons, List.not_mem_nil, or_false] at h
    tauto
  · tauto

/-- The eight values of funct3. -/
theorem funct3_cases (f : BitVec 3) : f = 0b000#3 ∨ f = 0b001#3 ∨ f = 0b010#3 ∨ f = 0b011#3 ∨ f = 0b100#3 ∨ f = 0b101#3 ∨
    f = 0b110#3 ∨ f = 0b111#3 := by
  revert f
  decide

/-- The two values of funct7 that occur in the table, and all others. -/
theorem funct7_cases (f : BitVec 7) : f = 0b0000000#7 ∨ f = 0b0100000#7 ∨ (f ≠ 0b0000000#7 ∧ f ≠ 0b0100000#7) := by
  tauto

/-! ### Decoding what was encoded -/

theorem fields_of_encFence_eq {fm pred succ : BitVec 4} {rs1 rd : RegNum} {w : Word} (h : encFence fm pred succ rs1 rd = w) :
    fm = fmOf w ∧ pred = predOf w ∧ succ = succOf w ∧ rs1 = rs1Of w ∧ rd = rdOf w := by
  subst h
  simp

/-- The fields that name FENCE.TSO are those of its one word (R116, R243). -/
theorem isFenceTsoWord_iff {fm pred succ : BitVec 4} {rs1 rd : RegNum} :
    Instr.isFenceTsoWord fm pred succ rs1 rd = true ↔ encFence fm pred succ rs1 rd = 0x8330000F#32 := by
  constructor
  · intro h
    simp only [Instr.isFenceTsoWord, Bool.and_eq_true, beq_iff_eq] at h
    obtain ⟨⟨⟨⟨rfl, rfl⟩, rfl⟩, rfl⟩, rfl⟩ := h
    rfl
  · intro h
    obtain ⟨rfl, rfl, rfl, rfl, rfl⟩ := fields_of_encFence_eq h
    rfl

/-- The fields that name PAUSE are those of its one word (R116, R244). -/
theorem isPauseWord_iff {fm pred succ : BitVec 4} {rs1 rd : RegNum} :
    Instr.isPauseWord fm pred succ rs1 rd = true ↔ encFence fm pred succ rs1 rd = 0x0100000F#32 := by
  constructor
  · intro h
    simp only [Instr.isPauseWord, Bool.and_eq_true, beq_iff_eq] at h
    obtain ⟨⟨⟨⟨rfl, rfl⟩, rfl⟩, rfl⟩, rfl⟩ := h
    rfl
  · intro h
    obtain ⟨rfl, rfl, rfl, rfl, rfl⟩ := fields_of_encFence_eq h
    rfl

/-- A FENCE is well formed when its word is neither of the two with names of their own (R116). -/
theorem fence_wf_iff {fm pred succ : BitVec 4} {rs1 rd : RegNum} : (Instr.fence fm pred succ rs1 rd).wf = true ↔
    encFence fm pred succ rs1 rd ≠ 0x8330000F#32 ∧ encFence fm pred succ rs1 rd ≠ 0x0100000F#32 := by
  rw [Ne, Ne, ← isFenceTsoWord_iff, ← isPauseWord_iff]
  simp [Instr.wf]

/-- Settles O1, format by format: each field extraction gives back the field the layout put there; an even offset is given back
by its pieces, and a well-formed FENCE is not one of the two words with names of their own. -/
theorem encodeThenDecode : Obligations.EncodeThenDecode := by
  intro i hwf
  cases i with
  | lui | auipc | addi | slti | sltiu | xori | ori | andi | slli | srli | srai
  | add | sub | sll | slt | sltu | xor | srl | sra | or | and =>
    exact Machine.decode_encode_computational (s := Machine.State.reset) rfl rfl rfl
  | jal rd offset => simp [encode, decode_jal, immJOf_encJ hwf]
  | jalr => simp [encode, decode_jalr, decodeJalr]
  | beq rs1 rs2 offset | bne rs1 rs2 offset | blt rs1 rs2 offset | bge rs1 rs2 offset | bltu rs1 rs2 offset
  | bgeu rs1 rs2 offset => simp [encode, decode_branch, decodeBranch, immBOf_encB hwf]
  | lb | lh | lw | lbu | lhu => simp [encode, decode_load, decodeLoad]
  | sb | sh | sw => simp [encode, decode_store, decodeStore]
  | fence fm pred succ rs1 rd =>
    obtain ⟨htso, hpause⟩ := fence_wf_iff.mp hwf
    simp [encode, decode_miscMem, decodeMiscMem, htso, hpause]
  | fenceTso | pause | ecall | ebreak => rfl

/-! ### Encoding what was decoded -/

section Fields
variable {w : Word} {op : BitVec 7} {f3 : BitVec 3} {f7 : BitVec 7}

theorem encR_eq (hop : opcodeOf w = op) (h3 : funct3Of w = f3) (h7 : funct7Of w = f7) :
    encR f7 (rs2Of w) (rs1Of w) f3 (rdOf w) op = w := by
  rw [← hop, ← h3, ← h7, encR_fields]

theorem encI_eq (hop : opcodeOf w = op) (h3 : funct3Of w = f3) : encI (immIOf w) (rs1Of w) f3 (rdOf w) op = w := by
  rw [← hop, ← h3, encI_fields]

theorem encS_eq (hop : opcodeOf w = op) (h3 : funct3Of w = f3) : encS (immSOf w) (rs2Of w) (rs1Of w) f3 op = w := by
  rw [← hop, ← h3, encS_fields]

theorem encB_eq (hop : opcodeOf w = op) (h3 : funct3Of w = f3) : encB (immBOf w) (rs2Of w) (rs1Of w) f3 op = w := by
  rw [← hop, ← h3, encB_fields]

theorem encU_eq (hop : opcodeOf w = op) : encU (immUOf w) (rdOf w) op = w := by
  rw [← hop, encU_fields]

theorem encJ_eq (hop : opcodeOf w = op) : encJ (immJOf w) (rdOf w) op = w := by
  rw [← hop, encJ_fields]

end Fields

/-- `i` is well formed and `w` is its word: what O2 says of a word that decodes. -/
def IsWordOf (w : Word) (i : Instr) : Prop := encode i = w ∧ i.wf = true

section Decoded
variable {w : Word} {i : Instr}

theorem isWordOf_of_decodeJalr (hop : opcodeOf w = 0b1100111#7) (h : decodeJalr w = .ok i) : IsWordOf w i := by
  unfold decodeJalr at h
  split at h <;> cases h
  exact ⟨encI_eq hop ‹_›, rfl⟩

theorem isWordOf_of_decodeBranch (hop : opcodeOf w = 0b1100011#7) (h : decodeBranch w = .ok i) : IsWordOf w i := by
  unfold decodeBranch at h
  split at h <;> cases h <;> exact ⟨encB_eq hop ‹_›, immBOf_even w⟩

theorem isWordOf_of_decodeLoad (hop : opcodeOf w = 0b0000011#7) (h : decodeLoad w = .ok i) : IsWordOf w i := by
  unfold decodeLoad at h
  split at h <;> cases h <;> exact ⟨encI_eq hop ‹_›, rfl⟩

theorem isWordOf_of_decodeStore (hop : opcodeOf w = 0b0100011#7) (h : decodeStore w = .ok i) : IsWordOf w i := by
  unfold decodeStore at h
  split at h <;> cases h <;> exact ⟨encS_eq hop ‹_›, rfl⟩

theorem isWordOf_of_decodeOpImm (hop : opcodeOf w = 0b0010011#7) (h : decodeOpImm w = .ok i) : IsWordOf w i := by
  unfold decodeOpImm at h
  split at h
  case h_7 | h_8 =>
    -- the shifts, whose words fix funct7 too
    split at h <;> cases h <;> exact ⟨encR_eq hop ‹_› ‹_›, rfl⟩
  all_goals cases h
  all_goals exact ⟨encI_eq hop ‹_›, rfl⟩

theorem isWordOf_of_decodeOp (hop : opcodeOf w = 0b0110011#7) (h : decodeOp w = .ok i) : IsWordOf w i := by
  unfold decodeOp at h
  split at h
  case h_3 => cases h
  all_goals split at h <;> cases h <;> exact ⟨encR_eq hop ‹_› ‹_›, rfl⟩

theorem isWordOf_of_decodeMiscMem (hop : opcodeOf w = 0b0001111#7) (h : decodeMiscMem w = .ok i) : IsWordOf w i := by
  unfold decodeMiscMem at h
  split at h
  case h_2 => cases h
  case h_1 h3 =>
    have hword := encFence_fields hop h3
    split at h
    · cases h
      exact ⟨Eq.symm ‹_›, rfl⟩
    split at h <;> cases h
    · exact ⟨Eq.symm ‹_›, rfl⟩
    · exact ⟨hword, fence_wf_iff.mpr ⟨hword.symm ▸ ‹w ≠ 0x8330000F#32›, hword.symm ▸ ‹w ≠ 0x0100000F#32›⟩⟩

theorem isWordOf_of_decodeSystem (h : decodeSystem w = .ok i) : IsWordOf w i := by
  unfold decodeSystem at h
  split at h
  · cases h
    exact ⟨Eq.symm ‹_›, rfl⟩
  split at h <;> cases h
  exact ⟨Eq.symm ‹_›, rfl⟩

end Decoded

/-- Settles O2, opcode by opcode: the fields a decoder reads cover the word. -/
theorem decodeThenEncode : Obligations.DecodeThenEncode := by
  intro w i h
  change IsWordOf w i
  obtain hop | hop | hop | hop | hop | hop | hop | hop | hop | hop | hop | hop := majorOpcode_cases (opcodeOf w)
  · cases (decode_lui hop).symm.trans h
    exact ⟨encU_eq hop, rfl⟩
  · cases (decode_auipc hop).symm.trans h
    exact ⟨encU_eq hop, rfl⟩
  · cases (decode_jal hop).symm.trans h
    exact ⟨encJ_eq hop, immJOf_even w⟩
  · exact isWordOf_of_decodeJalr hop (decode_jalr hop ▸ h)
  · exact isWordOf_of_decodeBranch hop (decode_branch hop ▸ h)
  · exact isWordOf_of_decodeLoad hop (decode_load hop ▸ h)
  · exact isWordOf_of_decodeStore hop (decode_store hop ▸ h)
  · exact isWordOf_of_decodeOpImm hop (decode_opImm hop ▸ h)
  · exact isWordOf_of_decodeOp hop (decode_op hop ▸ h)
  · exact isWordOf_of_decodeMiscMem hop (decode_miscMem hop ▸ h)
  · exact isWordOf_of_decodeSystem (decode_system hop ▸ h)
  · cases (decode_other hop).symm.trans h

end Sys2Proof
end

section
/-!
The decoder against the table of R112 and against its fields (30_encoding.md sections 5 to 7).
-/
namespace Sys2Proof

/-! ### The table by fields -/

/-- The rows that fix fields alone: all but FENCE.TSO, PAUSE, ECALL and EBREAK, which fix the whole word. -/
def fieldRows : List OpcodeRow := opcodeRows.take 38

/-- The four rows that fix the whole word. -/
def wordRows : List OpcodeRow := opcodeRows.drop 38

/-- A word with these fields matches a row of `fieldRows` (`matchesWord_eq_fitsFields`). -/
def OpcodeRow.fitsFields (r : OpcodeRow) (op : BitVec 7) (f3 : BitVec 3) (f7 : BitVec 7) : Bool :=
  op == opcodeOf r.pattern && (r.mask == 0x0000007F || f3 == funct3Of r.pattern) &&
    (r.mask != 0xFE00707F || f7 == funct7Of r.pattern)

/-- The mnemonics of the rows that fit these fields. -/
def fieldNames (op : BitVec 7) (f3 : BitVec 3) (f7 : BitVec 7) : List String :=
  (fieldRows.filter (fun r => r.fitsFields op f3 f7)).map OpcodeRow.mnemonic

/-- The mnemonics of the whole-word rows that a word matches. -/
def wordNames (w : Word) : List String := (wordRows.filter (fun r => w == r.pattern)).map OpcodeRow.mnemonic

/-- The mnemonics of the rows that R112 and R116 give the outcome of the decoder. -/
def decodedNames (d : Except Illegal Instr) : List String :=
  match d with
  | .error _ => []
  | .ok i => if i = .fenceTso ∨ i = .pause then ["FENCE", i.mnemonic] else [i.mnemonic]

/-- Each row of `fieldRows` has one of the three masks, and no pattern bit outside it. -/
theorem fieldRows_masks : ∀ r ∈ fieldRows, (r.mask = 0x0000007F ∨ r.mask = 0x0000707F ∨ r.mask = 0xFE00707F) ∧
    r.pattern &&& r.mask = r.pattern := by decide

theorem matchesWord_eq_fitsFields {r : OpcodeRow} (hr : r ∈ fieldRows) (w : Word) :
    r.matchesWord w = r.fitsFields (opcodeOf w) (funct3Of w) (funct7Of w) := by
  obtain ⟨hmask, hp⟩ := fieldRows_masks r hr
  obtain ⟨name, p, mask⟩ := r
  simp only at hmask hp
  obtain rfl | rfl | rfl := hmask
  · exact (Laws.matches_opcode_eq hp).trans (by simp [OpcodeRow.fitsFields])
  · exact (Laws.matches_minor3_eq hp).trans (by simp [OpcodeRow.fitsFields])
  · exact (Laws.matches_minor10_eq hp).trans (by simp [OpcodeRow.fitsFields])

theorem matchesWord_eq_beq {r : OpcodeRow} (hr : r ∈ wordRows) (w : Word) : r.matchesWord w = (w == r.pattern) := by
  have hmask : ∀ r ∈ wordRows, r.mask = 0xFFFFFFFF := by decide
  obtain ⟨name, p, mask⟩ := r
  cases hmask _ hr
  exact Laws.matches_word_eq

/-- The mnemonics of the rows of R112 that a word matches. -/
def matchingNames (w : Word) : List String := (opcodeRows.filter (fun r => r.matchesWord w)).map OpcodeRow.mnemonic

/-- The rows a word matches: by its fields, and then those that are the word itself. -/
theorem matchingNames_eq (w : Word) : matchingNames w =
    fieldNames (opcodeOf w) (funct3Of w) (funct7Of w) ++ wordNames w := by
  have hsplit : opcodeRows = fieldRows ++ wordRows := (List.take_append_drop 38 opcodeRows).symm
  rw [matchingNames, hsplit, List.filter_append, List.map_append, List.filter_congr fun r hr => matchesWord_eq_fitsFields hr w,
    List.filter_congr fun r hr => matchesWord_eq_beq hr w]
  rfl

/-- A word of another opcode than MISC-MEM's and SYSTEM's is none of the four words. -/
theorem wordNames_nil {w : Word} (hmisc : opcodeOf w ≠ 0b0001111#7) (hsys : opcodeOf w ≠ 0b1110011#7) : wordNames w = [] := by
  have hops : ∀ r ∈ wordRows, opcodeOf r.pattern = 0b0001111#7 ∨ opcodeOf r.pattern = 0b1110011#7 := by decide
  refine List.map_eq_nil_iff.mpr (List.filter_eq_nil_iff.mpr fun r hr he => ?_)
  rw [beq_iff_eq.mp he] at hmisc hsys
  exact (hops r hr).elim hmisc hsys

theorem fieldNames_nil {op : BitVec 7} (h : op ∉ majorOpcodes) (f3 : BitVec 3) (f7 : BitVec 7) : fieldNames op f3 f7 = [] := by
  have hops : ∀ r ∈ fieldRows, opcodeOf r.pattern ∈ majorOpcodes := by decide
  refine List.map_eq_nil_iff.mpr (List.filter_eq_nil_iff.mpr fun r hr he => h ?_)
  simp only [OpcodeRow.fitsFields, Bool.and_eq_true, beq_iff_eq] at he
  exact he.1.1 ▸ hops r hr

/-! ### The rows of each major opcode are those of its decoder -/

theorem decodedNames_jalr (w : Word) : fieldNames 0b1100111#7 (funct3Of w) (funct7Of w) = decodedNames (decodeJalr w) := by
  obtain h | h | h | h | h | h | h | h := funct3_cases (funct3Of w) <;> rw [decodeJalr, h] <;> rfl

theorem decodedNames_branch (w : Word) : fieldNames 0b1100011#7 (funct3Of w) (funct7Of w) = decodedNames (decodeBranch w) := by
  obtain h | h | h | h | h | h | h | h := funct3_cases (funct3Of w) <;> rw [decodeBranch, h] <;> rfl

theorem decodedNames_load (w : Word) : fieldNames 0b0000011#7 (funct3Of w) (funct7Of w) = decodedNames (decodeLoad w) := by
  obtain h | h | h | h | h | h | h | h := funct3_cases (funct3Of w) <;> rw [decodeLoad, h] <;> rfl

theorem decodedNames_store (w : Word) : fieldNames 0b0100011#7 (funct3Of w) (funct7Of w) = decodedNames (decodeStore w) := by
  obtain h | h | h | h | h | h | h | h := funct3_cases (funct3Of w) <;> rw [decodeStore, h] <;> rfl

/-- No row fits an unlisted funct7, where all rows of the opcode and funct3 fix funct7. -/
theorem fieldNames_nil_of_funct7 {op : BitVec 7} {f3 : BitVec 3} {f7 : BitVec 7}
    (hrows : ∀ r ∈ fieldRows, op = opcodeOf r.pattern → r.mask = 0x0000007F ∨ f3 = funct3Of r.pattern →
      r.mask = 0xFE00707F ∧ (funct7Of r.pattern = 0b0000000#7 ∨ funct7Of r.pattern = 0b0100000#7))
    (hlow : f7 ≠ 0b0000000#7) (hhigh : f7 ≠ 0b0100000#7) : fieldNames op f3 f7 = [] := by
  refine List.map_eq_nil_iff.mpr (List.filter_eq_nil_iff.mpr fun r hr he => ?_)
  simp only [OpcodeRow.fitsFields, Bool.and_eq_true, Bool.or_eq_true, beq_iff_eq, bne_iff_ne] at he
  obtain ⟨⟨hop, h3⟩, h7⟩ := he
  obtain ⟨hmask, hf7⟩ := hrows r hr hop h3
  have hfit : f7 = funct7Of r.pattern := h7.resolve_left fun hne => hne hmask
  rw [← hfit] at hf7
  exact hf7.elim hlow hhigh

theorem decodedNames_opImm (w : Word) : fieldNames 0b0010011#7 (funct3Of w) (funct7Of w) = decodedNames (decodeOpImm w) := by
  obtain h | h | h | h | h | h | h | h := funct3_cases (funct3Of w)
  case inr.inl | inr.inr.inr.inr.inr.inl =>
    -- the shifts, whose rows fix funct7 too
    obtain h7 | h7 | ⟨hlow, hhigh⟩ := funct7_cases (funct7Of w)
    · rw [decodeOpImm, h, h7]
      rfl
    · rw [decodeOpImm, h, h7]
      rfl
    · rw [h, fieldNames_nil_of_funct7 (by decide) hlow hhigh]
      -- `hlow` and `hhigh` pick the last arm of the match on funct7
      simp [decodeOpImm, h, decodedNames]
  all_goals
    rw [decodeOpImm, h]
    rfl

theorem decodedNames_op (w : Word) : fieldNames 0b0110011#7 (funct3Of w) (funct7Of w) = decodedNames (decodeOp w) := by
  obtain h7 | h7 | ⟨hlow, hhigh⟩ := funct7_cases (funct7Of w)
  case inr.inr =>
    have hrows : ∀ f3 : BitVec 3, ∀ r ∈ fieldRows, 0b0110011#7 = opcodeOf r.pattern →
        r.mask = 0x0000007F ∨ f3 = funct3Of r.pattern →
        r.mask = 0xFE00707F ∧ (funct7Of r.pattern = 0b0000000#7 ∨ funct7Of r.pattern = 0b0100000#7) := by decide
    rw [fieldNames_nil_of_funct7 (hrows _) hlow hhigh]
    -- `hlow` and `hhigh` pick the last arm of the match on funct7
    simp [decodeOp, decodedNames]
  all_goals
    obtain h | h | h | h | h | h | h | h := funct3_cases (funct3Of w) <;> rw [decodeOp, h7, h] <;> rfl

/-- The FENCE row fits every word of MISC-MEM with funct3 0, beside the row of FENCE.TSO or PAUSE where it is one of these. -/
theorem decodedNames_miscMem {w : Word} (hop : opcodeOf w = 0b0001111#7) :
    fieldNames 0b0001111#7 (funct3Of w) (funct7Of w) ++ wordNames w = decodedNames (decodeMiscMem w) := by
  by_cases htso : w = 0x8330000F#32
  · subst htso
    rfl
  by_cases hpause : w = 0x0100000F#32
  · subst hpause
    rfl
  have hecall : w ≠ 0x00000073#32 := by
    rintro rfl
    exact absurd hop (by decide)
  have hebreak : w ≠ 0x00100073#32 := by
    rintro rfl
    exact absurd hop (by decide)
  have hnone : wordNames w = [] := by
    simp [wordNames, wordRows, opcodeRows, opcodeRowsMajor, opcodeRowsMinor, htso, hpause, hecall, hebreak]
  rw [hnone, List.append_nil]
  obtain h | h | h | h | h | h | h | h := funct3_cases (funct3Of w)
  · simp only [decodeMiscMem, h, htso, hpause]
    rfl
  all_goals
    rw [decodeMiscMem, h]
    rfl

theorem decodedNames_system {w : Word} (hop : opcodeOf w = 0b1110011#7) :
    fieldNames 0b1110011#7 (funct3Of w) (funct7Of w) ++ wordNames w = decodedNames (decodeSystem w) := by
  have htso : w ≠ 0x8330000F#32 := by
    rintro rfl
    exact absurd hop (by decide)
  have hpause : w ≠ 0x0100000F#32 := by
    rintro rfl
    exact absurd hop (by decide)
  have hfields : fieldNames 0b1110011#7 (funct3Of w) (funct7Of w) = [] := rfl
  rw [hfields, List.nil_append]
  by_cases hecall : w = 0x00000073#32
  · subst hecall
    rfl
  by_cases hebreak : w = 0x00100073#32
  · subst hebreak
    rfl
  simp [wordNames, wordRows, opcodeRows, opcodeRowsMajor, opcodeRowsMinor, decodeSystem, decodedNames, htso, hpause, hecall,
    hebreak]

/-- Outside MISC-MEM and SYSTEM the rows that fix fields decide. -/
theorem matchingNames_of_fields {w : Word} {op : BitVec 7} {d : Except Illegal Instr} (hop : opcodeOf w = op)
    (hmisc : op ≠ 0b0001111#7) (hsys : op ≠ 0b1110011#7) (hd : decode w = d)
    (hnames : fieldNames op (funct3Of w) (funct7Of w) = decodedNames d) : matchingNames w = decodedNames (decode w) := by
  rw [matchingNames_eq, wordNames_nil (hop ▸ hmisc) (hop ▸ hsys), List.append_nil, hop, hnames, hd]

/-- Settles O3, opcode by opcode: the rows are sorted by the fields they fix, and only in MISC-MEM and SYSTEM there are rows
that fix the whole word. -/
theorem decodeAgreesWithTheTable : Obligations.DecodeAgreesWithTheTable := by
  intro w
  change matchingNames w = decodedNames (decode w)
  obtain hop | hop | hop | hop | hop | hop | hop | hop | hop | hop | hop | hop := majorOpcode_cases (opcodeOf w)
  · exact matchingNames_of_fields hop (by decide) (by decide) (decode_lui hop) rfl
  · exact matchingNames_of_fields hop (by decide) (by decide) (decode_auipc hop) rfl
  · exact matchingNames_of_fields hop (by decide) (by decide) (decode_jal hop) rfl
  · exact matchingNames_of_fields hop (by decide) (by decide) (decode_jalr hop) (decodedNames_jalr w)
  · exact matchingNames_of_fields hop (by decide) (by decide) (decode_branch hop) (decodedNames_branch w)
  · exact matchingNames_of_fields hop (by decide) (by decide) (decode_load hop) (decodedNames_load w)
  · exact matchingNames_of_fields hop (by decide) (by decide) (decode_store hop) (decodedNames_store w)
  · exact matchingNames_of_fields hop (by decide) (by decide) (decode_opImm hop) (decodedNames_opImm w)
  · exact matchingNames_of_fields hop (by decide) (by decide) (decode_op hop) (decodedNames_op w)
  · rw [matchingNames_eq, hop, decode_miscMem hop, decodedNames_miscMem hop]
  · rw [matchingNames_eq, hop, decode_system hop, decodedNames_system hop]
  · refine matchingNames_of_fields rfl ?_ ?_ (decode_other hop) (fieldNames_nil hop _ _) <;>
      exact fun h => hop (h ▸ by decide)

/-! ### Legal words by fields -/

/-- The decoder's outcome is an instruction. -/
def IsLegal (d : Except Illegal Instr) : Prop := ∃ i, d = .ok i

theorem isLegal_ok (i : Instr) : IsLegal (.ok i) := ⟨i, rfl⟩

theorem not_isLegal_error (e : Illegal) : ¬ IsLegal (.error e) := by
  rintro ⟨i, h⟩
  cases h

theorem isLegal_decodeJalr_iff (w : Word) : IsLegal (decodeJalr w) ↔ funct3Of w = 0b000#3 := by
  obtain h | h | h | h | h | h | h | h := funct3_cases (funct3Of w) <;> simp [decodeJalr, h, isLegal_ok, not_isLegal_error]

theorem isLegal_decodeBranch_iff (w : Word) : IsLegal (decodeBranch w) ↔ funct3Of w ∉ [0b010#3, 0b011#3] := by
  obtain h | h | h | h | h | h | h | h := funct3_cases (funct3Of w) <;> simp [decodeBranch, h, isLegal_ok, not_isLegal_error]

theorem isLegal_decodeLoad_iff (w : Word) : IsLegal (decodeLoad w) ↔ funct3Of w ∉ [0b011#3, 0b110#3, 0b111#3] := by
  obtain h | h | h | h | h | h | h | h := funct3_cases (funct3Of w) <;> simp [decodeLoad, h, isLegal_ok, not_isLegal_error]

theorem isLegal_decodeStore_iff (w : Word) : IsLegal (decodeStore w) ↔ funct3Of w ∈ [0b000#3, 0b001#3, 0b010#3] := by
  obtain h | h | h | h | h | h | h | h := funct3_cases (funct3Of w) <;> simp [decodeStore, h, isLegal_ok, not_isLegal_error]

theorem isLegal_decodeOpImm_iff (w : Word) : IsLegal (decodeOpImm w) ↔
    (funct3Of w = 0b001#3 → funct7Of w = 0b0000000#7) ∧ (funct3Of w = 0b101#3 → funct7Of w ∈ [0b0000000#7, 0b0100000#7]) := by
  obtain h | h | h | h | h | h | h | h := funct3_cases (funct3Of w)
  case inr.inl | inr.inr.inr.inr.inr.inl =>
    obtain h7 | h7 | ⟨hlow, hhigh⟩ := funct7_cases (funct7Of w)
    · simp [decodeOpImm, h, h7, isLegal_ok]
    · simp [decodeOpImm, h, h7, isLegal_ok, not_isLegal_error]
    · simp [decodeOpImm, h, hlow, hhigh, not_isLegal_error]
  all_goals simp [decodeOpImm, h, isLegal_ok]

theorem isLegal_decodeOp_iff (w : Word) : IsLegal (decodeOp w) ↔
    funct7Of w = 0b0000000#7 ∨ (funct7Of w = 0b0100000#7 ∧ funct3Of w ∈ [0b000#3, 0b101#3]) := by
  obtain h7 | h7 | ⟨hlow, hhigh⟩ := funct7_cases (funct7Of w)
  case inr.inr => simp [decodeOp, hlow, hhigh, not_isLegal_error]
  all_goals
    obtain h | h | h | h | h | h | h | h := funct3_cases (funct3Of w) <;>
      simp [decodeOp, h7, h, isLegal_ok, not_isLegal_error]

theorem isLegal_decodeMiscMem_iff (w : Word) : IsLegal (decodeMiscMem w) ↔ funct3Of w = 0b000#3 := by
  unfold decodeMiscMem
  split
  case h_1 h =>
    rw [iff_true_right h]
    split
    · exact isLegal_ok _
    split <;> exact isLegal_ok _
  case h_2 h => exact iff_of_false (not_isLegal_error _) h

theorem isLegal_decodeSystem_iff (w : Word) : IsLegal (decodeSystem w) ↔ w = 0x00000073#32 ∨ w = 0x00100073#32 := by
  unfold decodeSystem
  split
  · simp [isLegal_ok, *]
  split <;> simp [isLegal_ok, not_isLegal_error, *]

/-- Settles O4, opcode by opcode; the two SYSTEM words have that opcode, so they are no words of another. -/
theorem legalWordsByFields : Obligations.LegalWordsByFields := by
  intro w
  change IsLegal (decode w) ↔ _
  have hsystem : w = 0x00000073#32 ∨ w = 0x00100073#32 → opcodeOf w = 0b1110011#7 := by rintro (rfl | rfl) <;> rfl
  obtain hop | hop | hop | hop | hop | hop | hop | hop | hop | hop | hop | hop := majorOpcode_cases (opcodeOf w)
  case inr.inr.inr.inr.inr.inr.inr.inr.inr.inr.inl =>
    rw [decode_system hop, isLegal_decodeSystem_iff]
    simp [hop]
  case inr.inr.inr.inr.inr.inr.inr.inr.inr.inr.inr =>
    obtain ⟨hecall, hebreak⟩ : w ≠ 0x00000073#32 ∧ w ≠ 0x00100073#32 := by
      rw [← not_or]
      exact fun h => hop (hsystem h ▸ by decide)
    rw [decode_other hop]
    simp only [majorOpcodes, List.mem_cons, List.not_mem_nil, or_false, not_or] at hop
    simp [not_isLegal_error, hop, hecall, hebreak]
  all_goals
    obtain ⟨hecall, hebreak⟩ : w ≠ 0x00000073#32 ∧ w ≠ 0x00100073#32 := by
      rw [← not_or]
      exact fun h => absurd (hop.symm.trans (hsystem h)) (by decide)
  · simp [decode_lui hop, hop, isLegal_ok]
  · simp [decode_auipc hop, hop, isLegal_ok]
  · simp [decode_jal hop, hop, isLegal_ok]
  · simp [decode_jalr hop, hop, isLegal_decodeJalr_iff, hecall, hebreak]
  · simp [decode_branch hop, hop, isLegal_decodeBranch_iff, hecall, hebreak]
  · simp [decode_load hop, hop, isLegal_decodeLoad_iff, hecall, hebreak]
  · simp [decode_store hop, hop, isLegal_decodeStore_iff, hecall, hebreak]
  · simp [decode_opImm hop, hop, isLegal_decodeOpImm_iff, hecall, hebreak]
  · simp [decode_op hop, hop, isLegal_decodeOp_iff, hecall, hebreak]
  · simp [decode_miscMem hop, hop, isLegal_decodeMiscMem_iff, hecall, hebreak]

/-- Settles O6: the decoder evaluated on the nine words. -/
theorem sampleWordsDecode : Obligations.SampleWordsDecode :=
  ⟨rfl, rfl, rfl, rfl, rfl, rfl, rfl, rfl, rfl⟩

end Sys2Proof
end

section
/-!
What an execution can do, once for all instructions: it completes in a state or raises an exception (R13, R141, R181, R213).
From it follow the statements over all instructions: what a handler sees (R314), the exception table (R304), the invariant
(R29, R74), the record of a run, the frame (R35) and what an instruction depends on.
-/
namespace Sys2Proof.Machine

/-! ### The meaning of an instruction, its operands read -/

/-- An instruction with its operands read: what is left depends on no register. -/
inductive Meaning where
  | compute (rd : RegNum) (v : Word)
  | jump (rd : RegNum) (t : Word)
  | branch (cond : Bool) (t : Word)
  | load (n : Width) (ext : Word → Word) (rd : RegNum) (a : Word)
  | store (n : Width) (a v : Word)
  | advance
  | raise (e : Exception)

/-- What an instruction does before anything is raised: the state it completes in, or the exception. -/
def Meaning.attempt (m : Meaning) (s : State) : Except Exception State :=
  match m with
  | .compute rd v => .ok (s.result rd v)
  | .jump rd t =>
    if fourByteAligned t then .ok ((s.writeReg rd (s.pc + 4#32)).setPc t) else .error (.instructionAddressMisaligned t)
  | .branch cond t =>
    if cond then (if fourByteAligned t then .ok (s.setPc t) else .error (.instructionAddressMisaligned t)) else .ok s.advance
  | .load n ext rd a => (s.memRead a n).map (fun p => p.2.result rd (ext p.1))
  | .store n a v => (s.memWrite a n v).map State.advance
  | .advance => .ok s.advance
  | .raise e => .error e

/-- The register a meaning writes. -/
def Meaning.dest (m : Meaning) : Option RegNum :=
  match m with
  | .compute rd _ | .jump rd _ | .load _ _ rd _ => some rd
  | .branch _ _ | .store _ _ _ | .advance | .raise _ => none

/-- The outcome of an attempt: the next state, or the exception raised. -/
def State.conclude (s : State) (x : Except Exception State) : StepOutcome :=
  match x with
  | .ok t => .next t
  | .error e => s.raise e

@[simp] theorem conclude_ok (s t : State) : s.conclude (.ok t) = .next t := rfl
@[simp] theorem conclude_error (s : State) (e : Exception) : s.conclude (.error e) = s.raise e := rfl

theorem compute_eq_conclude (s : State) (rd : RegNum) (v : Word) :
    s.compute rd v = s.conclude ((Meaning.compute rd v).attempt s) := rfl

theorem jump_eq_conclude (s : State) (rd : RegNum) (t : Word) :
    s.jump rd t = s.conclude ((Meaning.jump rd t).attempt s) := by
  simp only [State.jump, Meaning.attempt]
  split <;> rfl

theorem branch_eq_conclude (s : State) (cond : Bool) (t : Word) :
    s.branch cond t = s.conclude ((Meaning.branch cond t).attempt s) := by
  simp only [State.branch, Meaning.attempt]
  split
  · split <;> rfl
  · rfl

theorem load_eq_conclude (s : State) (n : Width) (ext : Word → Word) (rd : RegNum) (a : Word) :
    s.load n ext rd a = s.conclude ((Meaning.load n ext rd a).attempt s) := by
  simp only [State.load, Meaning.attempt]
  cases s.memRead a n <;> rfl

theorem store_eq_conclude (s : State) (n : Width) (a v : Word) :
    s.store n a v = s.conclude ((Meaning.store n a v).attempt s) := by
  simp only [State.store, Meaning.attempt]
  cases s.memWrite a n v <;> rfl

/-- `m` is the meaning of `i` in `s`: what `exec` does there is what `m` attempts. -/
def Meaning.Of (m : Meaning) (i : Instr) (s : State) : Prop := m.dest = destReg i ∧ exec i s = s.conclude (m.attempt s)

/-- Two states with one pc that agree on the sources of an instruction give it one meaning (R35). -/
theorem exists_meaning {i : Instr} {s u : State} (hpc : u.pc = s.pc)
    (hsrc : ∀ r, r ∈ sourceRegs i → u.readReg r = s.readReg r) : ∃ m : Meaning, m.Of i s ∧ m.Of i u := by
  cases i with
  | lui | auipc | addi | slti | sltiu | xori | ori | andi | slli | srli | srai
  | add | sub | sll | slt | sltu | xor | srl | sra | or | and =>
    refine ⟨.compute _ _, ⟨rfl, rfl⟩, rfl, ?_⟩
    simp [sourceRegs] at hsrc
    simp [exec, execLui, execAuipc, execAddi, execSlti, execSltiu, execXori, execOri, execAndi, execSlli, execSrli, execSrai,
      execAdd, execSub, execSll, execSlt, execSltu, execXor, execSrl, execSra, execOr, execAnd, hsrc, hpc, compute_eq_conclude]
  | jal | jalr =>
    refine ⟨.jump _ _, ⟨rfl, jump_eq_conclude _ _ _⟩, rfl, ?_⟩
    simp [sourceRegs] at hsrc
    simp [exec, execJal, execJalr, State.jalTarget, State.jalrTarget, hpc, hsrc, jump_eq_conclude]
  | beq | bne | blt | bge | bltu | bgeu =>
    refine ⟨.branch _ _, ⟨rfl, branch_eq_conclude _ _ _⟩, rfl, ?_⟩
    simp [sourceRegs] at hsrc
    simp [exec, execBeq, execBne, execBlt, execBge, execBltu, execBgeu, State.branchTarget, hpc, hsrc, branch_eq_conclude]
  | lb | lh | lw | lbu | lhu =>
    refine ⟨.load _ _ _ _, ⟨rfl, load_eq_conclude _ _ _ _ _⟩, rfl, ?_⟩
    simp [sourceRegs] at hsrc
    simp [exec, execLb, execLh, execLw, execLbu, execLhu, State.effAddr, hsrc, load_eq_conclude]
  | sb | sh | sw =>
    refine ⟨.store _ _ _, ⟨rfl, store_eq_conclude _ _ _ _⟩, rfl, ?_⟩
    simp [sourceRegs] at hsrc
    simp [exec, execSb, execSh, execSw, State.effAddr, hsrc, store_eq_conclude]
  | fence | fenceTso | pause => exact ⟨.advance, ⟨rfl, rfl⟩, rfl, rfl⟩
  | ecall => exact ⟨.raise _, ⟨rfl, rfl⟩, rfl, rfl⟩
  | ebreak =>
    refine ⟨.raise _, ⟨rfl, rfl⟩, rfl, ?_⟩
    simp [exec, execEbreak, hpc, Meaning.attempt]

end Sys2Proof.Machine
end

section
/-!
The machine as a whole: what a handler sees (R314), the invariant (R29, R74) and the record of a run (R20, R58, R74).
-/
namespace Sys2Proof.Machine

/-! ### What an attempt can do -/

/-- `s` with `d` more draws and the events `evs`: all that recording an access can change. -/
def State.withRecord (s : State) (d : Nat) (evs : List DeviceEvent) : State :=
  { s with draws := s.draws + d, events := s.events ++ evs }

theorem withRecord_nil (s : State) : s.withRecord 0 [] = s := by simp [State.withRecord]

/-- How many values an access draws. -/
def State.newDraws (s : State) (a : Word) (n : Width) : Nat := if s.touchesDevice a n then n.bytes else 0

/-- The events an access leaves. -/
def State.newEvents (s : State) (kind : AccessKind) (a : Word) (n : Width) (bytes : List Byte) : List DeviceEvent :=
  if s.touchesDevice a n then s.accessEvents kind a n bytes else []

/-- Recording an access, with nothing of the state in it but its map and its draws. -/
theorem observe_eq (s : State) (kind : AccessKind) (a : Word) (n : Width) (bytes : List Byte) :
    s.observe kind a n bytes = s.withRecord (s.newDraws a n) (s.newEvents kind a n bytes) := by
  unfold State.observe State.newDraws State.newEvents
  split
  · rfl
  · exact (withRecord_nil s).symm

/-- An instruction that completes writes its destination, or x0 where it has none, and goes on at `pc + 4` or at a multiple of
4; or it stores bytes and goes on at `pc + 4`. Besides it may record accesses. -/
theorem attempt_ok_cases {m : Meaning} {s t : State} (h : m.attempt s = .ok t) :
    (∃ d evs rd v pc', (m.dest = some rd ∨ rd = 0#5) ∧ (pc' = s.pc + 4#32 ∨ pc'.toNat % 4 = 0) ∧
      t = ((s.withRecord d evs).writeReg rd v).setPc pc') ∨
    ∃ d evs a bytes, t = ((s.putBytes a bytes).withRecord d evs).advance := by
  have of_setPc {pc' : Word} (hpc : pc' = s.pc + 4#32 ∨ pc'.toNat % 4 = 0) (ht : s.setPc pc' = t) :
      ∃ d evs rd v pc', (m.dest = some rd ∨ rd = 0#5) ∧ (pc' = s.pc + 4#32 ∨ pc'.toNat % 4 = 0) ∧
        t = ((s.withRecord d evs).writeReg rd v).setPc pc' :=
    ⟨0, [], 0#5, 0#32, pc', .inr rfl, hpc, by rw [withRecord_nil, writeReg_zero, ht]⟩
  cases m with
  | compute rd v =>
    cases h
    exact .inl ⟨0, [], rd, v, _, .inl rfl, .inl rfl, by rw [withRecord_nil]; rfl⟩
  | jump rd target =>
    simp only [Meaning.attempt] at h
    split at h <;> cases h
    exact .inl ⟨0, [], rd, _, target, .inl rfl, .inr (fourByteAligned_iff.mp ‹_›), by rw [withRecord_nil]⟩
  | branch cond target =>
    simp only [Meaning.attempt] at h
    split at h
    · split at h <;> cases h
      exact .inl (of_setPc (.inr (fourByteAligned_iff.mp ‹_›)) rfl)
    · cases h
      exact .inl (of_setPc (.inl rfl) rfl)
  | load n ext rd a =>
    simp only [Meaning.attempt, State.memRead] at h
    split at h <;> cases h
    exact .inl ⟨_, _, rd, _, _, .inl rfl, .inl rfl, by rw [observe_eq]; rfl⟩
  | store n a v =>
    simp only [Meaning.attempt, State.memWrite] at h
    split at h <;> cases h
    exact .inr ⟨_, _, a, leBytes v n.bytes, by rw [observe_eq]⟩
  | advance =>
    cases h
    exact .inl (of_setPc (.inl rfl) rfl)
  | raise e => cases h

theorem attempt_ok_eei {m : Meaning} {s t : State} (h : m.attempt s = .ok t) : t.eei = s.eei := by
  obtain ⟨d, evs, rd, v, pc', -, -, rfl⟩ | ⟨d, evs, a, bytes, rfl⟩ := attempt_ok_cases h <;> rfl

/-- `ON_TRAP` plays no part in an attempt. -/
theorem attempt_withOnTrap (m : Meaning) (s : State) (o : OnTrap) :
    m.attempt (s.withOnTrap o) = (m.attempt s).map (fun t => t.withOnTrap o) := by
  have hcheck (kind : AccessKind) (a : Word) (n : Width) : (s.withOnTrap o).checkAccess kind a n = s.checkAccess kind a n := rfl
  cases m with
  | compute | advance | raise => rfl
  | jump rd t =>
    simp only [Meaning.attempt]
    split <;> rfl
  | branch cond t =>
    simp only [Meaning.attempt]
    split
    · split <;> rfl
    · rfl
  | load n ext rd a =>
    simp only [Meaning.attempt, State.memRead, hcheck]
    cases s.checkAccess .load a n with
    | some e => rfl
    | none =>
      simp only [observe_eq]
      rfl
  | store n a v =>
    simp only [Meaning.attempt, State.memWrite, hcheck]
    cases s.checkAccess .store a n with
    | some e => rfl
    | none =>
      simp only [observe_eq]
      rfl

/-! ### What an execution can do -/

theorem conclude_next {s t : State} {x : Except Exception State} (h : s.conclude x = .next t) :
    x = .ok t ∨ s.eei.onTrap = .handler ∧ ∃ r, t = s.resume r := by
  cases x with
  | ok u =>
    cases h
    exact .inl rfl
  | error e => exact .inr ((raise_next h).imp_right fun ht => ⟨_, ht⟩)

theorem conclude_ne_refused (s : State) (x : Except Exception State) (r : Refusal) : s.conclude x ≠ .refused r := by
  cases x with
  | ok t => simp
  | error e => exact raise_ne_refused s e r

theorem exec_meaning (i : Instr) (s : State) : ∃ m : Meaning, m.Of i s :=
  (exists_meaning (i := i) (s := s) rfl fun _ _ => rfl).imp fun _ h => h.1

theorem exec_ne_refused (i : Instr) (s : State) (r : Refusal) : exec i s ≠ .refused r := by
  obtain ⟨m, -, hexec⟩ := exec_meaning i s
  exact hexec ▸ conclude_ne_refused s _ r

/-- An execution that goes on completed, or its trap was handled. -/
theorem exec_next {i : Instr} {s t : State} (h : exec i s = .next t) :
    (∃ m : Meaning, m.Of i s ∧ m.attempt s = .ok t) ∨ s.eei.onTrap = .handler ∧ ∃ r, t = s.resume r := by
  obtain ⟨m, hm⟩ := exec_meaning i s
  exact (conclude_next (hm.2.symm.trans h)).imp_left fun hok => ⟨m, hm, hok⟩

/-! ### Handlers (R314) -/

/-- The free handler is one handler among others: an execution under it is the execution of the model. -/
theorem exec_eq_execUnder (i : Instr) (s : State) : exec i s = execUnder State.resume i s := by
  obtain ⟨m, ⟨-, hs⟩, -, hfatal⟩ := exists_meaning (i := i) (s := s) (u := s.withOnTrap .fatal) rfl fun _ _ => rfl
  rw [attempt_withOnTrap] at hfatal
  cases hm : m.attempt s with
  | ok t =>
    rw [hm] at hs hfatal
    rw [hs, execUnder_next hfatal, withOnTrap_withOnTrap, ← attempt_ok_eei hm, withOnTrap_self, conclude_ok]
  | error e =>
    rw [hm] at hs hfatal
    rw [hs, execUnder_trap (hfatal.trans (raise_fatal rfl e))]
    rfl

theorem step_eq_stepUnder (s : State) : step s = stepUnder State.resume s := by
  unfold step stepUnder
  simp only [exec_eq_execUnder]
  rfl

theorem afterFetch_refused {s : State} (hf : s.fetch = .refused) : s.afterFetch = s := by
  simp [State.afterFetch, hf]

/-- The fetch changes the record alone (R77). -/
theorem fetch_word_eq_withRecord {s s' : State} {w : Word} (hf : s.fetch = .word w s') : ∃ d evs, s' = s.withRecord d evs := by
  obtain ⟨-, h⟩ | ⟨-, -, h⟩ | ⟨-, -, -, h⟩ | ⟨-, -, -, _, h⟩ := fetch_cases s <;> cases h.symm.trans hf
  exact ⟨_, _, observe_eq _ _ _ _ _⟩

theorem fetch_word_onTrap {s s' : State} {w : Word} (hf : s.fetch = .word w s') : s'.eei.onTrap = s.eei.onTrap := by
  obtain ⟨d, evs, rfl⟩ := fetch_word_eq_withRecord hf
  rfl

theorem afterFetch_frame (s : State) :
    s.afterFetch = { s with draws := s.afterFetch.draws, events := s.afterFetch.events } := by
  cases hf : s.fetch with
  | word w s' =>
    rw [afterFetch_word hf]
    obtain ⟨d, evs, rfl⟩ := fetch_word_eq_withRecord hf
    rfl
  | raised e => rw [afterFetch_raised hf]
  | refused => rw [afterFetch_refused hf]

theorem afterFetch_of_ordinary_or_denied {s : State} (h : s.ordinary s.pc .word ∨ ¬ s.fetchAllowed) : s.afterFetch = s := by
  obtain ⟨-, hf⟩ | ⟨-, -, hf⟩ | ⟨-, -, -, hf⟩ | ⟨-, hp, -, w, hf⟩ := fetch_cases s
  · exact afterFetch_raised hf
  · exact afterFetch_raised hf
  · exact afterFetch_refused hf
  · rw [afterFetch_word hf, observe_ordinary (h.resolve_right fun hn => hn hp)]

/-- What a handler `h` makes of an outcome under a fatal `ON_TRAP`, where the trap is raised in `u`. -/
def handledOutcome (h : Handler) (u : State) (x : StepOutcome) : StepOutcome :=
  match x with
  | .next t => .next (t.withOnTrap .handler)
  | .fault (.trap r) => .next (h (u.withOnTrap .handler) r)
  | .refused r => .refused r

theorem execUnder_handler (h : Handler) (i : Instr) {s : State} (hs : s.eei.onTrap = .fatal) :
    execUnder h i (s.withOnTrap .handler) = handledOutcome h s (exec i s) := by
  have hfatal : (s.withOnTrap .handler).withOnTrap .fatal = s := by rw [withOnTrap_withOnTrap, ← hs, withOnTrap_self]
  cases he : exec i s with
  | next t => exact execUnder_next (hfatal ▸ he)
  | fault f =>
    obtain ⟨r⟩ := f
    exact (execUnder_trap (hfatal ▸ he)).trans (handOver_handler rfl h r)
  | refused r => exact absurd he (exec_ne_refused i s r)

theorem stepUnder_handler (h : Handler) {s : State} (hs : s.eei.onTrap = .fatal) :
    stepUnder h (s.withOnTrap .handler) = handledOutcome h s.afterFetch (step s) := by
  have hfetch := fetch_withOnTrap s .handler
  cases hf : s.fetch with
  | raised e =>
    rw [hf] at hfetch
    rw [stepUnder_raised hfetch, handOver_handler rfl, step_raised hf, raise_fatal hs, afterFetch_raised hf]
    rfl
  | refused =>
    rw [hf] at hfetch
    rw [stepUnder_refused hfetch, step_refused hf]
    rfl
  | word w s' =>
    rw [hf] at hfetch
    have hs' := (fetch_word_onTrap hf).trans hs
    rw [afterFetch_word hf]
    cases hd : decode w with
    | error e =>
      rw [stepUnder_illegal hfetch hd, handOver_handler rfl, step_illegal hf hd, raise_fatal hs']
      rfl
    | ok i => rw [stepUnder_word hfetch hd, step_word hf hd, execUnder_handler h i hs']

theorem stepUnder_fatal (h : Handler) {s : State} (hs : s.eei.onTrap = .fatal) : stepUnder h s = step s := by
  rw [step_eq_stepUnder]
  cases hf : s.fetch with
  | raised e => rw [stepUnder_raised hf, stepUnder_raised hf, handOver_fatal hs, handOver_fatal hs]
  | refused => rw [stepUnder_refused hf, stepUnder_refused hf]
  | word w s' =>
    have hs' := (fetch_word_onTrap hf).trans hs
    cases hd : decode w with
    | error e => rw [stepUnder_illegal hf hd, stepUnder_illegal hf hd, handOver_fatal hs', handOver_fatal hs']
    | ok i =>
      rw [stepUnder_word hf hd, stepUnder_word hf hd]
      simp only [execUnder, handOver_fatal hs']

theorem afterFetch_withOnTrap (s : State) (o : OnTrap) : (s.withOnTrap o).afterFetch = s.afterFetch.withOnTrap o := by
  have hfetch := fetch_withOnTrap s o
  cases hf : s.fetch with
  | word w s' => rw [hf] at hfetch; rw [afterFetch_word hfetch, afterFetch_word hf]
  | raised e => rw [hf] at hfetch; rw [afterFetch_raised hfetch, afterFetch_raised hf]
  | refused => rw [hf] at hfetch; rw [afterFetch_refused hfetch, afterFetch_refused hf]

/-- Settles O36: the free handler is one handler, a fatal `ON_TRAP` leaves no use for it, and a handler gets the trap in the
state after the fetch. -/
theorem handlerTakesEveryTrap : Obligations.HandlerTakesEveryTrap := by
  refine ⟨step_eq_stepUnder, exec_eq_execUnder, fun s => ⟨afterFetch_frame s, afterFetch_of_ordinary_or_denied⟩,
    fun h s hs => ⟨stepUnder_fatal h hs, ?step, fun i => ?exec⟩⟩
  case step =>
    have hspec := stepUnder_handler h hs
    rw [afterFetch_withOnTrap]
    cases hx : step s <;> exact hspec.trans (by rw [hx]; rfl)
  case exec =>
    have hspec := execUnder_handler h i hs
    cases hx : exec i s with
    | next t => exact hspec.trans (by rw [hx]; rfl)
    | fault f => exact hspec.trans (by rw [hx]; rfl)
    | refused r => exact exec_ne_refused i s r hx

end Sys2Proof.Machine
end

section
/-!
The invariant of the machine (R29, R74), the record of a run (R20, R58, R71, R74) and the memory behind it.
-/
namespace Sys2Proof.Machine

/-- A step that goes on, under any handler: the handler took a trap in the state after the fetch, or an attempt completed
there. -/
theorem stepUnder_next {h : Handler} {s t : State} (hn : stepUnder h s = .next t) :
    (s.eei.onTrap = .handler ∧ ∃ d evs r, t = h (s.withRecord d evs) r) ∨
    ∃ d evs, ∃ m : Meaning, m.attempt (s.withRecord d evs) = .ok t := by
  cases hf : s.fetch with
  | refused => cases (stepUnder_refused hf).symm.trans hn
  | raised e =>
    obtain ⟨hs, rfl⟩ := handOver_next ((stepUnder_raised hf).symm.trans hn)
    exact .inl ⟨hs, 0, [], _, by rw [withRecord_nil]⟩
  | word w s' =>
    obtain ⟨d, evs, rfl⟩ := fetch_word_eq_withRecord hf
    cases hd : decode w with
    | error e =>
      obtain ⟨hs, rfl⟩ := handOver_next ((stepUnder_illegal hf hd).symm.trans hn)
      exact .inl ⟨hs, d, evs, _, rfl⟩
    | ok i =>
      rw [stepUnder_word hf hd] at hn
      cases he : exec i ((s.withRecord d evs).withOnTrap .fatal) with
      | refused r => exact absurd he (exec_ne_refused _ _ _)
      | fault f =>
        obtain ⟨r⟩ := f
        obtain ⟨hs, rfl⟩ := handOver_next ((execUnder_trap he).symm.trans hn)
        exact .inl ⟨hs, d, evs, r, rfl⟩
      | next u =>
        obtain ⟨m, -, hm⟩ | ⟨hfatal, -⟩ := exec_next he
        · cases (execUnder_next he).symm.trans hn
          rw [attempt_withOnTrap] at hm
          cases hm' : m.attempt (s.withRecord d evs) with
          | error e => cases hm' ▸ hm
          | ok v =>
            rw [hm'] at hm
            cases hm
            refine .inr ⟨d, evs, m, ?_⟩
            rw [hm', withOnTrap_withOnTrap, ← attempt_ok_eei hm', withOnTrap_self]
        · cases hfatal

theorem step_next {s t : State} (hn : step s = .next t) :
    (s.eei.onTrap = .handler ∧ ∃ d evs r, t = (s.withRecord d evs).resume r) ∨
    ∃ d evs, ∃ m : Meaning, m.attempt (s.withRecord d evs) = .ok t :=
  stepUnder_next ((step_eq_stepUnder s).symm.trans hn)

/-! ### The invariant -/

theorem wf_withRecord {s : State} (h : s.wf) (d : Nat) (evs : List DeviceEvent) : (s.withRecord d evs).wf := h

theorem add_four_aligned {a : Word} (h : a.toNat % 4 = 0) : (a + 4#32).toNat % 4 = 0 := by
  rw [BitVec.toNat_add, BitVec.toNat_ofNat]
  omega

theorem wf_setPc {s : State} (h : s.wf) {pc' : Word} (hpc : pc'.toNat % 4 = 0) : (s.setPc pc').wf := by
  obtain ⟨hmem, -, hwritten⟩ := h
  exact ⟨hmem, hpc, hwritten⟩

theorem wf_writeReg {s : State} (h : s.wf) (rd : RegNum) (v : Word) : (s.writeReg rd v).wf := h

theorem wf_advance {s : State} (h : s.wf) : s.advance.wf := wf_setPc h (add_four_aligned h.2.1)

theorem wf_putBytes {s : State} (h : s.wf) (a : Word) (bytes : List Byte) : (s.putBytes a bytes).wf := by
  obtain ⟨hmem, hpc, hsorted, hbound⟩ := h
  refine ⟨Memory.writeBytes_wf a bytes hmem, hpc, insertAddrs_sorted _ hsorted, fun b hb => ?_⟩
  obtain hnew | hold := mem_insertAddrs.mp hb
  · obtain ⟨i, -, rfl⟩ := mem_byteAddrs.mp hnew
    exact byteAddr_lt a i
  · exact hbound b hold

/-- The free handler answers a pc that is a multiple of 4 and writes memory byte by byte; the stored-to set stays. -/
theorem resume_keepsWf : Handler.KeepsWf State.resume := by
  rintro s r ⟨hmem, -, hwritten⟩
  exact ⟨Memory.writeEach_wf _ hmem, resume_pc_aligned s r, hwritten⟩

theorem attempt_wf {m : Meaning} {s t : State} (h : m.attempt s = .ok t) (hs : s.wf) : t.wf := by
  obtain ⟨d, evs, rd, v, pc', -, hpc, rfl⟩ | ⟨d, evs, a, bytes, rfl⟩ := attempt_ok_cases h
  · refine wf_setPc (wf_writeReg (wf_withRecord hs d evs) rd v) ?_
    obtain rfl | hpc := hpc
    · exact add_four_aligned hs.2.1
    · exact hpc
  · exact wf_advance (wf_withRecord (wf_putBytes hs a bytes) d evs)

theorem stepUnder_keeps_wf {h : Handler} (hh : h.KeepsWf) {s t : State} (hs : s.wf) (hn : stepUnder h s = .next t) : t.wf := by
  obtain ⟨-, d, evs, r, rfl⟩ | ⟨d, evs, m, hm⟩ := stepUnder_next hn
  · exact hh _ r (wf_withRecord hs d evs)
  · exact attempt_wf hm (wf_withRecord hs d evs)

/-- Settles O44: a step is one under the free handler, which keeps the invariant. -/
theorem stepKeepsTheInvariant : Obligations.StepKeepsTheInvariant :=
  fun s _ hs hn => stepUnder_keeps_wf resume_keepsWf hs ((step_eq_stepUnder s).symm.trans hn)

theorem boot_wf {p : ResetParams} (h : paramsOk p) : (State.boot p).wf := by
  obtain ⟨hmem, hpc⟩ := h
  exact ⟨hmem, hpc, List.Pairwise.nil, by simp⟩

/-- Settles O45: reset stores to no address, and takes memory and pc from its parameters. -/
theorem resetMeetsTheInvariant : Obligations.ResetMeetsTheInvariant :=
  ⟨boot_wf ⟨Memory.wf_nil, by decide⟩, fun _ => boot_wf⟩

theorem reachableUnder_wf {h : Handler} (hh : h.KeepsWf) {p : ResetParams} (hp : paramsOk p) {s : State}
    (hr : ReachableUnder h p s) : s.wf := by
  induction hr with
  | boot => exact boot_wf hp
  | step _ hn ih => exact stepUnder_keeps_wf hh ih hn

theorem reachable_wf {p : ResetParams} (hp : paramsOk p) {s : State} (hr : Reachable p s) : s.wf := by
  induction hr with
  | boot => exact boot_wf hp
  | step _ hn ih => exact stepKeepsTheInvariant _ _ ih hn

/-- Settles O46, by induction on the run. -/
theorem pcIsAlignedInEveryRun : Obligations.PcIsAlignedInEveryRun := by
  intro p s hp
  refine ⟨fun hr => ?_, fun h hh hr => ?_⟩
  · have hwf := reachable_wf hp hr
    exact ⟨hwf.2.1, hwf⟩
  · have hwf := reachableUnder_wf hh hp hr
    exact ⟨hwf.2.1, hwf⟩

/-! ### The record of a run -/

/-- `t` has the environment of `s` and a record that `s`'s is the beginning of. -/
def ExtendsRecord (s t : State) : Prop :=
  t.eei = s.eei ∧ (∀ a, a ∈ s.written → a ∈ t.written) ∧ s.draws ≤ t.draws ∧ s.events <+: t.events

theorem ExtendsRecord.trans {s t u : State} (h : ExtendsRecord s t) (h' : ExtendsRecord t u) : ExtendsRecord s u := by
  obtain ⟨heei, hwritten, hdraws, hevents⟩ := h
  obtain ⟨heei', hwritten', hdraws', hevents'⟩ := h'
  exact ⟨heei'.trans heei, fun a ha => hwritten' a (hwritten a ha), hdraws.trans hdraws', hevents.trans hevents'⟩

theorem extendsRecord_withRecord (s : State) (d : Nat) (evs : List DeviceEvent) : ExtendsRecord s (s.withRecord d evs) :=
  ⟨rfl, fun _ ha => ha, Nat.le_add_right _ _, List.prefix_append _ _⟩

theorem extendsRecord_resume (s : State) (r : TrapRecord) : ExtendsRecord s (s.resume r) :=
  ⟨rfl, fun _ ha => ha, Nat.le_succ _, List.prefix_refl _⟩

theorem attempt_extendsRecord {m : Meaning} {s t : State} (h : m.attempt s = .ok t) : ExtendsRecord s t := by
  obtain ⟨d, evs, rd, v, pc', -, -, rfl⟩ | ⟨d, evs, a, bytes, rfl⟩ := attempt_ok_cases h
  · exact extendsRecord_withRecord s d evs
  · exact ⟨rfl, fun b hb => mem_insertAddrs.mpr (.inr hb), Nat.le_add_right _ _, List.prefix_append _ _⟩

/-- Settles O47: the fetch, the execution and the free handler each only add to the record. -/
theorem stepOnlyAddsToTheRecord : Obligations.StepOnlyAddsToTheRecord := by
  intro s t hn
  obtain ⟨-, d, evs, r, rfl⟩ | ⟨d, evs, m, hm⟩ := step_next hn
  · exact (extendsRecord_withRecord s d evs).trans (extendsRecord_resume _ r)
  · exact (extendsRecord_withRecord s d evs).trans (attempt_extendsRecord hm)

theorem attempt_mem_unwritten {m : Meaning} {s t : State} (h : m.attempt s = .ok t) (hs : Memory.wf s.mem) {a : Nat}
    (ha : a ∉ t.written) : Memory.read t.mem a = Memory.read s.mem a := by
  obtain ⟨d, evs, rd, v, pc', -, -, rfl⟩ | ⟨d, evs, b, bytes, rfl⟩ := attempt_ok_cases h
  · rfl
  · refine Memory.read_writeBytes_of_not_mem hs b bytes a fun i hi hia => ha ?_
    exact mem_insertAddrs.mpr (.inl (mem_byteAddrs.mpr ⟨i, hi, hia⟩))

/-- Settles O48: under a fatal `ON_TRAP` only a store changes memory, and it lists the addresses it writes. -/
theorem memoryChangesOnlyWhereStoredTo : Obligations.MemoryChangesOnlyWhereStoredTo := by
  intro s t hs hfatal hn a ha
  obtain ⟨hhandler, -⟩ | ⟨d, evs, m, hm⟩ := step_next hn
  · cases hfatal.symm.trans hhandler
  · exact attempt_mem_unwritten hm hs.1 ha

end Sys2Proof.Machine
end

section
/-!
Exceptions of an executing instruction (60_exceptions.md): where each one traps, with which record (R300, R304, R311).
-/
namespace Sys2Proof.Machine

theorem trapRecord_misaligned (kind : AccessKind) (a pc : Word) :
    trapRecord (misalignedException kind a) pc = ⟨misalignedName kind, pc, a⟩ := by
  cases kind <;> rfl

theorem trapRecord_accessFault (kind : AccessKind) (a pc : Word) :
    trapRecord (accessFaultException kind a) pc = ⟨accessFaultName kind, pc, a⟩ := by
  cases kind <;> rfl

theorem raise_eq_fault_iff {s : State} (hs : s.eei.onTrap = .fatal) {e : Exception} {r : TrapRecord} :
    s.raise e = .fault (.trap r) ↔ r = trapRecord e s.pc := by
  rw [raise_fatal hs]
  simp [eq_comm]

/-- The cases of the table an instruction without an access can meet. -/
theorem mayRaise_iff_of_no_access {i : Instr} {s : State} {r : TrapRecord} (ha : accessOf i s = none) (hecall : i ≠ .ecall)
    (hebreak : i ≠ .ebreak) : MayRaise i s r ↔ ∃ t, targetOf i s = some t ∧ (isJump i || branchTaken i s) = true ∧
      t.toNat % 4 ≠ 0 ∧ r = ⟨.instructionAddressMisaligned, s.pc, t⟩ := by
  simp [MayRaise, ha, hecall, hebreak]

/-- The cases of the table a load or store can meet: those of the checks of its access. -/
theorem mayRaise_iff_of_access {i : Instr} {s : State} {r : TrapRecord} {kind : AccessKind} {a : Word} {n : Width}
    (ha : accessOf i s = some (kind, a, n)) (ht : targetOf i s = none) :
    MayRaise i s r ↔ ∃ e, s.checkAccess kind a n = some e ∧ r = trapRecord e s.pc := by
  have hecall : i ≠ .ecall := by
    rintro rfl
    cases ha
  have hebreak : i ≠ .ebreak := by
    rintro rfl
    cases ha
  constructor
  · rintro (⟨t, hsome, -⟩ | ⟨kind', a', n', hacc, hmis, hpol, rfl⟩ | ⟨kind', a', n', hacc, hok, ⟨k, hk, hdenied⟩, rfl⟩ |
      ⟨rfl, -⟩ | ⟨rfl, -⟩)
    · cases ht.symm.trans hsome
    · cases ha.symm.trans hacc
      exact ⟨_, checkAccess_misaligned hmis hpol, (trapRecord_misaligned _ _ _).symm⟩
    · cases ha.symm.trans hacc
      exact ⟨_, checkAccess_denied hok hk hdenied, (trapRecord_accessFault _ _ _).symm⟩
    · exact absurd rfl hecall
    · exact absurd rfl hebreak
  · rintro ⟨e, he, rfl⟩
    obtain ⟨hmis, hpol, rfl⟩ | ⟨hok, hdenied, rfl⟩ := checkAccess_some he
    · exact .inr (.inl ⟨kind, a, n, ha, hmis, hpol, trapRecord_misaligned _ _ _⟩)
    · exact .inr (.inr (.inl ⟨kind, a, n, ha, hok, hdenied, trapRecord_accessFault _ _ _⟩))

section Fatal
variable {s : State} (hs : s.eei.onTrap = .fatal)
include hs

theorem jump_eq_fault_iff {rd : RegNum} {t : Word} {r : TrapRecord} :
    s.jump rd t = .fault (.trap r) ↔ t.toNat % 4 ≠ 0 ∧ r = ⟨.instructionAddressMisaligned, s.pc, t⟩ := by
  by_cases h : t.toNat % 4 = 0
  · simp [jump_aligned h, h]
  · rw [jump_misaligned h, raise_eq_fault_iff hs]
    exact (and_iff_right h).symm

theorem branch_eq_fault_iff {cond : Bool} {t : Word} {r : TrapRecord} : s.branch cond t = .fault (.trap r) ↔
    cond = true ∧ t.toNat % 4 ≠ 0 ∧ r = ⟨.instructionAddressMisaligned, s.pc, t⟩ := by
  cases cond with
  | false => simp [branch_not_taken]
  | true =>
    by_cases h : t.toNat % 4 = 0
    · simp [branch_aligned h, h]
    · rw [branch_misaligned h, raise_eq_fault_iff hs, and_iff_right rfl]
      exact (and_iff_right h).symm

theorem load_eq_fault_iff {n : Width} {ext : Word → Word} {rd : RegNum} {a : Word} {r : TrapRecord} :
    s.load n ext rd a = .fault (.trap r) ↔ ∃ e, s.checkAccess .load a n = some e ∧ r = trapRecord e s.pc := by
  obtain ⟨hok, hnext⟩ | ⟨e, he, hraise⟩ := load_cases s n ext rd a
  · simp [hnext, checkAccess_none_iff.mpr hok]
  · rw [hraise, raise_eq_fault_iff hs, he]
    simp

theorem store_eq_fault_iff {n : Width} {a v : Word} {r : TrapRecord} :
    s.store n a v = .fault (.trap r) ↔ ∃ e, s.checkAccess .store a n = some e ∧ r = trapRecord e s.pc := by
  obtain ⟨hok, hnext⟩ | ⟨e, he, hraise⟩ := store_cases s n a v
  · simp [hnext, checkAccess_none_iff.mpr hok]
  · rw [hraise, raise_eq_fault_iff hs, he]
    simp

end Fatal

/-- Settles O37, by the seven shapes of an instruction: each raises what its target, its access or its name lets it raise. -/
theorem trapsExactlyAsTabulated : Obligations.TrapsExactlyAsTabulated := by
  intro i s r hs
  have ne_system {i : Instr} {rd : RegNum} (hd : destReg i = some rd) : i ≠ .ecall ∧ i ≠ .ebreak := by
    constructor <;> rintro rfl <;> cases hd
  obtain ⟨rd, v, hd, ha, ht, hexec⟩ | ⟨rd, t, hd, ha, ht, hj, hexec⟩ | ⟨t, hd, ha, ht, hj, hexec⟩ |
    ⟨n, ext, rd, a, hd, ha, ht, hexec⟩ | ⟨n, a, v, hd, ha, ht, hexec⟩ | ⟨hd, ha, ht, hecall, hebreak, hexec⟩ |
    ⟨hd, ha, ht, ⟨rfl, hexec⟩ | ⟨rfl, hexec⟩⟩ := exec_cases i s
  · rw [hexec, mayRaise_iff_of_no_access ha (ne_system hd).1 (ne_system hd).2, ht]
    simp [State.compute]
  · rw [hexec, mayRaise_iff_of_no_access ha (ne_system hd).1 (ne_system hd).2, jump_eq_fault_iff hs, ht]
    simp [hj]
  · have hecall : i ≠ .ecall := by
      rintro rfl
      cases ht
    have hebreak : i ≠ .ebreak := by
      rintro rfl
      cases ht
    rw [hexec, mayRaise_iff_of_no_access ha hecall hebreak, branch_eq_fault_iff hs, ht]
    simp [hj]
  · rw [hexec, mayRaise_iff_of_access ha ht, load_eq_fault_iff hs]
  · rw [hexec, mayRaise_iff_of_access ha ht, store_eq_fault_iff hs]
  · rw [hexec, mayRaise_iff_of_no_access ha hecall hebreak, ht]
    simp
  · rw [hexec, raise_eq_fault_iff hs]
    simp [MayRaise, ha, ht, trapRecord, Exception.name, Exception.info]
  · rw [hexec, raise_eq_fault_iff hs]
    simp [MayRaise, ha, ht, trapRecord, Exception.name, Exception.info]

/-- Settles O20: the first case of the table (O37). -/
theorem misalignedTargetsTrap : Obligations.MisalignedTargetsTrap :=
  fun i s t hs ht htaken hmis => (trapsExactlyAsTabulated i s _ hs).mpr (.inl ⟨t, ht, htaken, hmis, rfl⟩)

/-- Settles O27: the second case of the table (O37). -/
theorem misalignedAccessesTrap : Obligations.MisalignedAccessesTrap :=
  fun i s kind a n hs ha hmis hpol => (trapsExactlyAsTabulated i s _ hs).mpr (.inr (.inl ⟨kind, a, n, ha, hmis, hpol, rfl⟩))

/-- Settles O28: the third case of the table (O37). -/
theorem deniedAccessesTrap : Obligations.DeniedAccessesTrap :=
  fun i s kind a n k hs ha hok hk hdenied =>
    (trapsExactlyAsTabulated i s _ hs).mpr (.inr (.inr (.inl ⟨kind, a, n, ha, hok, ⟨k, hk, hdenied⟩, rfl⟩)))

/-- Settles O34: the last two cases of the table (O37). -/
theorem ecallAndEbreakTrap : Obligations.EcallAndEbreakTrap :=
  fun s hs => ⟨(trapsExactlyAsTabulated .ecall s _ hs).mpr (.inr (.inr (.inr (.inl ⟨rfl, rfl⟩)))),
    (trapsExactlyAsTabulated .ebreak s _ hs).mpr (.inr (.inr (.inr (.inr ⟨rfl, rfl⟩))))⟩

/-- Settles O35: with a handler attached the two go on in the state the free handler answers for their records. -/
theorem ecallAndEbreakResumeInTheHandler : Obligations.EcallAndEbreakResumeInTheHandler := by
  intro i s r hs hi
  have hexec : exec i s = .next (s.resume r) := by
    obtain ⟨rfl, rfl⟩ | ⟨rfl, rfl⟩ := hi <;> exact raise_handler hs _
  exact ⟨s.resume r, hexec, rfl, rfl, resume_pc_aligned s r, rfl, rfl, rfl, rfl, rfl⟩

/-- Settles O33: each of the three only advances the pc, and so does `addi x0, x0, 0`, whose result x0 loses. -/
theorem fencesChangeOnlyThePc : Obligations.FencesChangeOnlyThePc := by
  intro i fm pred succ rs1 rd s hi
  have hexec : exec i s = .next s.advance := by
    simp only [List.mem_cons, List.not_mem_nil, or_false] at hi
    obtain rfl | rfl | rfl := hi <;> rfl
  exact ⟨⟨s.advance, hexec, rfl, changesOnlyPc_setPc s _⟩, hexec.trans (compute_zero s _).symm⟩

end Sys2Proof.Machine
end

section
/-!
Frames (R27, R35, R210): where an instruction that completes leaves the pc, what else it changes, what it depends on, and that
the misalignment policy `support` only adds (D6).
-/
namespace Sys2Proof.Machine

theorem exec_next_fatal {i : Instr} {s t : State} (hs : s.eei.onTrap = .fatal) (h : exec i s = .next t) :
    ∃ m : Meaning, m.Of i s ∧ m.attempt s = .ok t := by
  obtain hok | ⟨hhandler, -⟩ := exec_next h
  · exact hok
  · cases hs.symm.trans hhandler

theorem raise_ne_next {s : State} (hs : s.eei.onTrap = .fatal) (e : Exception) (t : State) : s.raise e ≠ .next t := by
  simp [raise_fatal hs]

/-! ### What one that completes leaves, by its access -/

/-- An instruction with neither access nor trap writes at most one register, and the pc. -/
theorem exec_next_of_no_access {i : Instr} {s t : State} (hs : s.eei.onTrap = .fatal) (ha : accessOf i s = none)
    (h : exec i s = .next t) : t.pc = nextPc i s ∧ ∃ rd v, t = (s.writeReg rd v).setPc t.pc := by
  obtain ⟨rd, v, hd, ha', ht, hexec⟩ | ⟨rd, target, hd, ha', ht, hj, hexec⟩ | ⟨target, hd, ha', ht, hj, hexec⟩ |
    ⟨n, ext, rd, a, hd, ha', -⟩ | ⟨n, a, v, hd, ha', -⟩ | ⟨hd, ha', ht, hecall, hebreak, hexec⟩ |
    ⟨hd, ha', ht, ⟨rfl, hexec⟩ | ⟨rfl, hexec⟩⟩ := exec_cases i s
  · cases hexec.symm.trans h
    exact ⟨by simp [nextPc, ht], rd, v, rfl⟩
  · rw [hexec] at h
    by_cases hal : target.toNat % 4 = 0
    · cases (jump_aligned hal).symm.trans h
      exact ⟨by simp [nextPc, ht, hj], rd, _, rfl⟩
    · exact absurd ((jump_misaligned hal).symm.trans h) (raise_ne_next hs _ _)
  · rw [hexec] at h
    cases hb : branchTaken i s with
    | false =>
      cases (hb ▸ h : s.branch false target = .next t)
      exact ⟨by simp [nextPc, ht, hj, hb], 0#5, 0#32, rfl⟩
    | true =>
      rw [hb] at h
      by_cases hal : target.toNat % 4 = 0
      · cases (branch_aligned hal).symm.trans h
        exact ⟨by simp [nextPc, ht, hb], 0#5, 0#32, rfl⟩
      · exact absurd ((branch_misaligned hal).symm.trans h) (raise_ne_next hs _ _)
  · cases ha.symm.trans ha'
  · cases ha.symm.trans ha'
  · cases hexec.symm.trans h
    exact ⟨by simp [nextPc, ht], 0#5, 0#32, rfl⟩
  · exact absurd (hexec.symm.trans h) (raise_ne_next hs _ _)
  · exact absurd (hexec.symm.trans h) (raise_ne_next hs _ _)

theorem targetOf_none_of_access {i : Instr} {s : State} {x : AccessKind × Word × Width} (ha : accessOf i s = some x) :
    targetOf i s = none := by
  cases i with
  | lb | lh | lw | lbu | lhu | sb | sh | sw => rfl
  | _ => cases ha

theorem nextPc_of_access {i : Instr} {s : State} {x : AccessKind × Word × Width} (ha : accessOf i s = some x) :
    nextPc i s = s.pc + 4#32 := by
  simp [nextPc, targetOf_none_of_access ha]

theorem exec_next_of_load {i : Instr} {s t : State} {a : Word} {n : Width} (hs : s.eei.onTrap = .fatal)
    (ha : accessOf i s = some (.load, a, n)) (h : exec i s = .next t) :
    ∃ rd v, t = (s.observe .load a n ((List.range n.bytes).map (s.seen a))).result rd v := by
  obtain ⟨ext, rd, -, hexec⟩ := exec_load ha
  rw [hexec] at h
  obtain ⟨-, hnext⟩ | ⟨e, -, hraise⟩ := load_cases s n ext rd a
  · cases hnext.symm.trans h
    exact ⟨rd, _, rfl⟩
  · exact absurd (hraise.symm.trans h) (raise_ne_next hs _ _)

theorem exec_next_of_store {i : Instr} {s t : State} {a : Word} {n : Width} (hs : s.eei.onTrap = .fatal)
    (ha : accessOf i s = some (.store, a, n)) (h : exec i s = .next t) :
    ∃ v, t = ((s.putBytes a (leBytes v n.bytes)).observe .store a n (leBytes v n.bytes)).advance := by
  obtain ⟨r, -, -, hexec⟩ := exec_store ha
  rw [hexec] at h
  obtain ⟨-, hnext⟩ | ⟨e, -, hraise⟩ := store_cases s n a (s.readReg r)
  · cases hnext.symm.trans h
    exact ⟨_, rfl⟩
  · exact absurd (hraise.symm.trans h) (raise_ne_next hs _ _)

/-- Settles O21: by the access; a load or store has no target. -/
theorem completedInstructionsSetThePcOnce : Obligations.CompletedInstructionsSetThePcOnce := by
  intro i s t hs h
  cases ha : accessOf i s with
  | none => exact (exec_next_of_no_access hs ha h).1
  | some x =>
    obtain ⟨kind, a, n⟩ := x
    rw [nextPc_of_access ha]
    cases kind with
    | fetch => exact absurd ha accessOf_ne_fetch
    | load =>
      obtain ⟨rd, v, rfl⟩ := exec_next_of_load hs ha h
      simp
    | store =>
      obtain ⟨v, rfl⟩ := exec_next_of_store hs ha h
      simp

/-! ### What an instruction may change -/

/-- An attempt leaves every register but its destination. -/
theorem attempt_readReg {m : Meaning} {s t : State} (h : m.attempt s = .ok t) {r : RegNum} (hr : m.dest ≠ some r) :
    t.readReg r = s.readReg r := by
  obtain ⟨d, evs, rd, v, pc', hrd, -, rfl⟩ | ⟨d, evs, a, bytes, rfl⟩ := attempt_ok_cases h
  · obtain hrd | rfl := hrd
    · exact readReg_writeReg_other (s.withRecord d evs) v fun he => hr (he ▸ hrd)
    · rfl
  · rfl

/-- Recording an access, by whether it touches a device: the draws and the events. -/
theorem observe_record (s : State) (kind : AccessKind) (a : Word) (n : Width) (bytes : List Byte) :
    (s.ordinary a n → (s.observe kind a n bytes).draws = s.draws ∧ (s.observe kind a n bytes).events = s.events) ∧
    (¬ s.ordinary a n → (s.observe kind a n bytes).draws = s.draws + n.bytes ∧
      s.events <+: (s.observe kind a n bytes).events) := by
  refine ⟨fun h => ?_, fun h => ?_⟩
  · rw [observe_ordinary h]
    exact ⟨rfl, rfl⟩
  · rw [observe_device h]
    exact ⟨rfl, List.prefix_append _ _⟩

/-- Settles O49: pc, environment and registers for every meaning at once; memory and record by the access. -/
theorem onlyTheDestinationChanges : Obligations.OnlyTheDestinationChanges := by
  intro i s t hwf hs h
  obtain ⟨m, ⟨hdest, -⟩, hok⟩ := exec_next_fatal hs h
  refine ⟨completedInstructionsSetThePcOnce i s t hs h, attempt_ok_eei hok,
    fun r hr => attempt_readReg hok (hdest ▸ hr), ?_⟩
  cases ha : accessOf i s with
  | none =>
    obtain ⟨-, rd, v, ht⟩ := exec_next_of_no_access hs ha h
    rw [ht]
    exact ⟨⟨rfl, rfl⟩, fun _ => ⟨rfl, rfl⟩, fun _ _ _ h => by cases h⟩
  | some x =>
    obtain ⟨kind, a, n⟩ := x
    cases kind with
    | fetch => exact absurd ha accessOf_ne_fetch
    | load =>
      obtain ⟨rd, v, rfl⟩ := exec_next_of_load hs ha h
      obtain ⟨hord, hdev⟩ := observe_record s .load a n ((List.range n.bytes).map (s.seen a))
      refine ⟨by simp, fun hall => hord (hall _ _ _ rfl), fun _ _ _ h hne => ?_⟩
      cases h
      exact hdev hne
    | store =>
      obtain ⟨v, rfl⟩ := exec_next_of_store hs ha h
      obtain ⟨-, hnone, -⟩ := exec_store ha
      obtain ⟨hord, hdev⟩ := observe_record (s.putBytes a (leBytes v n.bytes)) .store a n (leBytes v n.bytes)
      have hbytes : n.bytes ≤ 4 := by cases n <;> decide
      obtain ⟨-, -, hmem, hwritten, -⟩ := putBytes_storesOnly hwf.1 a v hbytes
      refine ⟨⟨hnone, fun b hb => ?_, fun b => ?_⟩, fun hall => hord (hall _ _ _ rfl), fun _ _ _ h hne => ?_⟩
      · simpa using hmem b hb
      · simpa using hwritten b
      · cases h
        exact hdev hne

/-! ### What an instruction depends on -/

/-- Two states agree on all but the registers, and on the register `dest` names. -/
def AgreeBut (dest : Option RegNum) (t v : State) : Prop :=
  t.pc = v.pc ∧ t.mem = v.mem ∧ t.written = v.written ∧ t.eei = v.eei ∧ t.draws = v.draws ∧ t.events = v.events ∧
    ∀ r, dest = some r → t.readReg r = v.readReg r

theorem readReg_writeReg_eq (s u : State) (rd : RegNum) (v : Word) :
    (s.writeReg rd v).readReg rd = (u.writeReg rd v).readReg rd := by
  by_cases h : rd = 0#5
  · subst h
    rfl
  · rw [readReg_writeReg_same s v h, readReg_writeReg_same u v h]

/-- One meaning gives the same exception in two states that differ in the registers alone, or completes in both alike. -/
theorem attempt_agree (m : Meaning) (s : State) (regs : Vector Word 31) :
    (∃ e, m.attempt s = .error e ∧ m.attempt { s with regs := regs } = .error e) ∨
    ∃ t v, m.attempt s = .ok t ∧ m.attempt { s with regs := regs } = .ok v ∧ AgreeBut m.dest t v := by
  have dest_eq {t v : State} {rd : RegNum} {w : Word} : ∀ r, some rd = some r →
      (t.writeReg rd w).readReg r = (v.writeReg rd w).readReg r := by
    rintro r ⟨⟩
    exact readReg_writeReg_eq t v rd w
  have no_dest {t v : State} : ∀ r, none = some r → t.readReg r = v.readReg r := by
    rintro r ⟨⟩
  have hcheck (kind : AccessKind) (a : Word) (n : Width) :
      ({ s with regs := regs } : State).checkAccess kind a n = s.checkAccess kind a n := rfl
  cases m with
  | compute rd v => exact .inr ⟨_, _, rfl, rfl, rfl, rfl, rfl, rfl, rfl, rfl, dest_eq⟩
  | jump rd target =>
    simp only [Meaning.attempt]
    split
    · exact .inr ⟨_, _, rfl, rfl, rfl, rfl, rfl, rfl, rfl, rfl, dest_eq⟩
    · exact .inl ⟨_, rfl, rfl⟩
  | branch cond target =>
    simp only [Meaning.attempt]
    split
    · split
      · exact .inr ⟨_, _, rfl, rfl, rfl, rfl, rfl, rfl, rfl, rfl, no_dest⟩
      · exact .inl ⟨_, rfl, rfl⟩
    · exact .inr ⟨_, _, rfl, rfl, rfl, rfl, rfl, rfl, rfl, rfl, no_dest⟩
  | load n ext rd a =>
    simp only [Meaning.attempt, State.memRead, hcheck]
    cases s.checkAccess .load a n with
    | some e => exact .inl ⟨_, rfl, rfl⟩
    | none =>
      simp only [observe_eq]
      exact .inr ⟨_, _, rfl, rfl, rfl, rfl, rfl, rfl, rfl, rfl, dest_eq⟩
  | store n a v =>
    simp only [Meaning.attempt, State.memWrite, hcheck]
    cases s.checkAccess .store a n with
    | some e => exact .inl ⟨_, rfl, rfl⟩
    | none =>
      simp only [observe_eq]
      exact .inr ⟨_, _, rfl, rfl, rfl, rfl, rfl, rfl, rfl, rfl, no_dest⟩
  | advance => exact .inr ⟨_, _, rfl, rfl, rfl, rfl, rfl, rfl, rfl, rfl, no_dest⟩
  | raise e => exact .inl ⟨_, rfl, rfl⟩

/-- Settles O50: states that agree on the sources give the instruction one meaning, and a meaning depends on no register. -/
theorem onlyTheSourcesMatter : Obligations.OnlyTheSourcesMatter := by
  rintro i s regs u hs rfl hsrc
  have hs' : ({ s with regs := regs } : State).eei.onTrap = .fatal := hs
  obtain ⟨m, ⟨hdest, hexec⟩, -, hexec'⟩ := exists_meaning (i := i) (s := s) (u := { s with regs := regs }) rfl hsrc
  rw [hexec, hexec', ← hdest]
  obtain ⟨e, he, he'⟩ | ⟨t, v, ht, hv, hagree⟩ := attempt_agree m s regs
  · rw [he, he', conclude_error, conclude_error, raise_fatal hs, raise_fatal hs']
  · rw [ht, hv]
    exact hagree

/-! ### The misalignment policy -/

/-- The same machine under policy `support` (D6). -/
def State.supporting (s : State) : State := { s with eei := { s.eei with misaligned := .support } }

theorem checkAccess_supporting {s : State} {kind : AccessKind} {a : Word} {n : Width} (h : s.checkAccess kind a n = none) :
    s.supporting.checkAccess kind a n = none := by
  obtain ⟨-, hallowed⟩ := checkAccess_none_iff.mp h
  exact checkAccess_none_iff.mpr ⟨.inr rfl, hallowed⟩

theorem attempt_supporting {m : Meaning} {s t : State} (h : m.attempt s = .ok t) :
    m.attempt s.supporting = .ok t.supporting := by
  cases m with
  | compute rd v =>
    cases h
    rfl
  | jump rd target =>
    simp only [Meaning.attempt] at h ⊢
    split at h <;> cases h
    rw [if_pos ‹_›]
    rfl
  | branch cond target =>
    simp only [Meaning.attempt] at h ⊢
    split at h
    · split at h <;> cases h
      rw [if_pos ‹cond = true›, if_pos ‹_›]
      rfl
    · cases h
      rw [if_neg ‹_›]
      rfl
  | load n ext rd a =>
    simp only [Meaning.attempt, State.memRead] at h ⊢
    split at h <;> cases h
    rw [checkAccess_supporting ‹_›]
    simp only [observe_eq]
    rfl
  | store n a v =>
    simp only [Meaning.attempt, State.memWrite] at h ⊢
    split at h <;> cases h
    rw [checkAccess_supporting ‹_›]
    simp only [observe_eq]
    rfl
  | advance =>
    cases h
    rfl
  | raise e => cases h

/-- Settles O51: the policy changes no source of an instruction, and the checks that pass under `trap` pass under `support`. -/
theorem supportExtendsTrapPolicy : Obligations.SupportExtendsTrapPolicy := by
  intro i s t hs _ h
  obtain ⟨m, ⟨-, hexec⟩, -, hexec'⟩ := exists_meaning (i := i) (s := s) (u := s.supporting) rfl fun _ _ => rfl
  obtain hok | ⟨hhandler, -⟩ := conclude_next (hexec.symm.trans h)
  · exact hexec'.trans (by rw [attempt_supporting hok]; rfl)
  · cases hs.symm.trans hhandler

end Sys2Proof.Machine
end

section
/-!
The step (R14, R65 to R68, R74, R77) and the state after reset (R350).
-/
namespace Sys2Proof.Machine

/-! ### The fetch -/

theorem fetch_denied {s : State} (ha : s.pc.toNat % 4 = 0) (hp : ¬ s.fetchAllowed) :
    s.fetch = .raised (.instructionAccessFault s.pc) := by
  obtain ⟨hmis, -⟩ | ⟨-, -, hf⟩ | ⟨-, hallowed, -⟩ | ⟨-, hallowed, -⟩ := fetch_cases s
  · exact absurd ha hmis
  · exact hf
  · exact absurd hallowed hp
  · exact absurd hallowed hp

/-- An aligned fetch that touches a device draws four values and is one event (R61, R77). -/
theorem observe_fetch_device {s : State} (ha : s.pc.toNat % 4 = 0) (hdev : ¬ s.ordinary s.pc .word) (b0 b1 b2 b3 : Byte) :
    s.observe .fetch s.pc .word [b0, b1, b2, b3] =
      s.withRecord 4 [⟨.fetch, s.pc, .word, b3 ++ b2 ++ b1 ++ b0⟩] := by
  have hal : naturallyAligned s.pc .word = true := naturallyAligned_iff.mpr ha
  rw [observe_device hdev, State.accessEvents, if_pos hal, leValue_four]
  rfl

/-! ### The step -/

/-- Settles O38: the fetch of ordinary memory leaves the state as it is, and what decodes is well formed (O2). -/
theorem stepRunsTheDecodedInstruction : Obligations.StepRunsTheDecodedInstruction :=
  fun _ i ha hp hc ho hd => ⟨(decodeThenEncode _ i hd).2, step_word (fetch_ordinary ha hp hc ho) hd⟩

/-- Settles O39: the trap is raised in the state after the fetch, which differs from `s` in its record alone. -/
theorem stepTrapsOnIllegalWords : Obligations.StepTrapsOnIllegalWords := by
  rintro s w e ha hp hc rfl hd
  have hf := fetch_word ha hp hc
  refine ⟨fun hs => ?fatal, fun hs => ?handler, fun ho => ?ordinary, fun hdev => ?device⟩
  case fatal =>
    rw [step_illegal hf hd, raise_fatal (by rw [observe_eei, hs]), observe_pc]
    rfl
  case handler =>
    rw [step_illegal hf hd, raise_handler (by rw [observe_eei, hs]), afterFetch_word hf, observe_pc]
    rfl
  case ordinary =>
    obtain ⟨hw, hstate⟩ := FetchOutcome.word.inj (hf.symm.trans (fetch_ordinary ha hp hc ho))
    exact ⟨hw, (afterFetch_word hf).trans hstate⟩
  case device => exact (afterFetch_word hf).trans (observe_fetch_device ha hdev _ _ _ _)

/-- Settles O40: the map is asked before anything is decoded, and before the stored-to set. -/
theorem deniedFetchTraps : Obligations.DeniedFetchTraps := by
  intro s ha hp
  have hstep := step_raised (fetch_denied ha hp)
  exact ⟨fun hs => hstep.trans (raise_fatal hs _), fun hs => hstep.trans (raise_handler hs _)⟩

/-- Settles O41: of the fetch's four answers one is the refusal, and neither a raise nor an execution refuses. -/
theorem refusedExactlyAfterStoreToCode : Obligations.RefusedExactlyAfterStoreToCode := by
  intro s r
  obtain ⟨hmis, hf⟩ | ⟨-, hdenied, hf⟩ | ⟨ha, hp, hstored, hf⟩ | ⟨-, -, hclean, w, hf⟩ := fetch_cases s
  · exact iff_of_false (step_raised hf ▸ raise_ne_refused _ _ _) fun ⟨ha, _⟩ => hmis ha
  · exact iff_of_false (step_raised hf ▸ raise_ne_refused _ _ _) fun ⟨_, hp, _⟩ => hdenied hp
  · rw [step_refused hf]
    constructor
    · rintro ⟨⟩
      exact ⟨ha, hp, hstored, rfl⟩
    · rintro ⟨-, -, -, rfl⟩
      rfl
  · refine iff_of_false ?_ fun ⟨_, _, hstored, _⟩ => hstored hclean
    cases hd : decode w with
    | error e => exact step_illegal hf hd ▸ raise_ne_refused _ _ _
    | ok i => exact step_word hf hd ▸ exec_ne_refused _ _ _

/-- Settles O42: the state after the fetch is `s` with four draws and one event. -/
theorem stepFetchesFromDevices : Obligations.StepFetchesFromDevices := by
  rintro s i w ha hp hc hdev rfl hd
  have hf := fetch_word ha hp hc
  rw [observe_fetch_device ha hdev] at hf
  exact ⟨_, step_word hf hd, rfl, rfl, rfl, rfl, rfl, rfl, rfl⟩

/-! ### Placing a word (log entry 12) -/

theorem everything_allows {a : Nat} (ha : a < 2 ^ 32) (kind : AccessKind) (n : Width) :
    MemMap.everything.allows a kind n = true := by
  have hle : a ≤ 4294967295 := by omega
  cases kind <;> cases n <;>
    simp [MemMap.allows, MemMap.everything, rulesAllow, MapRule.speaksOf, AddrRange.has, hle]

theorem everything_isDevice (a : Nat) : MemMap.everything.isDevice a = false := rfl

/-- A word put together from its four bytes. -/
theorem word_of_bytes (w : Word) :
    w.extractLsb' (8 * 3) 8 ++ w.extractLsb' (8 * 2) 8 ++ w.extractLsb' (8 * 1) 8 ++ w.extractLsb' (8 * 0) 8 = w := by
  rw [← leValue_four]
  exact (congrArg leValue (leBytes_eq_map w 4).symm).trans (leValue_leBytes w)

theorem and_align_of_aligned {a : Word} (h : a.toNat % 4 = 0) : a &&& 0xFFFFFFFC#32 = a := by
  obtain ⟨h0, h1⟩ := (naturallyAligned_word_iff a).mp (naturallyAligned_iff.mpr h)
  rw [BitVec.getLsbD_eq_getElem (by decide)] at h0 h1
  refine BitVec.eq_of_getLsbD_eq fun k hk => ?_
  rw [BitVec.getLsbD_and]
  interval_cases k <;> simp [h0, h1]

/-- What `placeWord` leaves at a pc that is a multiple of 4: the registers and the pc, the word at the pc, not stored to,
fetchable and ordinary, and every other byte. -/
theorem placeWord_spec {s : State} (hs : s.wf) (w : Word) :
    (s.placeWord w).regs = s.regs ∧ (s.placeWord w).pc = s.pc ∧ (s.placeWord w).wordAtPc = w ∧
    (s.placeWord w).fetchClean ∧ (s.placeWord w).fetchAllowed ∧ (s.placeWord w).ordinary (s.placeWord w).pc .word ∧
    ∀ b, b ∉ byteAddrs s.pc 4 → Memory.read (s.placeWord w).mem b = Memory.read s.mem b := by
  obtain ⟨hwf, hpc, -⟩ := hs
  obtain ⟨-, hbytes, hothers, -⟩ := putBytes_storesOnly hwf s.pc w (Nat.le_refl 4)
  have hword (t : State) (hmem : t.mem = (s.putBytes s.pc (leBytes w 4)).mem) (htpc : t.pc = s.pc) : t.wordAtPc = w := by
    have hbyte (k : Nat) (hk : k < 4) : t.byteAt t.pc k = w.extractLsb' (8 * k) 8 := by
      rw [htpc, ← hbytes k hk, State.byteAt, hmem]
      rfl
    rw [State.wordAtPc, hbyte 0 (by omega), hbyte 1 (by omega), hbyte 2 (by omega), hbyte 3 (by omega), word_of_bytes]
  have hclean (t : State) (hwr : t.written = s.written.filter (fun b => decide (b ∉ byteAddrs s.pc 4))) (htpc : t.pc = s.pc) :
      t.fetchClean := by
    intro k hk hmem
    rw [hwr, htpc, List.mem_filter, decide_eq_true_eq] at hmem
    exact hmem.2 (mem_byteAddrs.mpr ⟨k, hk, rfl⟩)
  unfold State.placeWord
  simp only [and_align_of_aligned hpc]
  split
  · rename_i h
    rw [Bool.and_eq_true, Bool.not_eq_true'] at h
    exact ⟨rfl, rfl, hword _ rfl rfl, hclean _ rfl rfl, permitted_iff.mp h.1, touchesDevice_false_iff.mp h.2, hothers⟩
  · exact ⟨rfl, rfl, hword _ rfl rfl, hclean _ rfl rfl, fun k _ => everything_allows (byteAddr_lt _ k) _ _,
      fun k _ => everything_isDevice _, hothers⟩

/-- Settles O43: the placed word is fetched from ordinary memory. -/
theorem withFetchWordRunsTheWord : Obligations.WithFetchWordRunsTheWord := by
  intro s w i hs hw hd
  have hplace : s.withFetchWord 32 w = s.placeWord (BitVec.ofNat 32 w) := by rw [State.withFetchWord, Nat.mod_eq_of_lt hw]
  rw [hplace]
  obtain ⟨hregs, hpc, hword, hclean, hallowed, hord, hothers⟩ := placeWord_spec hs (BitVec.ofNat 32 w)
  have hf := fetch_ordinary (hpc ▸ hs.2.1) hallowed hclean hord
  exact ⟨step_word hf (by rw [hword, hd]), hregs, hpc, hothers⟩

/-! ### Reset (R350) and the representation of memory (R33) -/

/-- The two heads of canonical memories that read alike have one address, and one byte there. -/
theorem Memory.head_eq {k k' : Nat} {v v' : Byte} {m m' : Memory} (h : Memory.wf ((k, v) :: m)) (h' : Memory.wf ((k', v') :: m'))
    (hread : ∀ a, Memory.read ((k, v) :: m) a = Memory.read ((k', v') :: m') a) : k = k' ∧ v = v' := by
  have not_below {k k' : Nat} {v v' : Byte} {m m' : Memory} (h : Memory.wf ((k, v) :: m)) (h' : Memory.wf ((k', v') :: m'))
      (hk : Memory.read ((k, v) :: m) k = Memory.read ((k', v') :: m') k) : ¬ k < k' := by
    intro hlt
    have habove : ∀ c ∈ (k', v') :: m', k < c.1 := by
      intro c hc
      obtain rfl | hc := List.mem_cons.mp hc
      · exact hlt
      · exact hlt.trans ((List.pairwise_cons.mp h'.1).1 c hc)
    rw [Memory.read_of_lt habove] at hk
    exact (h.2 (k, v) (by simp)).2 (by simpa [Memory.read] using hk)
  have hkk : k = k' := by
    have hle := not_below h h' (hread k)
    have hge := not_below h' h (hread k').symm
    omega
  subst hkk
  exact ⟨rfl, by simpa [Memory.read] using hread k⟩

/-- Settles O52, by induction on both lists: the lowest address that reads as no unlisted byte is the head of each. -/
theorem canonicalMemoriesAreExtensional : Obligations.CanonicalMemoriesAreExtensional := by
  intro m
  induction m with
  | nil =>
    rintro (_ | ⟨⟨k, v⟩, m'⟩) - h' hread
    · rfl
    · exact absurd (by simpa [Memory.read] using (hread k).symm) (h'.2 (k, v) (by simp)).2
  | cons c m ih =>
    obtain ⟨k, v⟩ := c
    rintro (_ | ⟨⟨k', v'⟩, m'⟩) h h' hread
    · exact absurd (by simpa [Memory.read] using hread k) (h.2 (k, v) (by simp)).2
    · obtain ⟨rfl, rfl⟩ := Memory.head_eq h h' hread
      rw [ih m' (Memory.wf_tail h) (Memory.wf_tail h') fun a => ?_]
      by_cases hak : k = a
      · subst hak
        rw [Memory.read_of_lt (List.pairwise_cons.mp h.1).1, Memory.read_of_lt (List.pairwise_cons.mp h'.1).1]
      · simpa [Memory.read, hak] using hread a

theorem readReg_boot (p : ResetParams) (k : Nat) (h : k < 31) :
    (State.boot p).readReg (BitVec.ofNat 5 (k + 1)) = p.initRegs[k] := by
  have hne : BitVec.ofNat 5 (k + 1) ≠ 0#5 := fun he => by
    have hnat := congrArg BitVec.toNat he
    simp only [BitVec.toNat_ofNat] at hnat
    omega
  have hindex : (regIndex (BitVec.ofNat 5 (k + 1))).val = k := by
    simp only [regIndex, BitVec.toNat_ofNat]
    omega
  simp [State.readReg, hne, hindex]

/-- Settles O53: reset copies its parameters, and nine numbers are a function on the nine names. -/
theorem resetLoadsTheParameters : Obligations.ResetLoadsTheParameters := by
  refine ⟨fun p => ⟨rfl, rfl, readReg_boot p, rfl, rfl, rfl, fun c r hc => ?_⟩, fun f => ⟨.ofFunction f, fun e => ?_⟩⟩
  · simp [State.causeCode, hc]
  · cases e <;> rfl

theorem readReg_reset (r : RegNum) : State.reset.readReg r = 0#32 := by
  by_cases h : r = 0#5 <;> simp [State.readReg, State.reset, ResetParams.default, h]

/-- Settles O54: the fields of `ResetParams.default`. -/
theorem modelResetChoice : Obligations.ModelResetChoice :=
  ⟨rfl, readReg_reset, fun _ => rfl, rfl, rfl, rfl, fun a kind n => ⟨everything_allows a.isLt kind n, rfl⟩⟩

end Sys2Proof.Machine
end

section
/-!
The remaining integer instructions (40_integer_computational.md): comparisons and arithmetic shifts; and the jumps and branches
that complete (41_control_transfer.md).
-/
namespace Sys2Proof.Machine

/-! ### Comparisons and arithmetic shifts as numbers -/

theorem boolWord_lessSigned (a b : Word) : boolWord (lessSigned a b) = if a.toInt < b.toInt then 1#32 else 0#32 := by
  simp [boolWord, lessSigned, BitVec.slt]

theorem boolWord_lessUnsigned (a b : Word) : boolWord (lessUnsigned a b) = if a.toNat < b.toNat then 1#32 else 0#32 := by
  simp [boolWord, lessUnsigned, BitVec.ult]

/-- A 32-bit two's-complement number shifted with copies of its sign is divided, rounding down (R10). -/
theorem sshiftRight_eq_ofInt (a : Word) (n : BitVec 5) : a.sshiftRight' n = BitVec.ofInt 32 (a.toInt / 2 ^ n.toNat) := by
  rw [BitVec.sshiftRight', BitVec.sshiftRight, Int.shiftRight_eq_div_pow]
  norm_num

theorem exec_slti (rd rs1 : RegNum) (imm : BitVec 12) (s : State) : exec (.slti rd rs1 imm) s =
    s.compute rd (if (s.readReg rs1).toInt < imm.toInt then 1#32 else 0#32) := by
  rw [← imm12_toInt]
  exact congrArg (s.compute rd) (boolWord_lessSigned _ _)

theorem exec_slt (rd rs1 rs2 : RegNum) (s : State) : exec (.slt rd rs1 rs2) s =
    s.compute rd (if (s.readReg rs1).toInt < (s.readReg rs2).toInt then 1#32 else 0#32) :=
  congrArg (s.compute rd) (boolWord_lessSigned _ _)

theorem exec_sltu (rd rs1 rs2 : RegNum) (s : State) : exec (.sltu rd rs1 rs2) s =
    s.compute rd (if (s.readReg rs1).toNat < (s.readReg rs2).toNat then 1#32 else 0#32) :=
  congrArg (s.compute rd) (boolWord_lessUnsigned _ _)

theorem exec_sltiu (rd rs1 : RegNum) (imm : BitVec 12) (s : State) : exec (.sltiu rd rs1 imm) s =
    s.compute rd (if ((s.readReg rs1).toNat : Int) < imm.toInt % 2 ^ 32 then 1#32 else 0#32) := by
  rw [← imm12_toNat]
  simp only [Int.ofNat_lt]
  exact congrArg (s.compute rd) (boolWord_lessUnsigned _ _)

theorem exec_srai (rd rs1 : RegNum) (shamt : BitVec 5) (s : State) : exec (.srai rd rs1 shamt) s =
    s.compute rd (BitVec.ofInt 32 ((s.readReg rs1).toInt / 2 ^ shamt.toNat)) :=
  congrArg (s.compute rd) (sshiftRight_eq_ofInt _ _)

theorem exec_sra (rd rs1 rs2 : RegNum) (s : State) : exec (.sra rd rs1 rs2) s =
    s.compute rd (BitVec.ofInt 32 ((s.readReg rs1).toInt / 2 ^ ((s.readReg rs2).toNat % 32))) := by
  rw [← shiftAmount_toNat]
  exact congrArg (s.compute rd) (sshiftRight_eq_ofInt _ _)

/-- Settles O8: the comparisons of the model are those of the numbers. -/
theorem setIfLessThanResults : Obligations.SetIfLessThanResults := by
  intro rd rs1 rs2 imm s
  exact ⟨decodes_and_completes rfl rfl rfl rfl (exec_slti rd rs1 imm s),
    decodes_and_completes rfl rfl rfl rfl (exec_slt rd rs1 rs2 s),
    decodes_and_completes rfl rfl rfl rfl (exec_sltu rd rs1 rs2 s)⟩

/-- Settles O9: the sign-extended immediate, read unsigned, is the immediate modulo 2^32. -/
theorem sltiuComparesUnsignedAfterSignExtension : Obligations.SltiuComparesUnsignedAfterSignExtension := by
  intro rd rs1 imm s
  exact decodes_and_completes rfl rfl rfl rfl (exec_sltiu rd rs1 imm s)

/-- Settles O11: both shifts as division of the signed reading. -/
theorem arithmeticShiftResults : Obligations.ArithmeticShiftResults := by
  intro rd rs1 rs2 shamt s
  exact ⟨decodes_and_completes rfl rfl rfl rfl (exec_srai rd rs1 shamt s),
    decodes_and_completes rfl rfl rfl rfl (exec_sra rd rs1 rs2 s)⟩

/-! ### Jumps and branches -/

/-- Clearing bit 0 rounds down to an even number (R184). -/
theorem toNat_clear_bit0 (x : Word) : (x &&& 0xFFFFFFFE#32).toNat = x.toNat / 2 * 2 := by
  have hshift : x &&& 0xFFFFFFFE#32 = (x >>> 1) <<< 1 := by
    refine BitVec.eq_of_getLsbD_eq fun k hk => ?_
    rw [BitVec.getLsbD_and, BitVec.getLsbD_shiftLeft, BitVec.getLsbD_ushiftRight]
    interval_cases k <;> simp
  have hlt := x.isLt
  rw [hshift, BitVec.toNat_shiftLeft, BitVec.toNat_ushiftRight, Nat.shiftLeft_eq, Nat.shiftRight_eq_div_pow]
  omega

theorem exec_jal (rd : RegNum) (offset : BitVec 21) (s : State) :
    exec (.jal rd offset) s = s.jump rd (s.pc + offset.signExtend 32) := rfl

theorem exec_jalr (rd rs1 : RegNum) (imm : BitVec 12) (s : State) :
    exec (.jalr rd rs1 imm) s = s.jump rd ((s.readReg rs1 + imm.signExtend 32) &&& 0xFFFFFFFE#32) := rfl

/-- Settles O18: an aligned jump links and transfers; JALR's sum may be odd, since its bit 0 is cleared. -/
theorem jumpsLinkAndTransfer : Obligations.JumpsLinkAndTransfer := by
  intro rd rs1 offset imm s
  refine ⟨fun h => ?jal, fun h => ?jalr⟩
  case jal => exact ⟨_, (exec_jal rd offset s).trans (jump_aligned h), rfl, link_writesOnly s rd _ _⟩
  case jalr =>
    have htarget := toNat_clear_bit0 (s.readReg rs1 + imm.signExtend 32)
    have haligned : ((s.readReg rs1 + imm.signExtend 32) &&& 0xFFFFFFFE#32).toNat % 4 = 0 := by omega
    exact ⟨_, (exec_jalr rd rs1 imm s).trans (jump_aligned haligned), htarget, link_writesOnly s rd _ _⟩

theorem exec_branch_taken {i : Instr} {s : State} {t : Word} (ht : targetOf i s = some t) (hj : isJump i = false)
    (hb : branchTaken i s = true) (hal : t.toNat % 4 = 0) : exec i s = .next (s.setPc t) := by
  rw [(exec_branch ht hj).2, hb, branch_aligned hal]

theorem exec_branch_not_taken {i : Instr} {s : State} {t : Word} (ht : targetOf i s = some t) (hj : isJump i = false)
    (hb : branchTaken i s = false) : exec i s = .next s.advance := by
  rw [(exec_branch ht hj).2, hb, branch_not_taken]

/-- Settles O19: all six are the one branch, with their own conditions. -/
theorem branchesFollowTheirConditions : Obligations.BranchesFollowTheirConditions := by
  intro rs1 rs2 offset s i hi
  obtain ⟨ht, hj⟩ : targetOf i s = some (s.pc + offset.signExtend 32) ∧ isJump i = false := by
    simp only [List.mem_cons, List.not_mem_nil, or_false] at hi
    obtain rfl | rfl | rfl | rfl | rfl | rfl := hi <;> exact ⟨rfl, rfl⟩
  exact ⟨fun hb hal => ⟨_, exec_branch_taken ht hj hb hal, rfl, changesOnlyPc_setPc s _⟩,
    fun hb => ⟨_, exec_branch_not_taken ht hj hb, rfl, changesOnlyPc_setPc s _⟩⟩

end Sys2Proof.Machine
end

section
/-!
Loads and stores (42_load_store.md, 20_memory.md): their values and frames, devices, and what a load sees after a store.
-/
namespace Sys2Proof.Machine

/-! ### Bytes of a little-endian value (R51) -/

/-- Byte `k` of a little-endian value is byte `k` of the list; 0 past its end. -/
theorem leValue_byte (bytes : List Byte) (k : Nat) (hk : k < 4) : (leValue bytes).extractLsb' (8 * k) 8 = bytes.getD k 0#8 := by
  induction bytes generalizing k with
  | nil => simp [leValue]
  | cons b rest ih =>
    have hsplit (j : Nat) (hj : j < 8) : (leValue (b :: rest)).getLsbD (8 * k + j) =
        if k = 0 then b.getLsbD j else (leValue rest).getLsbD (8 * (k - 1) + j) := by
      simp only [leValue, BitVec.getLsbD_or, BitVec.getLsbD_shiftLeft, BitVec.getLsbD_setWidth]
      by_cases h0 : k = 0
      · simp [h0, hj]
        omega
      · have hlow : ¬ 8 * k + j < 8 := by omega
        have hhigh : 8 * k + j < 32 := by omega
        have hsub : 8 * k + j - 8 = 8 * (k - 1) + j := by omega
        have hb : b.getLsbD (8 * k + j) = false := BitVec.getLsbD_of_ge _ _ (by omega)
        simp [h0, hlow, hhigh, hsub, hb]
    refine BitVec.eq_of_getLsbD_eq fun j hj => ?_
    rw [BitVec.getLsbD_extractLsb', decide_eq_true hj, Bool.true_and, hsplit j hj]
    cases k with
    | zero => simp
    | succ k =>
      have hih := congrArg (fun x => x.getLsbD j) (ih k (by omega))
      simpa [hj] using hih

theorem byteAddr_add (a : Word) (k j : Nat) : byteAddr (a + BitVec.ofNat 32 k) j = byteAddr a (k + j) := by
  rw [byteAddr, byteAddr, BitVec.add_assoc, BitVec.ofNat_add]

theorem byteAt_add (s : State) (a : Word) (k j : Nat) : s.byteAt (a + BitVec.ofNat 32 k) j = s.byteAt a (k + j) := by
  rw [State.byteAt, byteAddr_add, State.byteAt]

/-! ### Loads that go through -/

theorem sext8_byte (b : Byte) : sext8 (0#24 ++ b) = b.signExtend 32 :=
  congrArg (fun x : Byte => x.signExtend 32) BitVec.setWidth_append_eq_right

theorem zext8_byte (b : Byte) : zext8 (0#24 ++ b) = 0#24 ++ b := by
  rw [zext8, BitVec.setWidth_append_eq_right]
  exact BitVec.setWidth_eq_append (by decide)

theorem sext16_half (h : BitVec 16) : sext16 (0#16 ++ h) = h.signExtend 32 :=
  congrArg (fun x : BitVec 16 => x.signExtend 32) BitVec.setWidth_append_eq_right

theorem zext16_half (h : BitVec 16) : zext16 (0#16 ++ h) = 0#16 ++ h := by
  rw [zext16, BitVec.setWidth_append_eq_right]
  exact BitVec.setWidth_eq_append (by decide)

/-- The five loads of `x[rs1] + imm`, with their widths and the values they give from the bytes seen at `a` (R215 to R219). -/
def loadForms (rd rs1 : RegNum) (imm : BitVec 12) (s : State) (a : Word) : List (Instr × Width × Word) :=
  [(Instr.lw rd rs1 imm, Width.word, s.seen a 3 ++ s.seen a 2 ++ s.seen a 1 ++ s.seen a 0),
    (.lh rd rs1 imm, .half, (s.seen a 1 ++ s.seen a 0).signExtend 32),
    (.lhu rd rs1 imm, .half, 0#16 ++ (s.seen a 1 ++ s.seen a 0)),
    (.lb rd rs1 imm, .byte, (s.seen a 0).signExtend 32), (.lbu rd rs1 imm, .byte, 0#24 ++ s.seen a 0)]

/-- A load that goes through records its access, writes its value to `rd` and goes on at `pc + 4`. -/
theorem exec_load_ok {rd rs1 : RegNum} {imm : BitVec 12} {s : State} {a : Word} {i : Instr} {n : Width} {v : Word}
    (ha : a = s.readReg rs1 + imm.signExtend 32) (hi : (i, n, v) ∈ loadForms rd rs1 imm s a) (hok : s.accessOk .load a n) :
    exec i s = .next ((s.observe .load a n ((List.range n.bytes).map (s.seen a))).result rd v) := by
  subst ha
  simp only [loadForms, List.mem_cons, List.not_mem_nil, or_false, Prod.mk.injEq] at hi
  obtain ⟨rfl, rfl, rfl⟩ | ⟨rfl, rfl, rfl⟩ | ⟨rfl, rfl, rfl⟩ | ⟨rfl, rfl, rfl⟩ | ⟨rfl, rfl, rfl⟩ := hi
  · rw [← leValue_four]
    exact load_ok hok
  · rw [← sext16_half, ← leValue_two]
    exact load_ok hok
  · rw [← zext16_half, ← leValue_two]
    exact load_ok hok
  · rw [← sext8_byte, ← leValue_one]
    exact load_ok hok
  · rw [← zext8_byte, ← leValue_one]
    exact load_ok hok

/-- The same from ordinary memory: nothing is recorded. -/
theorem exec_load_ordinary {rd rs1 : RegNum} {imm : BitVec 12} {s : State} {a : Word} {i : Instr} {n : Width} {v : Word}
    (ha : a = s.readReg rs1 + imm.signExtend 32) (hi : (i, n, v) ∈ loadForms rd rs1 imm s a) (hok : s.accessOk .load a n)
    (ho : s.ordinary a n) : ∃ t, exec i s = .next t ∧ t.pc = s.pc + 4#32 ∧ WritesOnly rd v s t := by
  refine ⟨_, exec_load_ok ha hi hok, ?_, ?_⟩
  · rw [observe_ordinary ho]
    rfl
  · rw [observe_ordinary ho]
    exact result_writesOnly s rd v

/-- Settles O22: from ordinary memory a load sees the bytes of memory. -/
theorem loadsReadLittleEndian : Obligations.LoadsReadLittleEndian := by
  intro rd rs1 imm s a ha
  refine ⟨fun hok ho => ?word, fun hok ho => ?half, fun hok ho => ?byte⟩
  case word =>
    rw [← seen_ordinary ho (by decide : 0 < 4), ← seen_ordinary ho (by decide : 1 < 4), ← seen_ordinary ho (by decide : 2 < 4),
      ← seen_ordinary ho (by decide : 3 < 4)]
    exact exec_load_ordinary ha (by simp [loadForms]) hok ho
  case half =>
    rw [← seen_ordinary ho (by decide : 0 < 2), ← seen_ordinary ho (by decide : 1 < 2)]
    exact ⟨exec_load_ordinary ha (by simp [loadForms]) hok ho, exec_load_ordinary ha (by simp [loadForms]) hok ho⟩
  case byte =>
    rw [← seen_ordinary ho (by decide : 0 < 1)]
    exact ⟨exec_load_ordinary ha (by simp [loadForms]) hok ho, exec_load_ordinary ha (by simp [loadForms]) hok ho⟩

/-- Settles O23: recording the access adds its draws and its events, the result the value and the pc. -/
theorem deviceLoadsSeeFreeValues : Obligations.DeviceLoadsSeeFreeValues := by
  intro rd rs1 imm s a i n v ha hi hok hdev
  refine ⟨_, exec_load_ok ha hi hok, ?_⟩
  rw [observe_device hdev]
  obtain ⟨hrd, hothers, hmem, -⟩ := result_writesOnly
    ({ s with draws := s.draws + n.bytes,
              events := s.events ++ s.accessEvents .load a n ((List.range n.bytes).map (s.seen a)) }) rd v
  exact ⟨rfl, rfl, rfl, hrd, hothers, hmem, rfl, rfl⟩

/-! ### The events of an access (R61, R77) -/

theorem insertAt_perm {α : Type} (place : Nat) (x : α) (l : List α) : (insertAt place x l).Perm (x :: l) := by
  have hmiddle : (l.take place ++ x :: l.drop place).Perm (x :: (l.take place ++ l.drop place)) := List.perm_middle
  rwa [List.take_append_drop] at hmiddle

theorem permuteBy_perm {α : Type} (number : Nat) (l : List α) : (permuteBy number l).Perm l := by
  induction l generalizing number with
  | nil => exact List.Perm.refl _
  | cons x rest ih => exact (insertAt_perm _ x _).trans ((ih _).cons x)

/-- Every permutation has a number: where the first element went, and the number of what is left. -/
theorem exists_permuteBy {α : Type} {order l : List α} (h : order.Perm l) : ∃ number, permuteBy number l = order := by
  induction l generalizing order with
  | nil => exact ⟨0, (List.Perm.eq_nil h).symm⟩
  | cons x rest ih =>
    obtain ⟨before, after, rfl⟩ := List.append_of_mem (h.symm.subset (List.mem_cons_self ..))
    have hrest : (before ++ after).Perm rest := (List.perm_middle.symm.trans h).cons_inv
    obtain ⟨number, hnumber⟩ := ih hrest
    have hplace : before.length < rest.length + 1 := by
      have hlength := hrest.length_eq
      rw [List.length_append] at hlength
      omega
    refine ⟨before.length + (rest.length + 1) * number, ?_⟩
    rw [permuteBy, Nat.add_mul_mod_self_left, Nat.mod_eq_of_lt hplace, Nat.add_mul_div_left _ _ (Nat.succ_pos _),
      Nat.div_eq_of_lt hplace, Nat.zero_add, hnumber, insertAt, List.take_left, List.drop_left]

/-- The byte accesses of an access, spelled out by the place of the byte. -/
theorem byteEvents_eq (s : State) (kind : AccessKind) (a : Word) (bytes : List Byte) : s.byteEvents kind a bytes =
    ((List.range bytes.length).filter (fun k => s.eei.memMap.isDevice (byteAddr a k))).map
      (fun k => ⟨kind, a + BitVec.ofNat 32 k, .byte, 0#24 ++ bytes.getD k 0#8⟩) := by
  have hzip : bytes.zipIdx = (List.range bytes.length).map (fun k => (bytes.getD k 0#8, k)) :=
    List.ext_getElem (by simp) fun k h1 h2 => by simp at h1; simp [h1]
  rw [State.byteEvents, hzip, List.filter_map, List.map_map]
  refine List.map_congr_left fun k _ => ?_
  have hvalue (b : Byte) : b.setWidth 32 = 0#24 ++ b := BitVec.setWidth_eq_append (by decide)
  simp [hvalue]

/-- Settles O24: an aligned access is one event, a misaligned one the byte events in an order that is open. -/
theorem deviceEventsOfAnAccess : Obligations.DeviceEventsOfAnAccess := by
  rintro s kind a n bytes ascending hlen rfl
  refine ⟨fun hal => ⟨leValue bytes, ?_, leValue_byte bytes⟩, fun hmis => ?_, fun number => permuteBy_perm number _,
    fun order => exists_permuteBy⟩
  · rw [State.accessEvents, if_pos (naturallyAligned_iff.mpr hal)]
  · rw [State.accessEvents, naturallyAligned_false_iff.mpr hmis, if_neg (by decide), byteEvents_eq, hlen]

end Sys2Proof.Machine
end

section
/-!
Stores (R220 to R222, R57, R74), and what a load sees after a store (R52).
-/
namespace Sys2Proof.Machine

/-! ### Stores that go through -/

/-- The three stores of `x[rs2]` at `x[rs1] + imm`, with their widths. -/
def storeForms (rs1 rs2 : RegNum) (imm : BitVec 12) : List (Instr × Width) :=
  [(Instr.sw rs1 rs2 imm, Width.word), (.sh rs1 rs2 imm, .half), (.sb rs1 rs2 imm, .byte)]

theorem exec_storeForms {rs1 rs2 : RegNum} {imm : BitVec 12} {i : Instr} {n : Width} (hi : (i, n) ∈ storeForms rs1 rs2 imm)
    (s : State) : exec i s = s.store n (s.readReg rs1 + imm.signExtend 32) (s.readReg rs2) := by
  simp only [storeForms, List.mem_cons, List.not_mem_nil, or_false, Prod.mk.injEq] at hi
  obtain ⟨rfl, rfl⟩ | ⟨rfl, rfl⟩ | ⟨rfl, rfl⟩ := hi <;> rfl

/-- The state after a store of `v` that goes through. -/
def State.stored (s : State) (n : Width) (a v : Word) : State :=
  ((s.putBytes a (leBytes v n.bytes)).observe .store a n (leBytes v n.bytes)).advance

theorem stored_storesOnly {s : State} (hs : s.wf) (n : Width) (a v : Word) : StoresOnly a n.bytes v s (s.stored n a v) := by
  have hbytes : n.bytes ≤ 4 := by cases n <;> decide
  obtain ⟨hregs, hwritten_bytes, hothers, hwritten, heei⟩ := putBytes_storesOnly hs.1 a v hbytes
  simp only [StoresOnly, SameRegs, State.byteAt, State.stored, advance_readReg, observe_readReg, advance_mem, observe_mem,
    advance_written, observe_written, advance_eei, observe_eei]
  exact ⟨hregs, hwritten_bytes, hothers, hwritten, heei⟩

theorem stored_pc (s : State) (n : Width) (a v : Word) : (s.stored n a v).pc = s.pc + 4#32 := by
  simp [State.stored]

theorem stored_ordinary {s : State} {n : Width} {a : Word} (ho : s.ordinary a n) (v : Word) :
    (s.stored n a v).draws = s.draws ∧ (s.stored n a v).events = s.events :=
  (observe_record (s.putBytes a (leBytes v n.bytes)) .store a n (leBytes v n.bytes)).1 ho

theorem stored_device {s : State} {n : Width} {a : Word} (hdev : ¬ s.ordinary a n) (v : Word) :
    (s.stored n a v).draws = s.draws + n.bytes ∧ (s.stored n a v).events =
      s.events ++ s.accessEvents .store a n ((List.range n.bytes).map (fun k => v.extractLsb' (8 * k) 8)) := by
  have hobs := observe_device (s := s.putBytes a (leBytes v n.bytes)) (kind := .store) (bytes := leBytes v n.bytes) hdev
  rw [State.stored, hobs, ← leBytes_eq_map]
  exact ⟨rfl, rfl⟩

theorem exec_store_ok {rs1 rs2 : RegNum} {imm : BitVec 12} {s : State} {a : Word} {i : Instr} {n : Width}
    (ha : a = s.readReg rs1 + imm.signExtend 32) (hi : (i, n) ∈ storeForms rs1 rs2 imm) (hok : s.accessOk .store a n) :
    exec i s = .next (s.stored n a (s.readReg rs2)) := by
  rw [exec_storeForms hi, ← ha]
  exact store_ok hok

/-- Under a fatal `ON_TRAP` a store that goes on went through. -/
theorem stored_of_exec_next {rs1 rs2 : RegNum} {imm : BitVec 12} {s t : State} {a : Word} {i : Instr} {n : Width}
    (ha : a = s.readReg rs1 + imm.signExtend 32) (hi : (i, n) ∈ storeForms rs1 rs2 imm) (hs : s.eei.onTrap = .fatal)
    (h : exec i s = .next t) : t = s.stored n a (s.readReg rs2) := by
  rw [exec_storeForms hi, ← ha] at h
  obtain ⟨-, hnext⟩ | ⟨e, -, hraise⟩ := store_cases s n a (s.readReg rs2)
  · cases hnext.symm.trans h
    rfl
  · exact absurd (hraise.symm.trans h) (raise_ne_next hs _ _)

/-- Settles O25: the bytes are put, and ordinary memory records nothing. -/
theorem storesWriteLittleEndian : Obligations.StoresWriteLittleEndian := by
  intro rs1 rs2 imm s a hs ha
  have completes {i : Instr} {n : Width} (hi : (i, n) ∈ storeForms rs1 rs2 imm) (hok : s.accessOk .store a n)
      (ho : s.ordinary a n) : ∃ t, exec i s = .next t ∧ t.pc = s.pc + 4#32 ∧ StoresOnly a n.bytes (s.readReg rs2) s t ∧
        t.draws = s.draws ∧ t.events = s.events :=
    ⟨_, exec_store_ok ha hi hok, stored_pc _ _ _ _, stored_storesOnly hs _ _ _, stored_ordinary ho _⟩
  exact ⟨completes (n := .word) (by simp [storeForms]), completes (n := .half) (by simp [storeForms]),
    completes (n := .byte) (by simp [storeForms])⟩

/-- Settles O26: the bytes are put, and the access is recorded. -/
theorem deviceStoresAreSeen : Obligations.DeviceStoresAreSeen :=
  fun _ _ _ _ _ _ _ hs ha hi hok hdev =>
    ⟨_, exec_store_ok ha hi hok, stored_pc _ _ _ _, stored_storesOnly hs _ _ _, stored_device hdev _⟩

/-! ### Loads after stores (R52) -/

section AfterStore
variable {rd rs1 : RegNum} {imm : BitVec 12} {s t : State} {a b v w : Word} {k j m : Nat}

/-- A store changes no register, so no effective address, and no parameter, so no check of an access. -/
theorem exec_load_after_store {i : Instr} {n : Width} (hst : StoresOnly a m v s t) (hrd : rd ≠ 0#5)
    (hb : b = s.readReg rs1 + imm.signExtend 32) (hi : (i, n, w) ∈ loadForms rd rs1 imm t b) (hok : s.accessOk .load b n)
    (ho : s.ordinary b n) : ∃ u, exec i t = .next u ∧ u.readReg rd = w := by
  obtain ⟨hregs, -, -, -, heei⟩ := hst
  have hok' : t.accessOk .load b n := by rwa [State.accessOk, heei]
  have ho' : t.ordinary b n := by rwa [State.ordinary, heei]
  obtain ⟨u, hnext, -, hvalue, -⟩ := exec_load_ordinary (by rw [hregs]; exact hb) hi hok' ho'
  exact ⟨u, hnext, by rw [hvalue, if_neg hrd]⟩

/-- What a load sees after a store where the two overlap, in ordinary memory. -/
theorem seen_after_store (hst : StoresOnly a m v s t) (hkj : k + j < m)
    (ho : s.eei.memMap.isDevice (byteAddr a (k + j)) = false) :
    t.seen (a + BitVec.ofNat 32 k) j = v.extractLsb' (8 * (k + j)) 8 := by
  obtain ⟨-, hbytes, -, -, heei⟩ := hst
  rw [State.seen, heei, byteAddr_add, ho, if_neg (by decide), byteAt_add, hbytes _ hkj]

/-- An access inside an ordinary word is ordinary. -/
theorem ordinary_inside {n : Width} (ho : s.ordinary a .word) (hk : k + n.bytes ≤ 4) :
    s.ordinary (a + BitVec.ofNat 32 k) n := fun j hj => by
  have hkj : k + j < 4 := by omega
  rw [byteAddr_add]
  exact ho (k + j) hkj

/-- LBU of byte `k` of a word just stored. -/
theorem exec_lbu_after_store (hst : StoresOnly a 4 v s t) (ho : s.ordinary a .word) (hrd : rd ≠ 0#5) (hk : k < 4)
    (hb : a + BitVec.ofNat 32 k = s.readReg rs1 + imm.signExtend 32) (hok : s.accessOk .load (a + BitVec.ofNat 32 k) .byte) :
    ∃ u, exec (.lbu rd rs1 imm) t = .next u ∧ u.readReg rd = 0#24 ++ v.extractLsb' (8 * k) 8 := by
  have h0 := seen_after_store (j := 0) hst hk (ho k hk)
  rw [Nat.add_zero] at h0
  rw [← h0]
  exact exec_load_after_store hst hrd hb (by simp [loadForms]) hok (ordinary_inside ho (n := .byte) hk)

/-- LHU of the halfword from byte `k` of a word just stored. -/
theorem exec_lhu_after_store (hst : StoresOnly a 4 v s t) (ho : s.ordinary a .word) (hrd : rd ≠ 0#5) (hk : k + 1 < 4)
    (hb : a + BitVec.ofNat 32 k = s.readReg rs1 + imm.signExtend 32) (hok : s.accessOk .load (a + BitVec.ofNat 32 k) .half) :
    ∃ u, exec (.lhu rd rs1 imm) t = .next u ∧ u.readReg rd = 0#16 ++ v.extractLsb' (8 * k) 16 := by
  have hk0 : k + 0 < 4 := by omega
  have h0 := seen_after_store (j := 0) hst hk0 (ho _ hk0)
  have h1 := seen_after_store (j := 1) hst hk (ho _ hk)
  have hjoin : v.extractLsb' (8 * (k + 1)) 8 ++ v.extractLsb' (8 * (k + 0)) 8 = v.extractLsb' (8 * k) 16 :=
    field_join v (8 * k) 8 8
  rw [← hjoin, ← h0, ← h1]
  exact exec_load_after_store hst hrd hb (by simp [loadForms]) hok (ordinary_inside ho (n := .half) hk)

/-- LW of a word just stored. -/
theorem exec_lw_after_store (hst : StoresOnly a 4 v s t) (ho : s.ordinary a .word) (hrd : rd ≠ 0#5)
    (hb : a = s.readReg rs1 + imm.signExtend 32) (hok : s.accessOk .load a .word) :
    ∃ u, exec (.lw rd rs1 imm) t = .next u ∧ u.readReg rd = v := by
  have hseen (j : Nat) (hj : j < 4) : t.seen a j = v.extractLsb' (8 * j) 8 := by
    have hj0 : 0 + j < 4 := by omega
    simpa using seen_after_store (k := 0) hst hj0 (ho _ hj0)
  rw [← word_of_bytes v, ← hseen 0 (by omega), ← hseen 1 (by omega), ← hseen 2 (by omega), ← hseen 3 (by omega)]
  exact exec_load_after_store hst hrd hb (by simp [loadForms]) hok ho

end AfterStore

/-- Settles O31: a load inside the word sees the bytes just stored, put together again. -/
theorem narrowLoadsAfterWordStore : Obligations.NarrowLoadsAfterWordStore := by
  intro rs1 rs2 rd imm s t a hs ha _ hok ho hrd hexec hfatal
  have hst : StoresOnly a 4 (s.readReg rs2) s t := by
    rw [stored_of_exec_next (n := .word) (rs2 := rs2) ha (by simp [storeForms]) hfatal hexec]
    exact stored_storesOnly hs .word a _
  have hzero : a + BitVec.ofNat 32 0 = a := BitVec.add_zero a
  refine ⟨exec_lw_after_store hst ho hrd ha (hok .word), ?byte, ?half,
    fun off hoff hhalf => ?upper, fun off k hoff hk hallows => ?part⟩
  case byte => exact exec_lbu_after_store (k := 0) hst ho hrd (by omega) (hzero.trans ha) (hzero.symm ▸ hok .byte)
  case half => exact exec_lhu_after_store (k := 0) hst ho hrd (by omega) (hzero.trans ha) (hzero.symm ▸ hok .half)
  case upper => exact exec_lhu_after_store (k := 2) hst ho hrd (by omega) hoff.symm hhalf
  case part =>
    refine exec_lbu_after_store hst ho hrd hk hoff.symm ⟨.inl (Nat.mod_one _), fun j hj => ?_⟩
    obtain rfl : j = 0 := Nat.lt_one_iff.mp hj
    simpa [byteAddr] using hallows

/-- Byte `j` of a word put together from four. -/
theorem byte_of_word (b0 b1 b2 b3 : Byte) {j : Nat} (hj : j < 4) :
    (b3 ++ b2 ++ b1 ++ b0).extractLsb' (8 * j) 8 = [b0, b1, b2, b3].getD j 0#8 := by
  rw [← leValue_four, leValue_byte _ j hj]

/-- What a byte store inside a word leaves of it: that byte is the one stored, the others are as they were. -/
theorem byteAt_after_byte_store {s t : State} {a v : Word} {k j : Nat} (hst : StoresOnly (a + BitVec.ofNat 32 k) 1 v s t)
    (hk : k < 4) (hj : j < 4) : t.byteAt a j = if j = k then v.extractLsb' 0 8 else s.byteAt a j := by
  obtain ⟨-, hbyte, hothers, -, -⟩ := hst
  split
  case isTrue h =>
    subst h
    have h0 := hbyte 0 (by omega)
    rwa [byteAt_add] at h0
  case isFalse h =>
    refine hothers _ fun hmem => h ?_
    obtain ⟨i, hi, he⟩ := mem_byteAddrs.mp hmem
    rw [byteAddr_add] at he
    have hjk := byteAddr_inj (by omega) (by omega) he
    omega

/-- Settles O32: the word is loaded byte by byte, and one of the bytes is the one stored. -/
theorem byteStoreChangesOneByteOfAWord : Obligations.ByteStoreChangesOneByteOfAWord := by
  intro rs1 rs2 rd imm off s t a k j hs ha _ hok ho hrd hoff hk hj hfatal hexec
  have hst : StoresOnly (a + BitVec.ofNat 32 k) 1 (s.readReg rs2) s t := by
    rw [stored_of_exec_next (n := .byte) (rs2 := rs2) hoff.symm (by simp [storeForms]) hfatal hexec]
    exact stored_storesOnly hs .byte _ _
  obtain ⟨u, hnext, hvalue⟩ := exec_load_after_store (imm := imm) (rd := rd) hst hrd ha (List.mem_cons_self ..) hok ho
  refine ⟨u, hnext, ?_⟩
  have hseen (i : Nat) (hi : i < 4) : t.seen a i = t.byteAt a i := by
    obtain ⟨-, -, -, -, heei⟩ := hst
    rw [State.seen, heei, ho i hi, if_neg (by decide)]
  rw [hvalue, byte_of_word _ _ _ _ hj, ← byteAt_after_byte_store hst hk hj, ← hseen j hj]
  interval_cases j <;> rfl

end Sys2Proof.Machine
end

section
/-!
Sequences and pseudoinstructions (45_assembly_pseudoinstructions.md): the high/low split, and what each expansion does.
-/
namespace Sys2Proof.Machine

/-! ### Running a list of instructions -/

theorem execAll_cons {i : Instr} {rest : List Instr} {s t : State} (h : exec i s = .next t) :
    execAll (i :: rest) s = execAll rest t := by
  simp [execAll, h]

theorem execAll_one {i : Instr} {s t : State} (h : exec i s = .next t) : execAll [i] s = .next t := execAll_cons h

theorem execAll_two {i j : Instr} {s t u : State} (h : exec i s = .next t) (h' : exec j t = .next u) :
    execAll [i, j] s = .next u :=
  (execAll_cons h).trans (execAll_one h')

/-- One computational instruction, run alone. -/
theorem execAll_compute {i : Instr} {s : State} {rd : RegNum} {v : Word} (h : exec i s = s.compute rd v) :
    ∃ t, execAll [i] s = .next t ∧ t.pc = s.pc + 4#32 ∧ WritesOnly rd v s t :=
  ⟨_, execAll_one h, rfl, result_writesOnly s rd v⟩

theorem WritesOnly.trans {rd : RegNum} {v w : Word} {s t u : State} (h : WritesOnly rd v s t) (h' : WritesOnly rd w t u) :
    WritesOnly rd w s u := by
  obtain ⟨-, hregs, hmem, hwritten, heei, hdraws, hevents⟩ := h
  obtain ⟨hrd, hregs', hmem', hwritten', heei', hdraws', hevents'⟩ := h'
  exact ⟨hrd, fun r hr => (hregs' r hr).trans (hregs r hr), fun a => (hmem' a).trans (hmem a), hwritten'.trans hwritten,
    heei'.trans heei, hdraws'.trans hdraws, hevents'.trans hevents⟩

/-- Two computational instructions with one destination, run one after the other. -/
theorem execAll_compute_two {i j : Instr} {s : State} {rd : RegNum} {v w : Word} (h : exec i s = s.compute rd v)
    (h' : exec j (s.result rd v) = (s.result rd v).compute rd w) :
    ∃ t, execAll [i, j] s = .next t ∧ t.pc = s.pc + 8#32 ∧ WritesOnly rd w s t := by
  refine ⟨_, execAll_two h h', ?_, (result_writesOnly s rd v).trans (result_writesOnly _ rd w)⟩
  show s.pc + 4#32 + 4#32 = s.pc + 8#32
  rw [BitVec.add_assoc]
  rfl

theorem readReg_result_same {s : State} {rd : RegNum} (v : Word) (hrd : rd ≠ 0#5) : (s.result rd v).readReg rd = v :=
  readReg_writeReg_same s v hrd

theorem readReg_result_other {s : State} {rd r : RegNum} (v : Word) (hr : r ≠ rd) :
    (s.result rd v).readReg r = s.readReg r :=
  readReg_writeReg_other s v hr

/-! ### ADD and SUB, XOR twice, comparisons and branches -/

/-- Two register instructions on `rd` and `rs2`, the second undoing the first, leave `rd` as it was. -/
theorem execAll_undo {i j : Instr} {s : State} {rd rs2 : RegNum} {f g : Word → Word → Word} (hrd : rd ≠ 0#5) (hrs2 : rs2 ≠ rd)
    (hi : ∀ s : State, exec i s = s.compute rd (f (s.readReg rd) (s.readReg rs2)))
    (hj : ∀ s : State, exec j s = s.compute rd (g (s.readReg rd) (s.readReg rs2)))
    (hundo : ∀ x y, g (f x y) y = x) : ∃ t, execAll [i, j] s = .next t ∧ t.readReg rd = s.readReg rd := by
  refine ⟨_, execAll_two (hi s) (hj _), ?_⟩
  rw [readReg_result_same _ hrd, readReg_result_same _ hrd, readReg_result_other _ hrs2, hundo]

/-- Settles O55: subtraction undoes addition, XOR undoes itself, and a comparison is 1 where its negation does not hold. -/
theorem inversesAndComplements : Obligations.InversesAndComplements := by
  intro rd rs2 rs1 offset s hrd hrs2
  refine ⟨execAll_undo hrd hrs2 (fun _ => rfl) (fun _ => rfl) BitVec.add_sub_cancel,
    execAll_undo hrd hrs2 (fun _ => rfl) (fun _ => rfl) fun x y => ?xor, ⟨_, exec_slt rd rs1 rs2 s, ?slt⟩,
    ⟨_, exec_sltu rd rs1 rs2 s, ?sltu⟩⟩
  case xor => rw [BitVec.xor_assoc, BitVec.xor_self, BitVec.xor_zero]
  case slt =>
    rw [readReg_result_same _ hrd]
    by_cases h : (s.readReg rs1).toInt < (s.readReg rs2).toInt <;> simp [branchTaken, h]
  case sltu =>
    rw [readReg_result_same _ hrd]
    by_cases h : (s.readReg rs1).toNat < (s.readReg rs2).toNat <;> simp [branchTaken, h]

/-! ### The high/low split (R267) -/

theorem hi20_toNat (x : Word) : (hi20 x).toNat = (x.toNat / 4096 + x.toNat / 2048 % 2) % 2 ^ 20 := by
  simp only [hi20, BitVec.toNat_add, BitVec.extractLsb'_toNat, BitVec.toNat_setWidth, Nat.shiftRight_eq_div_pow]
  omega

theorem lo12_toNat (x : Word) : (lo12 x).toNat = x.toNat % 4096 := BitVec.toNat_setWidth 12 x

/-- The upper operand, shifted, and the sign-extended low part give the value back: what the low part's sign takes away, the
upper operand has more. -/
theorem immU_add_imm12 (x : Word) : immU (hi20 x) + imm12 (lo12 x) = x := by
  have hhi := immU_toNat (hi20 x)
  have hlo := imm12_toNat (lo12 x)
  have hx := x.isLt
  rw [hi20_toNat] at hhi
  rw [BitVec.toInt_eq_toNat_cond, lo12_toNat] at hlo
  refine BitVec.eq_of_toNat_eq ?_
  rw [BitVec.toNat_add, hhi]
  split at hlo <;> omega

/-- Settles O56: as numbers. -/
theorem highLowSplitRebuilds : Obligations.HighLowSplitRebuilds := by
  refine fun x => ⟨immU_add_imm12 x, BitVec.eq_of_toNat_eq ?_⟩
  have hx := x.isLt
  rw [hi20_toNat, BitVec.toNat_setWidth, BitVec.toNat_ushiftRight, BitVec.toNat_add, BitVec.toNat_ofNat,
    Nat.shiftRight_eq_div_pow]
  omega

/-! ### Constants and addresses -/

/-- ADDI on the register just written adds to what was written; x0 loses both. -/
theorem exec_addi_after_result (s : State) (rd : RegNum) (v : Word) (imm : BitVec 12) :
    exec (.addi rd rd imm) (s.result rd v) = (s.result rd v).compute rd (v + imm12 imm) := by
  by_cases hrd : rd = 0#5
  · subst hrd
    rw [compute_zero]
    exact compute_zero _ _
  · show (s.result rd v).compute rd ((s.result rd v).readReg rd + imm12 imm) = _
    rw [readReg_result_same v hrd]

/-- Settles O57, by the three expansions: each computes the constant, or its upper part first. -/
theorem loadImmediateBuildsTheConstant : Obligations.LoadImmediateBuildsTheConstant := by
  intro rd c s
  simp only [expand, expandLi]
  split
  case isTrue hsmall =>
    have hvalue : s.readReg 0#5 + imm12 (lo12 c) = c := (BitVec.zero_add _).trans hsmall
    obtain ⟨t, hnext, hpc, hframe⟩ := execAll_compute (s := s) (i := .addi rd 0#5 (lo12 c)) (congrArg (s.compute rd) hvalue)
    exact ⟨t, hnext, hframe, hpc⟩
  case isFalse =>
    have hsplit := immU_add_imm12 c
    split
    case isTrue hlow =>
      rw [hlow] at hsplit
      have hvalue : immU (hi20 c) = c := (BitVec.add_zero _).symm.trans hsplit
      obtain ⟨t, hnext, hpc, hframe⟩ := execAll_compute (s := s) (i := .lui rd (hi20 c)) (congrArg (s.compute rd) hvalue)
      exact ⟨t, hnext, hframe, hpc⟩
    case isFalse =>
      have haddi := exec_addi_after_result s rd (immU (hi20 c)) (lo12 c)
      rw [hsplit] at haddi
      obtain ⟨t, hnext, hpc, hframe⟩ := execAll_compute_two (i := .lui rd (hi20 c)) rfl haddi
      exact ⟨t, hnext, hframe, hpc⟩

theorem pc_add_hi_lo (pc delta : Word) : pc + immU (hi20 delta) + imm12 (lo12 delta) = pc + delta := by
  rw [BitVec.add_assoc, immU_add_imm12]

/-- JALR by the low part, from the register an AUIPC of the upper part just wrote (R273). -/
theorem exec_jalr_after_auipc {s : State} {base : RegNum} (hbase : base ≠ 0#5) (rd : RegNum) {offset : Word}
    (hal : (s.pc + offset).toNat % 4 = 0) :
    exec (.jalr rd base (lo12 offset)) (s.result base (s.pc + immU (hi20 offset))) =
      .next (((s.result base (s.pc + immU (hi20 offset))).writeReg rd (s.pc + 8#32)).setPc (s.pc + offset)) := by
  have hlink : s.pc + 4#32 + 4#32 = s.pc + 8#32 := BitVec.add_assoc _ _ _
  have hclear : (s.pc + offset) &&& 0xFFFFFFFE#32 = s.pc + offset := by
    refine BitVec.eq_of_toNat_eq ?_
    rw [toNat_clear_bit0]
    omega
  have hbase_eq := pc_add_hi_lo s.pc offset
  rw [imm12] at hbase_eq
  rw [exec_jalr, readReg_result_same _ hbase, hbase_eq, hclear, jump_aligned hal, result_pc, hlink]

/-- Settles O60: the AUIPC writes the upper part relative to its own address, the second instruction adds the low part. -/
theorem farTransfersAndAddresses : Obligations.FarTransfersAndAddresses := by
  intro rd offset s
  refine ⟨fun hal => ⟨?call, ?tail⟩, ?la⟩
  case call =>
    have hjalr := exec_jalr_after_auipc (base := 1#5) (by decide) 1#5 hal
    exact ⟨_, execAll_two rfl hjalr, rfl, (result_writesOnly s 1#5 _).trans (link_writesOnly _ 1#5 _ _)⟩
  case tail =>
    have hjalr := exec_jalr_after_auipc (base := 6#5) (by decide) 0#5 hal
    obtain ⟨-, hregs, hmem, hrest⟩ := result_writesOnly s 6#5 (s.pc + immU (hi20 offset))
    exact ⟨_, execAll_two rfl hjalr, rfl, hregs, hmem, hrest⟩
  case la =>
    have haddi := exec_addi_after_result s rd (s.pc + immU (hi20 offset)) (lo12 offset)
    rw [pc_add_hi_lo] at haddi
    exact execAll_compute_two (i := .auipc rd (hi20 offset)) rfl haddi

/-! ### Register and branch pseudoinstructions (R269, R271, R272) -/

theorem toInt_eq_zero_iff (x : Word) : x.toInt = 0 ↔ x = 0#32 := by
  rw [← BitVec.toInt_inj, BitVec.toInt_zero]

theorem toNat_pos_iff (x : Word) : 0 < x.toNat ↔ x ≠ 0#32 := by
  rw [Ne, ← BitVec.toNat_inj, Nat.pos_iff_ne_zero]
  rfl

/-- Settles O58, name by name: the value each expansion computes. -/
theorem registerPseudoinstructions : Obligations.RegisterPseudoinstructions := by
  intro rd rs s
  refine ⟨⟨_, execAll_one (compute_zero s _), rfl, changesOnlyPc_setPc s _⟩, execAll_compute ?mv, execAll_compute ?not,
    execAll_compute ?neg, execAll_compute ?seqz, execAll_compute ?snez, execAll_compute ?sltz, execAll_compute ?sgtz⟩
  case mv => exact congrArg (s.compute rd) (BitVec.add_zero (s.readReg rs))
  case not => exact congrArg (s.compute rd) (BitVec.xor_allOnes (x := s.readReg rs))
  case neg => exact congrArg (s.compute rd) (BitVec.zero_sub (s.readReg rs))
  case seqz =>
    have hone : (1#12).toInt % 2 ^ 32 = 1 := by decide
    have hiff : ((s.readReg rs).toNat : Int) < 1 ↔ s.readReg rs = 0#32 := by
      have hpos := toNat_pos_iff (s.readReg rs)
      rw [← not_iff_not, ← Ne, ← hpos]
      omega
    exact (exec_sltiu rd rs 1#12 s).trans (by simp only [hone, hiff])
  case snez =>
    refine (exec_sltu rd 0#5 rs s).trans ?_
    simp only [readReg_zero, BitVec.toNat_zero, toNat_pos_iff]
  case sltz =>
    refine (exec_slt rd rs 0#5 s).trans ?_
    rw [readReg_zero, BitVec.toInt_zero]
  case sgtz =>
    refine (exec_slt rd 0#5 rs s).trans ?_
    rw [readReg_zero, BitVec.toInt_zero]

/-- Settles O59: each expands to one branch, whose condition is the comparison of the name. -/
theorem branchPseudoinstructions : Obligations.BranchPseudoinstructions := by
  intro rs rt offset s p taken hp hal
  have hzero : s.readReg 0 = 0#32 := rfl
  obtain ⟨i, hexpand, ht, hj, hb⟩ : ∃ i, expand p = [i] ∧ targetOf i s = some (s.pc + offset.signExtend 32) ∧
      isJump i = false ∧ branchTaken i s = taken := by
    simp only [List.mem_cons, List.not_mem_nil, or_false, Prod.mk.injEq] at hp
    obtain ⟨rfl, rfl⟩ | ⟨rfl, rfl⟩ | ⟨rfl, rfl⟩ | ⟨rfl, rfl⟩ | ⟨rfl, rfl⟩ | ⟨rfl, rfl⟩ | ⟨rfl, rfl⟩ | ⟨rfl, rfl⟩ | ⟨rfl, rfl⟩ |
      ⟨rfl, rfl⟩ := hp
    all_goals refine ⟨_, rfl, rfl, rfl, ?_⟩
    all_goals simp only [branchTaken, hzero, BitVec.toInt_zero, toInt_eq_zero_iff, ne_eq, ge_iff_le, gt_iff_lt]
  rw [hexpand]
  cases taken with
  | true => exact ⟨_, execAll_one (exec_branch_taken ht hj hb hal), changesOnlyPc_setPc s _, rfl⟩
  | false => exact ⟨_, execAll_one (exec_branch_not_taken ht hj hb), changesOnlyPc_setPc s _, rfl⟩

end Sys2Proof.Machine
end
